-- ==== Sys2Proof/Word.lean ====
section
/-! DEFINITION. The word types of the core: everything the spec treats as bits (00_scope.md R8). -/

namespace Sys2Proof

/-- A 32-bit value: a register, a virtual or physical address, a CSR (XLEN = 32, R7). -/
abbrev Word := BitVec 32

/-- A 16-bit value: a fetched halfword, a compressed instruction. -/
abbrev Half := BitVec 16

/-- One byte of memory. -/
abbrev Byte := BitVec 8

/-- A 64-bit value: `mcycle`, the real-time counter. -/
abbrev DWord := BitVec 64

end Sys2Proof
end

