-- ==== Sys2Proof/Syntax.lean ====
section
/-! DEFINITION. The instructions: one constructor per row of spec/opcode_table.json, with every field of the
encoding that the row leaves free, the ignored ones too, so that encoding drops no bit. -/

namespace Sys2Proof

/-- A general register number, 0 to 31 (30_encoding.md R171). -/
abbrev Reg := Fin 32

/-- A 3-bit register field of a compressed instruction (48_compressed.md R371). -/
abbrev CReg := Fin 8

/-- The register `x[8 + r']` that a 3-bit field names (48_compressed.md R371). -/
def CReg.reg (r : CReg) : Reg := ⟨8 + r.val, by omega⟩

/-- The instructions of the core. `imm` fields hold the bits of the immediate before extension; `off` fields hold
the whole byte offset, whose low bit is 0 in a well-formed instruction. -/
inductive Instr where
  -- 40_integer_computational.md
  | lui (rd : Reg) (imm : BitVec 20)
  | auipc (rd : Reg) (imm : BitVec 20)
  | addi (rd rs1 : Reg) (imm : BitVec 12)
  | slti (rd rs1 : Reg) (imm : BitVec 12)
  | sltiu (rd rs1 : Reg) (imm : BitVec 12)
  | xori (rd rs1 : Reg) (imm : BitVec 12)
  | ori (rd rs1 : Reg) (imm : BitVec 12)
  | andi (rd rs1 : Reg) (imm : BitVec 12)
  | slli (rd rs1 : Reg) (shamt : BitVec 5)
  | srli (rd rs1 : Reg) (shamt : BitVec 5)
  | srai (rd rs1 : Reg) (shamt : BitVec 5)
  | add (rd rs1 rs2 : Reg)
  | sub (rd rs1 rs2 : Reg)
  | sll (rd rs1 rs2 : Reg)
  | slt (rd rs1 rs2 : Reg)
  | sltu (rd rs1 rs2 : Reg)
  | xor (rd rs1 rs2 : Reg)
  | srl (rd rs1 rs2 : Reg)
  | sra (rd rs1 rs2 : Reg)
  | or (rd rs1 rs2 : Reg)
  | and (rd rs1 rs2 : Reg)
  -- 41_control_transfer.md
  | jal (rd : Reg) (off : BitVec 21)
  | jalr (rd rs1 : Reg) (imm : BitVec 12)
  | beq (rs1 rs2 : Reg) (off : BitVec 13)
  | bne (rs1 rs2 : Reg) (off : BitVec 13)
  | blt (rs1 rs2 : Reg) (off : BitVec 13)
  | bge (rs1 rs2 : Reg) (off : BitVec 13)
  | bltu (rs1 rs2 : Reg) (off : BitVec 13)
  | bgeu (rs1 rs2 : Reg) (off : BitVec 13)
  -- 42_load_store.md
  | lb (rd rs1 : Reg) (imm : BitVec 12)
  | lh (rd rs1 : Reg) (imm : BitVec 12)
  | lw (rd rs1 : Reg) (imm : BitVec 12)
  | lbu (rd rs1 : Reg) (imm : BitVec 12)
  | lhu (rd rs1 : Reg) (imm : BitVec 12)
  | sb (rs2 rs1 : Reg) (imm : BitVec 12)
  | sh (rs2 rs1 : Reg) (imm : BitVec 12)
  | sw (rs2 rs1 : Reg) (imm : BitVec 12)
  -- 43_misc_mem.md
  | fence (fm pred succ : BitVec 4) (rs1 rd : Reg)
  | fenceI (imm : BitVec 12) (rs1 rd : Reg)
  -- 44_m_extension.md
  | mul (rd rs1 rs2 : Reg)
  | mulh (rd rs1 rs2 : Reg)
  | mulhsu (rd rs1 rs2 : Reg)
  | mulhu (rd rs1 rs2 : Reg)
  | div (rd rs1 rs2 : Reg)
  | divu (rd rs1 rs2 : Reg)
  | rem (rd rs1 rs2 : Reg)
  | remu (rd rs1 rs2 : Reg)
  -- 45_a_extension.md
  | lrW (aq rl : Bool) (rd rs1 : Reg)
  | scW (aq rl : Bool) (rd rs1 rs2 : Reg)
  | amoswapW (aq rl : Bool) (rd rs1 rs2 : Reg)
  | amoaddW (aq rl : Bool) (rd rs1 rs2 : Reg)
  | amoxorW (aq rl : Bool) (rd rs1 rs2 : Reg)
  | amoandW (aq rl : Bool) (rd rs1 rs2 : Reg)
  | amoorW (aq rl : Bool) (rd rs1 rs2 : Reg)
  | amominW (aq rl : Bool) (rd rs1 rs2 : Reg)
  | amomaxW (aq rl : Bool) (rd rs1 rs2 : Reg)
  | amominuW (aq rl : Bool) (rd rs1 rs2 : Reg)
  | amomaxuW (aq rl : Bool) (rd rs1 rs2 : Reg)
  -- 46_zicsr.md
  | csrrw (rd rs1 : Reg) (csr : BitVec 12)
  | csrrs (rd rs1 : Reg) (csr : BitVec 12)
  | csrrc (rd rs1 : Reg) (csr : BitVec 12)
  | csrrwi (rd : Reg) (uimm : BitVec 5) (csr : BitVec 12)
  | csrrsi (rd : Reg) (uimm : BitVec 5) (csr : BitVec 12)
  | csrrci (rd : Reg) (uimm : BitVec 5) (csr : BitVec 12)
  -- 47_system_privileged.md
  | ecall
  | ebreak
  | mret
  | sret
  | wfi
  | sfenceVma (rs1 rs2 : Reg)
  -- 48_compressed.md
  | cAddi4spn (rd : CReg) (uimm : BitVec 10)
  | cLw (rd rs1 : CReg) (uimm : BitVec 7)
  | cSw (rs2 rs1 : CReg) (uimm : BitVec 7)
  | cNop (imm : BitVec 6)
  | cAddi (rd : Reg) (imm : BitVec 6)
  | cJal (off : BitVec 12)
  | cLi (rd : Reg) (imm : BitVec 6)
  | cAddi16sp (imm : BitVec 10)
  | cLui (rd : Reg) (imm : BitVec 6)
  | cSrli (rd : CReg) (shamt : BitVec 5)
  | cSrai (rd : CReg) (shamt : BitVec 5)
  | cAndi (rd : CReg) (imm : BitVec 6)
  | cSub (rd rs2 : CReg)
  | cXor (rd rs2 : CReg)
  | cOr (rd rs2 : CReg)
  | cAnd (rd rs2 : CReg)
  | cJ (off : BitVec 12)
  | cBeqz (rs1 : CReg) (off : BitVec 9)
  | cBnez (rs1 : CReg) (off : BitVec 9)
  | cSlli (rd : Reg) (shamt : BitVec 5)
  | cLwsp (rd : Reg) (uimm : BitVec 8)
  | cJr (rs1 : Reg)
  | cMv (rd rs2 : Reg)
  | cEbreak
  | cJalr (rs1 : Reg)
  | cAdd (rd rs2 : Reg)
  | cSwsp (rs2 : Reg) (uimm : BitVec 8)
  deriving DecidableEq, Repr

/-- What a fetch reads: one halfword that is a whole 16-bit instruction, or the 32-bit word of two halfwords
(20_memory.md R123). -/
inductive RawInstr where
  | half (c : Half)
  | full (w : Word)
  deriving DecidableEq, Repr

end Sys2Proof
end

