-- ==== Sys2Proof/WellFormed.lean ====
section
/-! DEFINITION. Which terms of `Instr` are instructions: the operand values that an encoding of the spec can hold
(30_encoding.md R172, R182, R183; 48_compressed.md). -/

namespace Sys2Proof

/-- The low `n` bits of `v` are zero: what a scaled offset of `n` missing bits satisfies. -/
def lowZero {w : Nat} (n : Nat) (v : BitVec w) : Bool := v.toNat % 2 ^ n == 0

/-- The operands are ones the instruction's encoding can hold. -/
def Instr.wf : Instr → Bool
  | .jal _ off => lowZero 1 off
  | .beq _ _ off | .bne _ _ off | .blt _ _ off | .bge _ _ off | .bltu _ _ off | .bgeu _ _ off => lowZero 1 off
  | .cAddi4spn _ uimm => lowZero 2 uimm && uimm != 0
  | .cLw _ _ uimm | .cSw _ _ uimm => lowZero 2 uimm
  | .cAddi rd _ => rd != 0
  | .cJal off | .cJ off => lowZero 1 off
  | .cAddi16sp imm => lowZero 4 imm && imm != 0
  | .cLui rd imm => rd != 2 && imm != 0
  | .cBeqz _ off | .cBnez _ off => lowZero 1 off
  | .cLwsp rd uimm => rd != 0 && lowZero 2 uimm
  | .cJr rs1 | .cJalr rs1 => rs1 != 0
  | .cMv _ rs2 | .cAdd _ rs2 => rs2 != 0
  | .cSwsp _ uimm => lowZero 2 uimm
  | .lui _ _ | .auipc _ _ => true
  | .addi _ _ _ | .slti _ _ _ | .sltiu _ _ _ | .xori _ _ _ | .ori _ _ _ | .andi _ _ _ => true
  | .slli _ _ _ | .srli _ _ _ | .srai _ _ _ => true
  | .add _ _ _ | .sub _ _ _ | .sll _ _ _ | .slt _ _ _ | .sltu _ _ _ => true
  | .xor _ _ _ | .srl _ _ _ | .sra _ _ _ | .or _ _ _ | .and _ _ _ => true
  | .jalr _ _ _ => true
  | .lb _ _ _ | .lh _ _ _ | .lw _ _ _ | .lbu _ _ _ | .lhu _ _ _ => true
  | .sb _ _ _ | .sh _ _ _ | .sw _ _ _ => true
  | .fence _ _ _ _ _ | .fenceI _ _ _ => true
  | .mul _ _ _ | .mulh _ _ _ | .mulhsu _ _ _ | .mulhu _ _ _ => true
  | .div _ _ _ | .divu _ _ _ | .rem _ _ _ | .remu _ _ _ => true
  | .lrW _ _ _ _ | .scW _ _ _ _ _ => true
  | .amoswapW _ _ _ _ _ | .amoaddW _ _ _ _ _ | .amoxorW _ _ _ _ _ | .amoandW _ _ _ _ _ | .amoorW _ _ _ _ _ => true
  | .amominW _ _ _ _ _ | .amomaxW _ _ _ _ _ | .amominuW _ _ _ _ _ | .amomaxuW _ _ _ _ _ => true
  | .csrrw _ _ _ | .csrrs _ _ _ | .csrrc _ _ _ | .csrrwi _ _ _ | .csrrsi _ _ _ | .csrrci _ _ _ => true
  | .ecall | .ebreak | .mret | .sret | .wfi | .sfenceVma _ _ => true
  | .cNop _ | .cLi _ _ | .cSrli _ _ | .cSrai _ _ | .cAndi _ _ => true
  | .cSub _ _ | .cXor _ _ | .cOr _ _ | .cAnd _ _ | .cSlli _ _ | .cEbreak => true

end Sys2Proof
end

