-- ==== Sys2Proof/Decode.lean ====
section
/-! DEFINITION. The decoder (30_encoding.md R170 to R183, 48_compressed.md), total on any bytes and rejecting by
name, and after it the encoder, written from the same tables. `v.extractLsb' lo n` is the slice `v[lo+n-1 : lo]`. -/

namespace Sys2Proof

/-- Why a fetched halfword or word is no instruction (30_encoding.md R176, R183); both raise IllegalInstruction
in a step. `truncated`: a byte list ends inside an instruction (a step never meets it). -/
inductive DecodeError where
  | illegalHalf (c : Half)
  | illegalWord (w : Word)
  | truncated
  deriving DecidableEq, Repr

/-! ## Fields of a 32-bit word (R171, R172) -/

/-- `w[6:0]`. -/
def opcodeOf (w : Word) : BitVec 7 := w.extractLsb' 0 7
/-- `w[11:7]`. -/
def rdOf (w : Word) : Reg := (w.extractLsb' 7 5).toFin
/-- `w[14:12]`. -/
def funct3Of (w : Word) : BitVec 3 := w.extractLsb' 12 3
/-- `w[19:15]`. -/
def rs1Of (w : Word) : Reg := (w.extractLsb' 15 5).toFin
/-- `w[24:20]`. -/
def rs2Of (w : Word) : Reg := (w.extractLsb' 20 5).toFin
/-- `w[31:25]`. -/
def funct7Of (w : Word) : BitVec 7 := w.extractLsb' 25 7
/-- `w[31:27]`. -/
def funct5Of (w : Word) : BitVec 5 := w.extractLsb' 27 5
/-- The 12 bits of `imm_I`, and the CSR address: `w[31:20]`. -/
def immIOf (w : Word) : BitVec 12 := w.extractLsb' 20 12
/-- The 12 bits of `imm_S`: `{w[31:25], w[11:7]}`. -/
def immSOf (w : Word) : BitVec 12 := w.extractLsb' 25 7 ++ w.extractLsb' 7 5
/-- The 13 bits of `imm_B`: `{w[31], w[7], w[30:25], w[11:8], 0}`. -/
def immBOf (w : Word) : BitVec 13 :=
  w.extractLsb' 31 1 ++ w.extractLsb' 7 1 ++ w.extractLsb' 25 6 ++ w.extractLsb' 8 4 ++ 0#1
/-- The upper 20 bits of `imm_U`: `w[31:12]`. -/
def immUOf (w : Word) : BitVec 20 := w.extractLsb' 12 20
/-- The 21 bits of `imm_J`: `{w[31], w[19:12], w[20], w[30:21], 0}`. -/
def immJOf (w : Word) : BitVec 21 :=
  w.extractLsb' 31 1 ++ w.extractLsb' 12 8 ++ w.extractLsb' 20 1 ++ w.extractLsb' 21 10 ++ 0#1
/-- `shamt`, `w[24:20]`. -/
def shamtOf (w : Word) : BitVec 5 := w.extractLsb' 20 5
/-- `uimm` of a CSR instruction, `w[19:15]`. -/
def uimmOf (w : Word) : BitVec 5 := w.extractLsb' 15 5
/-- `aq`, `w[26]` (45_a_extension.md R300). -/
def aqOf (w : Word) : Bool := w.getLsbD 26
/-- `rl`, `w[25]`. -/
def rlOf (w : Word) : Bool := w.getLsbD 25

/-! ## Decoding a 32-bit word (R174 to R177) -/

/-- LOAD, opcode 0x03. -/
def decodeLoad (w : Word) : Option Instr :=
  match funct3Of w with
  | 0#3 => some (.lb (rdOf w) (rs1Of w) (immIOf w))
  | 1#3 => some (.lh (rdOf w) (rs1Of w) (immIOf w))
  | 2#3 => some (.lw (rdOf w) (rs1Of w) (immIOf w))
  | 4#3 => some (.lbu (rdOf w) (rs1Of w) (immIOf w))
  | 5#3 => some (.lhu (rdOf w) (rs1Of w) (immIOf w))
  | _ => none

/-- STORE, opcode 0x23. -/
def decodeStore (w : Word) : Option Instr :=
  match funct3Of w with
  | 0#3 => some (.sb (rs2Of w) (rs1Of w) (immSOf w))
  | 1#3 => some (.sh (rs2Of w) (rs1Of w) (immSOf w))
  | 2#3 => some (.sw (rs2Of w) (rs1Of w) (immSOf w))
  | _ => none

/-- MISC-MEM, opcode 0x0F: every other field is accepted (43_misc_mem.md R270, R271). -/
def decodeMiscMem (w : Word) : Option Instr :=
  match funct3Of w with
  | 0#3 => some (.fence (w.extractLsb' 28 4) (w.extractLsb' 24 4) (w.extractLsb' 20 4) (rs1Of w) (rdOf w))
  | 1#3 => some (.fenceI (immIOf w) (rs1Of w) (rdOf w))
  | _ => none

/-- OP-IMM, opcode 0x13; a shift's `w[31:25]` must be the row's `funct7` (R177). -/
def decodeOpImm (w : Word) : Option Instr :=
  match funct3Of w with
  | 0#3 => some (.addi (rdOf w) (rs1Of w) (immIOf w))
  | 2#3 => some (.slti (rdOf w) (rs1Of w) (immIOf w))
  | 3#3 => some (.sltiu (rdOf w) (rs1Of w) (immIOf w))
  | 4#3 => some (.xori (rdOf w) (rs1Of w) (immIOf w))
  | 6#3 => some (.ori (rdOf w) (rs1Of w) (immIOf w))
  | 7#3 => some (.andi (rdOf w) (rs1Of w) (immIOf w))
  | 1#3 =>
    match funct7Of w with
    | 0x00#7 => some (.slli (rdOf w) (rs1Of w) (shamtOf w))
    | _ => none
  | _ =>
    match funct7Of w with
    | 0x00#7 => some (.srli (rdOf w) (rs1Of w) (shamtOf w))
    | 0x20#7 => some (.srai (rdOf w) (rs1Of w) (shamtOf w))
    | _ => none

/-- OP with `funct7` 0000000. -/
def decodeOpBase (w : Word) : Instr :=
  match funct3Of w with
  | 0#3 => .add (rdOf w) (rs1Of w) (rs2Of w)
  | 1#3 => .sll (rdOf w) (rs1Of w) (rs2Of w)
  | 2#3 => .slt (rdOf w) (rs1Of w) (rs2Of w)
  | 3#3 => .sltu (rdOf w) (rs1Of w) (rs2Of w)
  | 4#3 => .xor (rdOf w) (rs1Of w) (rs2Of w)
  | 5#3 => .srl (rdOf w) (rs1Of w) (rs2Of w)
  | 6#3 => .or (rdOf w) (rs1Of w) (rs2Of w)
  | _ => .and (rdOf w) (rs1Of w) (rs2Of w)

/-- OP with `funct7` 0000001: the M extension (44_m_extension.md). -/
def decodeOpMul (w : Word) : Instr :=
  match funct3Of w with
  | 0#3 => .mul (rdOf w) (rs1Of w) (rs2Of w)
  | 1#3 => .mulh (rdOf w) (rs1Of w) (rs2Of w)
  | 2#3 => .mulhsu (rdOf w) (rs1Of w) (rs2Of w)
  | 3#3 => .mulhu (rdOf w) (rs1Of w) (rs2Of w)
  | 4#3 => .div (rdOf w) (rs1Of w) (rs2Of w)
  | 5#3 => .divu (rdOf w) (rs1Of w) (rs2Of w)
  | 6#3 => .rem (rdOf w) (rs1Of w) (rs2Of w)
  | _ => .remu (rdOf w) (rs1Of w) (rs2Of w)

/-- OP, opcode 0x33, by `funct7`. -/
def decodeOp (w : Word) : Option Instr :=
  match funct7Of w with
  | 0x00#7 => some (decodeOpBase w)
  | 0x01#7 => some (decodeOpMul w)
  | 0x20#7 =>
    match funct3Of w with
    | 0#3 => some (.sub (rdOf w) (rs1Of w) (rs2Of w))
    | 5#3 => some (.sra (rdOf w) (rs1Of w) (rs2Of w))
    | _ => none
  | _ => none

/-- BRANCH, opcode 0x63. -/
def decodeBranch (w : Word) : Option Instr :=
  match funct3Of w with
  | 0#3 => some (.beq (rs1Of w) (rs2Of w) (immBOf w))
  | 1#3 => some (.bne (rs1Of w) (rs2Of w) (immBOf w))
  | 4#3 => some (.blt (rs1Of w) (rs2Of w) (immBOf w))
  | 5#3 => some (.bge (rs1Of w) (rs2Of w) (immBOf w))
  | 6#3 => some (.bltu (rs1Of w) (rs2Of w) (immBOf w))
  | 7#3 => some (.bgeu (rs1Of w) (rs2Of w) (immBOf w))
  | _ => none

/-- JALR, opcode 0x67: `funct3` must be 000. -/
def decodeJalr (w : Word) : Option Instr :=
  match funct3Of w with
  | 0#3 => some (.jalr (rdOf w) (rs1Of w) (immIOf w))
  | _ => none

/-- AMO with `funct3` 010, by `funct5` (45_a_extension.md R300); LR.W needs a zero `rs2` field (R301). -/
def decodeAmoWord (w : Word) : Option Instr :=
  match funct5Of w with
  | 0x02#5 => if rs2Of w = 0 then some (.lrW (aqOf w) (rlOf w) (rdOf w) (rs1Of w)) else none
  | 0x03#5 => some (.scW (aqOf w) (rlOf w) (rdOf w) (rs1Of w) (rs2Of w))
  | 0x01#5 => some (.amoswapW (aqOf w) (rlOf w) (rdOf w) (rs1Of w) (rs2Of w))
  | 0x00#5 => some (.amoaddW (aqOf w) (rlOf w) (rdOf w) (rs1Of w) (rs2Of w))
  | 0x04#5 => some (.amoxorW (aqOf w) (rlOf w) (rdOf w) (rs1Of w) (rs2Of w))
  | 0x0C#5 => some (.amoandW (aqOf w) (rlOf w) (rdOf w) (rs1Of w) (rs2Of w))
  | 0x08#5 => some (.amoorW (aqOf w) (rlOf w) (rdOf w) (rs1Of w) (rs2Of w))
  | 0x10#5 => some (.amominW (aqOf w) (rlOf w) (rdOf w) (rs1Of w) (rs2Of w))
  | 0x14#5 => some (.amomaxW (aqOf w) (rlOf w) (rdOf w) (rs1Of w) (rs2Of w))
  | 0x18#5 => some (.amominuW (aqOf w) (rlOf w) (rdOf w) (rs1Of w) (rs2Of w))
  | 0x1C#5 => some (.amomaxuW (aqOf w) (rlOf w) (rdOf w) (rs1Of w) (rs2Of w))
  | _ => none

/-- AMO, opcode 0x2F: only the word forms exist. -/
def decodeAmo (w : Word) : Option Instr :=
  match funct3Of w with
  | 2#3 => decodeAmoWord w
  | _ => none

/-- SYSTEM with `funct3` 000: five whole words, and SFENCE.VMA (47_system_privileged.md R356). -/
def decodePriv (w : Word) : Option Instr :=
  if w = 0x00000073#32 then some .ecall
  else if w = 0x00100073#32 then some .ebreak
  else if w = 0x30200073#32 then some .mret
  else if w = 0x10200073#32 then some .sret
  else if w = 0x10500073#32 then some .wfi
  else if funct7Of w = 0x09#7 ∧ rdOf w = 0 then some (.sfenceVma (rs1Of w) (rs2Of w))
  else none

/-- SYSTEM, opcode 0x73. -/
def decodeSystem (w : Word) : Option Instr :=
  match funct3Of w with
  | 0#3 => decodePriv w
  | 1#3 => some (.csrrw (rdOf w) (rs1Of w) (immIOf w))
  | 2#3 => some (.csrrs (rdOf w) (rs1Of w) (immIOf w))
  | 3#3 => some (.csrrc (rdOf w) (rs1Of w) (immIOf w))
  | 5#3 => some (.csrrwi (rdOf w) (uimmOf w) (immIOf w))
  | 6#3 => some (.csrrsi (rdOf w) (uimmOf w) (immIOf w))
  | 7#3 => some (.csrrci (rdOf w) (uimmOf w) (immIOf w))
  | _ => none

/-- Decode a 32-bit word by its major opcode (R174); every other opcode is illegal (R177). -/
def decodeWord (w : Word) : Option Instr :=
  match opcodeOf w with
  | 0x37#7 => some (.lui (rdOf w) (immUOf w))
  | 0x17#7 => some (.auipc (rdOf w) (immUOf w))
  | 0x6F#7 => some (.jal (rdOf w) (immJOf w))
  | 0x67#7 => decodeJalr w
  | 0x63#7 => decodeBranch w
  | 0x03#7 => decodeLoad w
  | 0x23#7 => decodeStore w
  | 0x13#7 => decodeOpImm w
  | 0x33#7 => decodeOp w
  | 0x0F#7 => decodeMiscMem w
  | 0x2F#7 => decodeAmo w
  | 0x73#7 => decodeSystem w
  | _ => none

/-! ## Fields of a 16-bit word (R180; the immediates are those of each rule of 48_compressed.md) -/

/-- `c[15:13]`. -/
def cFunct3Of (c : Half) : BitVec 3 := c.extractLsb' 13 3
/-- `c[11:7]`, a full register number. -/
def cRdOf (c : Half) : Reg := (c.extractLsb' 7 5).toFin
/-- `c[6:2]`, a full register number. -/
def cRs2Of (c : Half) : Reg := (c.extractLsb' 2 5).toFin
/-- `c[9:7]`, a 3-bit register field. -/
def cHighOf (c : Half) : CReg := (c.extractLsb' 7 3).toFin
/-- `c[4:2]`, a 3-bit register field. -/
def cLowOf (c : Half) : CReg := (c.extractLsb' 2 3).toFin
/-- The 6-bit immediate of the CI format: `{c[12], c[6:2]}`. -/
def cImm6Of (c : Half) : BitVec 6 := c.extractLsb' 12 1 ++ c.extractLsb' 2 5
/-- `shamt`, `c[6:2]`. -/
def cShamtOf (c : Half) : BitVec 5 := c.extractLsb' 2 5
/-- C.ADDI4SPN (R372): `nzuimm[9:6] = c[10:7]`, `[5:4] = c[12:11]`, `[3] = c[5]`, `[2] = c[6]`. -/
def cUimm4spnOf (c : Half) : BitVec 10 :=
  c.extractLsb' 7 4 ++ c.extractLsb' 11 2 ++ c.extractLsb' 5 1 ++ c.extractLsb' 6 1 ++ 0#2
/-- C.LW, C.SW (R373): `uimm[6] = c[5]`, `[5:3] = c[12:10]`, `[2] = c[6]`. -/
def cUimmLwOf (c : Half) : BitVec 7 := c.extractLsb' 5 1 ++ c.extractLsb' 10 3 ++ c.extractLsb' 6 1 ++ 0#2
/-- C.JAL, C.J (R377): `imm[11] = c[12]`, `[10] = c[8]`, `[9:8] = c[10:9]`, `[7] = c[6]`, `[6] = c[7]`,
`[5] = c[2]`, `[4] = c[11]`, `[3:1] = c[5:3]`. -/
def cOffJOf (c : Half) : BitVec 12 :=
  c.extractLsb' 12 1 ++ c.extractLsb' 8 1 ++ c.extractLsb' 9 2 ++ c.extractLsb' 6 1 ++ c.extractLsb' 7 1 ++
    c.extractLsb' 2 1 ++ c.extractLsb' 11 1 ++ c.extractLsb' 3 3 ++ 0#1
/-- C.ADDI16SP (R379): `nzimm[9] = c[12]`, `[8:7] = c[4:3]`, `[6] = c[5]`, `[5] = c[2]`, `[4] = c[6]`. -/
def cImm16spOf (c : Half) : BitVec 10 :=
  c.extractLsb' 12 1 ++ c.extractLsb' 3 2 ++ c.extractLsb' 5 1 ++ c.extractLsb' 2 1 ++ c.extractLsb' 6 1 ++ 0#4
/-- C.BEQZ, C.BNEZ (R389): `imm[8] = c[12]`, `[7:6] = c[6:5]`, `[5] = c[2]`, `[4:3] = c[11:10]`, `[2:1] = c[4:3]`. -/
def cOffBOf (c : Half) : BitVec 9 :=
  c.extractLsb' 12 1 ++ c.extractLsb' 5 2 ++ c.extractLsb' 2 1 ++ c.extractLsb' 10 2 ++ c.extractLsb' 3 2 ++ 0#1
/-- C.LWSP (R392): `uimm[7:6] = c[3:2]`, `[5] = c[12]`, `[4:2] = c[6:4]`. -/
def cUimmLwspOf (c : Half) : BitVec 8 := c.extractLsb' 2 2 ++ c.extractLsb' 12 1 ++ c.extractLsb' 4 3 ++ 0#2
/-- C.SWSP (R398): `uimm[7:6] = c[8:7]`, `[5:2] = c[12:9]`. -/
def cUimmSwspOf (c : Half) : BitVec 8 := c.extractLsb' 7 2 ++ c.extractLsb' 9 4 ++ 0#2

/-! ## Decoding a 16-bit word (R182, R183) -/

/-- Quadrant 0. -/
def decodeQuadrant0 (c : Half) : Option Instr :=
  match cFunct3Of c with
  | 0#3 => if cUimm4spnOf c = 0 then none else some (.cAddi4spn (cLowOf c) (cUimm4spnOf c))
  | 2#3 => some (.cLw (cLowOf c) (cHighOf c) (cUimmLwOf c))
  | 6#3 => some (.cSw (cLowOf c) (cHighOf c) (cUimmLwOf c))
  | _ => none

/-- Quadrant 1, `funct3` 100, `c[11:10]` 11: `c[12]` must be 0. -/
def decodeCArith (c : Half) : Option Instr :=
  if c.getLsbD 12 then none
  else match c.extractLsb' 5 2 with
    | 0#2 => some (.cSub (cHighOf c) (cLowOf c))
    | 1#2 => some (.cXor (cHighOf c) (cLowOf c))
    | 2#2 => some (.cOr (cHighOf c) (cLowOf c))
    | _ => some (.cAnd (cHighOf c) (cLowOf c))

/-- Quadrant 1, `funct3` 100, by `c[11:10]`. -/
def decodeCMisc (c : Half) : Option Instr :=
  match c.extractLsb' 10 2 with
  | 0#2 => if c.getLsbD 12 then none else some (.cSrli (cHighOf c) (cShamtOf c))
  | 1#2 => if c.getLsbD 12 then none else some (.cSrai (cHighOf c) (cShamtOf c))
  | 2#2 => some (.cAndi (cHighOf c) (cImm6Of c))
  | _ => decodeCArith c

/-- Quadrant 1. -/
def decodeQuadrant1 (c : Half) : Option Instr :=
  match cFunct3Of c with
  | 0#3 => if cRdOf c = 0 then some (.cNop (cImm6Of c)) else some (.cAddi (cRdOf c) (cImm6Of c))
  | 1#3 => some (.cJal (cOffJOf c))
  | 2#3 => some (.cLi (cRdOf c) (cImm6Of c))
  | 3#3 =>
    if cImm6Of c = 0 then none
    else if cRdOf c = 2 then some (.cAddi16sp (cImm16spOf c)) else some (.cLui (cRdOf c) (cImm6Of c))
  | 4#3 => decodeCMisc c
  | 5#3 => some (.cJ (cOffJOf c))
  | 6#3 => some (.cBeqz (cHighOf c) (cOffBOf c))
  | _ => some (.cBnez (cHighOf c) (cOffBOf c))

/-- Quadrant 2, `funct3` 100, by `c[12]`, `c[11:7]`, `c[6:2]`. -/
def decodeCJump (c : Half) : Option Instr :=
  if c.getLsbD 12 then
    if cRs2Of c = 0 then
      if cRdOf c = 0 then some .cEbreak else some (.cJalr (cRdOf c))
    else some (.cAdd (cRdOf c) (cRs2Of c))
  else
    if cRs2Of c = 0 then
      if cRdOf c = 0 then none else some (.cJr (cRdOf c))
    else some (.cMv (cRdOf c) (cRs2Of c))

/-- Quadrant 2. -/
def decodeQuadrant2 (c : Half) : Option Instr :=
  match cFunct3Of c with
  | 0#3 => if c.getLsbD 12 then none else some (.cSlli (cRdOf c) (cShamtOf c))
  | 2#3 => if cRdOf c = 0 then none else some (.cLwsp (cRdOf c) (cUimmLwspOf c))
  | 4#3 => decodeCJump c
  | 6#3 => some (.cSwsp (cRs2Of c) (cUimmSwspOf c))
  | _ => none

/-- Decode a 16-bit word by its quadrant `c[1:0]`; 11 is no 16-bit instruction (R170). -/
def decodeHalf (c : Half) : Option Instr :=
  match c.extractLsb' 0 2 with
  | 0#2 => decodeQuadrant0 c
  | 1#2 => decodeQuadrant1 c
  | 2#2 => decodeQuadrant2 c
  | _ => none

/-- Decode what a fetch read. -/
def decodeRaw : RawInstr → Except DecodeError Instr
  | .half c => match decodeHalf c with
    | some i => .ok i
    | none => .error (.illegalHalf c)
  | .full w => match decodeWord w with
    | some i => .ok i
    | none => .error (.illegalWord w)

/-- Does the halfword at an instruction's address start a 32-bit instruction (R170)? -/
def isLong (lo : Half) : Bool := lo.extractLsb' 0 2 == 3#2

/-- Decode the instruction at the head of a list of bytes, lowest address first, little-endian (20_memory.md
R104, R123); the rest of the list is returned beside it. -/
def decodeBytes : List Byte → Except DecodeError (Instr × List Byte)
  | b0 :: b1 :: rest =>
    if isLong (b1 ++ b0) then
      match rest with
      | b2 :: b3 :: rest' =>
        match decodeRaw (.full (b3 ++ b2 ++ (b1 ++ b0))) with
        | .ok i => .ok (i, rest')
        | .error e => .error e
      | _ => .error .truncated
    else
      match decodeRaw (.half (b1 ++ b0)) with
      | .ok i => .ok (i, rest)
      | .error e => .error e
  | _ => .error .truncated

/-- The instruction the decoder reads from an opcode-table word (bit 0 is the low bit of the first halfword):
the word's four bytes are laid out as memory stores them. -/
def decodeTableWord (nbits w : Nat) : Option Instr :=
  let v : Word := BitVec.ofNat 32 (w % 2 ^ nbits)
  match decodeBytes [v.extractLsb' 0 8, v.extractLsb' 8 8, v.extractLsb' 16 8, v.extractLsb' 24 8] with
  | .ok (i, _) => some i
  | .error _ => none

/-! ## The encoder (R171, R172, R175, R180, R182) -/

/-- The 5 bits of a register number. -/
def Reg.bits (r : Reg) : BitVec 5 := BitVec.ofFin r
/-- The 3 bits of a compressed register field. -/
def CReg.bits (r : CReg) : BitVec 3 := BitVec.ofFin r

/-- R format. -/
def encR (f7 : BitVec 7) (rs2 rs1 : Reg) (f3 : BitVec 3) (rd : Reg) (op : BitVec 7) : Word :=
  f7 ++ Reg.bits rs2 ++ Reg.bits rs1 ++ f3 ++ Reg.bits rd ++ op
/-- R format with `funct7` split into `funct5`, `aq`, `rl`. -/
def encAmo (f5 : BitVec 5) (aq rl : Bool) (rs2 rs1 rd : Reg) : Word :=
  f5 ++ BitVec.ofBool aq ++ BitVec.ofBool rl ++ Reg.bits rs2 ++ Reg.bits rs1 ++ 2#3 ++ Reg.bits rd ++ 0x2F#7
/-- I format. -/
def encI (imm : BitVec 12) (rs1 : Reg) (f3 : BitVec 3) (rd : Reg) (op : BitVec 7) : Word :=
  imm ++ Reg.bits rs1 ++ f3 ++ Reg.bits rd ++ op
/-- I format with a shift amount. -/
def encShift (f7 : BitVec 7) (shamt : BitVec 5) (rs1 : Reg) (f3 : BitVec 3) (rd : Reg) : Word :=
  f7 ++ shamt ++ Reg.bits rs1 ++ f3 ++ Reg.bits rd ++ 0x13#7
/-- I format with a 5-bit immediate in the place of `rs1`. -/
def encCsrI (csr : BitVec 12) (uimm : BitVec 5) (f3 : BitVec 3) (rd : Reg) : Word :=
  csr ++ uimm ++ f3 ++ Reg.bits rd ++ 0x73#7
/-- S format. -/
def encS (imm : BitVec 12) (rs2 rs1 : Reg) (f3 : BitVec 3) : Word :=
  imm.extractLsb' 5 7 ++ Reg.bits rs2 ++ Reg.bits rs1 ++ f3 ++ imm.extractLsb' 0 5 ++ 0x23#7
/-- B format. -/
def encB (off : BitVec 13) (rs2 rs1 : Reg) (f3 : BitVec 3) : Word :=
  off.extractLsb' 12 1 ++ off.extractLsb' 5 6 ++ Reg.bits rs2 ++ Reg.bits rs1 ++ f3 ++ off.extractLsb' 1 4 ++
    off.extractLsb' 11 1 ++ 0x63#7
/-- U format. -/
def encU (imm : BitVec 20) (rd : Reg) (op : BitVec 7) : Word := imm ++ Reg.bits rd ++ op
/-- J format. -/
def encJ (off : BitVec 21) (rd : Reg) : Word :=
  off.extractLsb' 20 1 ++ off.extractLsb' 1 10 ++ off.extractLsb' 11 1 ++ off.extractLsb' 12 8 ++ Reg.bits rd ++
    0x6F#7

/-- CI format with the 6-bit immediate `{c[12], c[6:2]}`. -/
def encCI (f3 : BitVec 3) (imm : BitVec 6) (rd : Reg) (op : BitVec 2) : Half :=
  f3 ++ imm.extractLsb' 5 1 ++ Reg.bits rd ++ imm.extractLsb' 0 5 ++ op
/-- CL and CS format. -/
def encCL (f3 : BitVec 3) (uimm : BitVec 7) (high low : CReg) : Half :=
  f3 ++ uimm.extractLsb' 3 3 ++ CReg.bits high ++ uimm.extractLsb' 2 1 ++ uimm.extractLsb' 6 1 ++ CReg.bits low ++ 0#2
/-- CB format of the shifts: `c[12]` is 0. -/
def encCShift (f2 : BitVec 2) (shamt : BitVec 5) (rd : CReg) : Half :=
  4#3 ++ 0#1 ++ f2 ++ CReg.bits rd ++ shamt ++ 1#2
/-- CA format. -/
def encCA (f2 : BitVec 2) (rd rs2 : CReg) : Half :=
  0x23#6 ++ CReg.bits rd ++ f2 ++ CReg.bits rs2 ++ 1#2
/-- CJ format. -/
def encCJ (f3 : BitVec 3) (off : BitVec 12) : Half :=
  f3 ++ off.extractLsb' 11 1 ++ off.extractLsb' 4 1 ++ off.extractLsb' 8 2 ++ off.extractLsb' 10 1 ++
    off.extractLsb' 6 1 ++ off.extractLsb' 7 1 ++ off.extractLsb' 1 3 ++ off.extractLsb' 5 1 ++ 1#2
/-- CB format of the branches. -/
def encCB (f3 : BitVec 3) (off : BitVec 9) (rs1 : CReg) : Half :=
  f3 ++ off.extractLsb' 8 1 ++ off.extractLsb' 3 2 ++ CReg.bits rs1 ++ off.extractLsb' 6 2 ++ off.extractLsb' 1 2 ++
    off.extractLsb' 5 1 ++ 1#2
/-- CR format. -/
def encCR (f4 : BitVec 4) (rd rs2 : Reg) : Half := f4 ++ Reg.bits rd ++ Reg.bits rs2 ++ 2#2

/-- The words of an instruction. -/
def encode : Instr → RawInstr
  | .lui rd imm => .full (encU imm rd 0x37#7)
  | .auipc rd imm => .full (encU imm rd 0x17#7)
  | .addi rd rs1 imm => .full (encI imm rs1 0#3 rd 0x13#7)
  | .slti rd rs1 imm => .full (encI imm rs1 2#3 rd 0x13#7)
  | .sltiu rd rs1 imm => .full (encI imm rs1 3#3 rd 0x13#7)
  | .xori rd rs1 imm => .full (encI imm rs1 4#3 rd 0x13#7)
  | .ori rd rs1 imm => .full (encI imm rs1 6#3 rd 0x13#7)
  | .andi rd rs1 imm => .full (encI imm rs1 7#3 rd 0x13#7)
  | .slli rd rs1 shamt => .full (encShift 0x00#7 shamt rs1 1#3 rd)
  | .srli rd rs1 shamt => .full (encShift 0x00#7 shamt rs1 5#3 rd)
  | .srai rd rs1 shamt => .full (encShift 0x20#7 shamt rs1 5#3 rd)
  | .add rd rs1 rs2 => .full (encR 0x00#7 rs2 rs1 0#3 rd 0x33#7)
  | .sub rd rs1 rs2 => .full (encR 0x20#7 rs2 rs1 0#3 rd 0x33#7)
  | .sll rd rs1 rs2 => .full (encR 0x00#7 rs2 rs1 1#3 rd 0x33#7)
  | .slt rd rs1 rs2 => .full (encR 0x00#7 rs2 rs1 2#3 rd 0x33#7)
  | .sltu rd rs1 rs2 => .full (encR 0x00#7 rs2 rs1 3#3 rd 0x33#7)
  | .xor rd rs1 rs2 => .full (encR 0x00#7 rs2 rs1 4#3 rd 0x33#7)
  | .srl rd rs1 rs2 => .full (encR 0x00#7 rs2 rs1 5#3 rd 0x33#7)
  | .sra rd rs1 rs2 => .full (encR 0x20#7 rs2 rs1 5#3 rd 0x33#7)
  | .or rd rs1 rs2 => .full (encR 0x00#7 rs2 rs1 6#3 rd 0x33#7)
  | .and rd rs1 rs2 => .full (encR 0x00#7 rs2 rs1 7#3 rd 0x33#7)
  | .jal rd off => .full (encJ off rd)
  | .jalr rd rs1 imm => .full (encI imm rs1 0#3 rd 0x67#7)
  | .beq rs1 rs2 off => .full (encB off rs2 rs1 0#3)
  | .bne rs1 rs2 off => .full (encB off rs2 rs1 1#3)
  | .blt rs1 rs2 off => .full (encB off rs2 rs1 4#3)
  | .bge rs1 rs2 off => .full (encB off rs2 rs1 5#3)
  | .bltu rs1 rs2 off => .full (encB off rs2 rs1 6#3)
  | .bgeu rs1 rs2 off => .full (encB off rs2 rs1 7#3)
  | .lb rd rs1 imm => .full (encI imm rs1 0#3 rd 0x03#7)
  | .lh rd rs1 imm => .full (encI imm rs1 1#3 rd 0x03#7)
  | .lw rd rs1 imm => .full (encI imm rs1 2#3 rd 0x03#7)
  | .lbu rd rs1 imm => .full (encI imm rs1 4#3 rd 0x03#7)
  | .lhu rd rs1 imm => .full (encI imm rs1 5#3 rd 0x03#7)
  | .sb rs2 rs1 imm => .full (encS imm rs2 rs1 0#3)
  | .sh rs2 rs1 imm => .full (encS imm rs2 rs1 1#3)
  | .sw rs2 rs1 imm => .full (encS imm rs2 rs1 2#3)
  | .fence fm pred succ rs1 rd => .full (encI (fm ++ pred ++ succ) rs1 0#3 rd 0x0F#7)
  | .fenceI imm rs1 rd => .full (encI imm rs1 1#3 rd 0x0F#7)
  | .mul rd rs1 rs2 => .full (encR 0x01#7 rs2 rs1 0#3 rd 0x33#7)
  | .mulh rd rs1 rs2 => .full (encR 0x01#7 rs2 rs1 1#3 rd 0x33#7)
  | .mulhsu rd rs1 rs2 => .full (encR 0x01#7 rs2 rs1 2#3 rd 0x33#7)
  | .mulhu rd rs1 rs2 => .full (encR 0x01#7 rs2 rs1 3#3 rd 0x33#7)
  | .div rd rs1 rs2 => .full (encR 0x01#7 rs2 rs1 4#3 rd 0x33#7)
  | .divu rd rs1 rs2 => .full (encR 0x01#7 rs2 rs1 5#3 rd 0x33#7)
  | .rem rd rs1 rs2 => .full (encR 0x01#7 rs2 rs1 6#3 rd 0x33#7)
  | .remu rd rs1 rs2 => .full (encR 0x01#7 rs2 rs1 7#3 rd 0x33#7)
  | .lrW aq rl rd rs1 => .full (encAmo 0x02#5 aq rl 0 rs1 rd)
  | .scW aq rl rd rs1 rs2 => .full (encAmo 0x03#5 aq rl rs2 rs1 rd)
  | .amoswapW aq rl rd rs1 rs2 => .full (encAmo 0x01#5 aq rl rs2 rs1 rd)
  | .amoaddW aq rl rd rs1 rs2 => .full (encAmo 0x00#5 aq rl rs2 rs1 rd)
  | .amoxorW aq rl rd rs1 rs2 => .full (encAmo 0x04#5 aq rl rs2 rs1 rd)
  | .amoandW aq rl rd rs1 rs2 => .full (encAmo 0x0C#5 aq rl rs2 rs1 rd)
  | .amoorW aq rl rd rs1 rs2 => .full (encAmo 0x08#5 aq rl rs2 rs1 rd)
  | .amominW aq rl rd rs1 rs2 => .full (encAmo 0x10#5 aq rl rs2 rs1 rd)
  | .amomaxW aq rl rd rs1 rs2 => .full (encAmo 0x14#5 aq rl rs2 rs1 rd)
  | .amominuW aq rl rd rs1 rs2 => .full (encAmo 0x18#5 aq rl rs2 rs1 rd)
  | .amomaxuW aq rl rd rs1 rs2 => .full (encAmo 0x1C#5 aq rl rs2 rs1 rd)
  | .csrrw rd rs1 csr => .full (encI csr rs1 1#3 rd 0x73#7)
  | .csrrs rd rs1 csr => .full (encI csr rs1 2#3 rd 0x73#7)
  | .csrrc rd rs1 csr => .full (encI csr rs1 3#3 rd 0x73#7)
  | .csrrwi rd uimm csr => .full (encCsrI csr uimm 5#3 rd)
  | .csrrsi rd uimm csr => .full (encCsrI csr uimm 6#3 rd)
  | .csrrci rd uimm csr => .full (encCsrI csr uimm 7#3 rd)
  | .ecall => .full 0x00000073#32
  | .ebreak => .full 0x00100073#32
  | .mret => .full 0x30200073#32
  | .sret => .full 0x10200073#32
  | .wfi => .full 0x10500073#32
  | .sfenceVma rs1 rs2 => .full (encR 0x09#7 rs2 rs1 0#3 0 0x73#7)
  | .cAddi4spn rd uimm => .half (0#3 ++ uimm.extractLsb' 4 2 ++ uimm.extractLsb' 6 4 ++ uimm.extractLsb' 2 1 ++
      uimm.extractLsb' 3 1 ++ CReg.bits rd ++ 0#2)
  | .cLw rd rs1 uimm => .half (encCL 2#3 uimm rs1 rd)
  | .cSw rs2 rs1 uimm => .half (encCL 6#3 uimm rs1 rs2)
  | .cNop imm => .half (encCI 0#3 imm 0 1#2)
  | .cAddi rd imm => .half (encCI 0#3 imm rd 1#2)
  | .cJal off => .half (encCJ 1#3 off)
  | .cLi rd imm => .half (encCI 2#3 imm rd 1#2)
  | .cAddi16sp imm => .half (3#3 ++ imm.extractLsb' 9 1 ++ 2#5 ++ imm.extractLsb' 4 1 ++ imm.extractLsb' 6 1 ++
      imm.extractLsb' 7 2 ++ imm.extractLsb' 5 1 ++ 1#2)
  | .cLui rd imm => .half (encCI 3#3 imm rd 1#2)
  | .cSrli rd shamt => .half (encCShift 0#2 shamt rd)
  | .cSrai rd shamt => .half (encCShift 1#2 shamt rd)
  | .cAndi rd imm => .half (4#3 ++ imm.extractLsb' 5 1 ++ 2#2 ++ CReg.bits rd ++ imm.extractLsb' 0 5 ++ 1#2)
  | .cSub rd rs2 => .half (encCA 0#2 rd rs2)
  | .cXor rd rs2 => .half (encCA 1#2 rd rs2)
  | .cOr rd rs2 => .half (encCA 2#2 rd rs2)
  | .cAnd rd rs2 => .half (encCA 3#2 rd rs2)
  | .cJ off => .half (encCJ 5#3 off)
  | .cBeqz rs1 off => .half (encCB 6#3 off rs1)
  | .cBnez rs1 off => .half (encCB 7#3 off rs1)
  | .cSlli rd shamt => .half (0#3 ++ 0#1 ++ Reg.bits rd ++ shamt ++ 2#2)
  | .cLwsp rd uimm => .half (2#3 ++ uimm.extractLsb' 5 1 ++ Reg.bits rd ++ uimm.extractLsb' 2 3 ++
      uimm.extractLsb' 6 2 ++ 2#2)
  | .cJr rs1 => .half (encCR 8#4 rs1 0)
  | .cMv rd rs2 => .half (encCR 8#4 rd rs2)
  | .cEbreak => .half (encCR 9#4 0 0)
  | .cJalr rs1 => .half (encCR 9#4 rs1 0)
  | .cAdd rd rs2 => .half (encCR 9#4 rd rs2)
  | .cSwsp rs2 uimm => .half (6#3 ++ uimm.extractLsb' 2 4 ++ uimm.extractLsb' 6 2 ++ Reg.bits rs2 ++ 2#2)

/-- The instruction word as a trap value: a 16-bit word is zero-extended (60_exceptions.md R424). -/
def RawInstr.toWord : RawInstr → Word
  | .half c => c.zeroExtend 32
  | .full w => w

/-- The number of bytes of an instruction (R170). -/
def RawInstr.len : RawInstr → Nat
  | .half _ => 2
  | .full _ => 4

/-- The bytes of an instruction as memory holds them, lowest address first (20_memory.md R104). -/
def encodeBytes (i : Instr) : List Byte :=
  match encode i with
  | .half c => [c.extractLsb' 0 8, c.extractLsb' 8 8]
  | .full w => [w.extractLsb' 0 8, w.extractLsb' 8 8, w.extractLsb' 16 8, w.extractLsb' 24 8]

/-! ## The rows of the opcode table (R175, R182): `match` and `mask`, for the statements about the encodings -/

/-- The `match` of the instruction's row; a 16-bit row's in the low half. -/
def Instr.rowMatch : Instr → Word
  | .lui _ _ => 0x00000037#32
  | .auipc _ _ => 0x00000017#32
  | .addi _ _ _ => 0x00000013#32
  | .slti _ _ _ => 0x00002013#32
  | .sltiu _ _ _ => 0x00003013#32
  | .xori _ _ _ => 0x00004013#32
  | .ori _ _ _ => 0x00006013#32
  | .andi _ _ _ => 0x00007013#32
  | .slli _ _ _ => 0x00001013#32
  | .srli _ _ _ => 0x00005013#32
  | .srai _ _ _ => 0x40005013#32
  | .add _ _ _ => 0x00000033#32
  | .sub _ _ _ => 0x40000033#32
  | .sll _ _ _ => 0x00001033#32
  | .slt _ _ _ => 0x00002033#32
  | .sltu _ _ _ => 0x00003033#32
  | .xor _ _ _ => 0x00004033#32
  | .srl _ _ _ => 0x00005033#32
  | .sra _ _ _ => 0x40005033#32
  | .or _ _ _ => 0x00006033#32
  | .and _ _ _ => 0x00007033#32
  | .jal _ _ => 0x0000006F#32
  | .jalr _ _ _ => 0x00000067#32
  | .beq _ _ _ => 0x00000063#32
  | .bne _ _ _ => 0x00001063#32
  | .blt _ _ _ => 0x00004063#32
  | .bge _ _ _ => 0x00005063#32
  | .bltu _ _ _ => 0x00006063#32
  | .bgeu _ _ _ => 0x00007063#32
  | .lb _ _ _ => 0x00000003#32
  | .lh _ _ _ => 0x00001003#32
  | .lw _ _ _ => 0x00002003#32
  | .lbu _ _ _ => 0x00004003#32
  | .lhu _ _ _ => 0x00005003#32
  | .sb _ _ _ => 0x00000023#32
  | .sh _ _ _ => 0x00001023#32
  | .sw _ _ _ => 0x00002023#32
  | .fence _ _ _ _ _ => 0x0000000F#32
  | .fenceI _ _ _ => 0x0000100F#32
  | .mul _ _ _ => 0x02000033#32
  | .mulh _ _ _ => 0x02001033#32
  | .mulhsu _ _ _ => 0x02002033#32
  | .mulhu _ _ _ => 0x02003033#32
  | .div _ _ _ => 0x02004033#32
  | .divu _ _ _ => 0x02005033#32
  | .rem _ _ _ => 0x02006033#32
  | .remu _ _ _ => 0x02007033#32
  | .lrW _ _ _ _ => 0x1000202F#32
  | .scW _ _ _ _ _ => 0x1800202F#32
  | .amoswapW _ _ _ _ _ => 0x0800202F#32
  | .amoaddW _ _ _ _ _ => 0x0000202F#32
  | .amoxorW _ _ _ _ _ => 0x2000202F#32
  | .amoandW _ _ _ _ _ => 0x6000202F#32
  | .amoorW _ _ _ _ _ => 0x4000202F#32
  | .amominW _ _ _ _ _ => 0x8000202F#32
  | .amomaxW _ _ _ _ _ => 0xA000202F#32
  | .amominuW _ _ _ _ _ => 0xC000202F#32
  | .amomaxuW _ _ _ _ _ => 0xE000202F#32
  | .csrrw _ _ _ => 0x00001073#32
  | .csrrs _ _ _ => 0x00002073#32
  | .csrrc _ _ _ => 0x00003073#32
  | .csrrwi _ _ _ => 0x00005073#32
  | .csrrsi _ _ _ => 0x00006073#32
  | .csrrci _ _ _ => 0x00007073#32
  | .ecall => 0x00000073#32
  | .ebreak => 0x00100073#32
  | .mret => 0x30200073#32
  | .sret => 0x10200073#32
  | .wfi => 0x10500073#32
  | .sfenceVma _ _ => 0x12000073#32
  | .cAddi4spn _ _ => 0x00000000#32
  | .cLw _ _ _ => 0x00004000#32
  | .cSw _ _ _ => 0x0000C000#32
  | .cNop _ => 0x00000001#32
  | .cAddi _ _ => 0x00000001#32
  | .cJal _ => 0x00002001#32
  | .cLi _ _ => 0x00004001#32
  | .cAddi16sp _ => 0x00006101#32
  | .cLui _ _ => 0x00006001#32
  | .cSrli _ _ => 0x00008001#32
  | .cSrai _ _ => 0x00008401#32
  | .cAndi _ _ => 0x00008801#32
  | .cSub _ _ => 0x00008C01#32
  | .cXor _ _ => 0x00008C21#32
  | .cOr _ _ => 0x00008C41#32
  | .cAnd _ _ => 0x00008C61#32
  | .cJ _ => 0x0000A001#32
  | .cBeqz _ _ => 0x0000C001#32
  | .cBnez _ _ => 0x0000E001#32
  | .cSlli _ _ => 0x00000002#32
  | .cLwsp _ _ => 0x00004002#32
  | .cJr _ => 0x00008002#32
  | .cMv _ _ => 0x00008002#32
  | .cEbreak => 0x00009002#32
  | .cJalr _ => 0x00009002#32
  | .cAdd _ _ => 0x00009002#32
  | .cSwsp _ _ => 0x0000C002#32

/-- The `mask` of the instruction's row. -/
def Instr.rowMask : Instr → Word
  | .lui _ _ => 0x0000007F#32
  | .auipc _ _ => 0x0000007F#32
  | .addi _ _ _ => 0x0000707F#32
  | .slti _ _ _ => 0x0000707F#32
  | .sltiu _ _ _ => 0x0000707F#32
  | .xori _ _ _ => 0x0000707F#32
  | .ori _ _ _ => 0x0000707F#32
  | .andi _ _ _ => 0x0000707F#32
  | .slli _ _ _ => 0xFE00707F#32
  | .srli _ _ _ => 0xFE00707F#32
  | .srai _ _ _ => 0xFE00707F#32
  | .add _ _ _ => 0xFE00707F#32
  | .sub _ _ _ => 0xFE00707F#32
  | .sll _ _ _ => 0xFE00707F#32
  | .slt _ _ _ => 0xFE00707F#32
  | .sltu _ _ _ => 0xFE00707F#32
  | .xor _ _ _ => 0xFE00707F#32
  | .srl _ _ _ => 0xFE00707F#32
  | .sra _ _ _ => 0xFE00707F#32
  | .or _ _ _ => 0xFE00707F#32
  | .and _ _ _ => 0xFE00707F#32
  | .jal _ _ => 0x0000007F#32
  | .jalr _ _ _ => 0x0000707F#32
  | .beq _ _ _ => 0x0000707F#32
  | .bne _ _ _ => 0x0000707F#32
  | .blt _ _ _ => 0x0000707F#32
  | .bge _ _ _ => 0x0000707F#32
  | .bltu _ _ _ => 0x0000707F#32
  | .bgeu _ _ _ => 0x0000707F#32
  | .lb _ _ _ => 0x0000707F#32
  | .lh _ _ _ => 0x0000707F#32
  | .lw _ _ _ => 0x0000707F#32
  | .lbu _ _ _ => 0x0000707F#32
  | .lhu _ _ _ => 0x0000707F#32
  | .sb _ _ _ => 0x0000707F#32
  | .sh _ _ _ => 0x0000707F#32
  | .sw _ _ _ => 0x0000707F#32
  | .fence _ _ _ _ _ => 0x0000707F#32
  | .fenceI _ _ _ => 0x0000707F#32
  | .mul _ _ _ => 0xFE00707F#32
  | .mulh _ _ _ => 0xFE00707F#32
  | .mulhsu _ _ _ => 0xFE00707F#32
  | .mulhu _ _ _ => 0xFE00707F#32
  | .div _ _ _ => 0xFE00707F#32
  | .divu _ _ _ => 0xFE00707F#32
  | .rem _ _ _ => 0xFE00707F#32
  | .remu _ _ _ => 0xFE00707F#32
  | .lrW _ _ _ _ => 0xF9F0707F#32
  | .scW _ _ _ _ _ => 0xF800707F#32
  | .amoswapW _ _ _ _ _ => 0xF800707F#32
  | .amoaddW _ _ _ _ _ => 0xF800707F#32
  | .amoxorW _ _ _ _ _ => 0xF800707F#32
  | .amoandW _ _ _ _ _ => 0xF800707F#32
  | .amoorW _ _ _ _ _ => 0xF800707F#32
  | .amominW _ _ _ _ _ => 0xF800707F#32
  | .amomaxW _ _ _ _ _ => 0xF800707F#32
  | .amominuW _ _ _ _ _ => 0xF800707F#32
  | .amomaxuW _ _ _ _ _ => 0xF800707F#32
  | .csrrw _ _ _ => 0x0000707F#32
  | .csrrs _ _ _ => 0x0000707F#32
  | .csrrc _ _ _ => 0x0000707F#32
  | .csrrwi _ _ _ => 0x0000707F#32
  | .csrrsi _ _ _ => 0x0000707F#32
  | .csrrci _ _ _ => 0x0000707F#32
  | .ecall => 0xFFFFFFFF#32
  | .ebreak => 0xFFFFFFFF#32
  | .mret => 0xFFFFFFFF#32
  | .sret => 0xFFFFFFFF#32
  | .wfi => 0xFFFFFFFF#32
  | .sfenceVma _ _ => 0xFE007FFF#32
  | .cAddi4spn _ _ => 0x0000E003#32
  | .cLw _ _ _ => 0x0000E003#32
  | .cSw _ _ _ => 0x0000E003#32
  | .cNop _ => 0x0000EF83#32
  | .cAddi _ _ => 0x0000E003#32
  | .cJal _ => 0x0000E003#32
  | .cLi _ _ => 0x0000E003#32
  | .cAddi16sp _ => 0x0000EF83#32
  | .cLui _ _ => 0x0000E003#32
  | .cSrli _ _ => 0x0000FC03#32
  | .cSrai _ _ => 0x0000FC03#32
  | .cAndi _ _ => 0x0000EC03#32
  | .cSub _ _ => 0x0000FC63#32
  | .cXor _ _ => 0x0000FC63#32
  | .cOr _ _ => 0x0000FC63#32
  | .cAnd _ _ => 0x0000FC63#32
  | .cJ _ => 0x0000E003#32
  | .cBeqz _ _ => 0x0000E003#32
  | .cBnez _ _ => 0x0000E003#32
  | .cSlli _ _ => 0x0000F003#32
  | .cLwsp _ _ => 0x0000E003#32
  | .cJr _ => 0x0000F07F#32
  | .cMv _ _ => 0x0000F003#32
  | .cEbreak => 0x0000FFFF#32
  | .cJalr _ => 0x0000F07F#32
  | .cAdd _ _ => 0x0000F003#32
  | .cSwsp _ _ => 0x0000E003#32

/-- The row is one of the 16-bit table (R182). -/
def Instr.isCompressed (i : Instr) : Bool := i.rowMatch.extractLsb' 0 2 != 3#2

end Sys2Proof
end

