-- ==== Sys2Proof/Config.lean ====
section
/-! DEFINITION. What one implementation of the core fixes (00_scope.md R7), and the free values: the answers
of the devices and of the real-time counter, which the spec leaves to the platform. -/

namespace Sys2Proof

/-- The sizes of a bus access, 1, 2 or 4 bytes (20_memory.md R100). -/
inductive AccessSize where
  | byte
  | half
  | word
  deriving DecidableEq, Repr, Inhabited

/-- What a range of the memory map is (20_memory.md R100): a plain array of bytes, or a device. -/
inductive RangeKind where
  | ram
  | mmio (device : Nat)
  deriving DecidableEq, Repr, Inhabited

/-- One range of the physical memory map. -/
structure Range where
  base : Nat
  size : Nat
  kind : RangeKind
  deriving DecidableEq, Repr, Inhabited

/-- The parameter `IRQ_ADMISSION` (60_exceptions.md R446). -/
inductive IrqAdmission where
  | document
  | privilegedSpec
  deriving DecidableEq, Repr, Inhabited

/-- The open parameters of the core (00_scope.md R7; 92_eei_decisions.md "Open parameters"): plain data, part of
State and never changed by a step, so that a statement about every state holds for every value of them. -/
structure Platform where
  bootPc : Word
  ranges : List Range
  irqAdmission : IrqAdmission
  deriving DecidableEq, Repr, Inhabited

/-- One interaction with the outside of the core: a device load, a device store, a call of `get_time`
(70_reset_and_hazards.md R481, R483). -/
inductive BusEvent where
  | load (device : Nat) (pa : Word) (size : AccessSize)
  | store (device : Nat) (pa : Word) (size : AccessSize) (value : Word)
  | getTime
  deriving DecidableEq, Repr

/-- A device's answer to a load: a value, or `fault` (20_memory.md R101). -/
inductive BusAnswer where
  | value (v : Word)
  | fault
  deriving DecidableEq, Repr, Inhabited

/-- The parameters of the reset state. DESIGN CHOICE (assumption log 1), unsafe where a claim leans on the
values: the spec leaves them open; these are the example values of 95_test_vectors.md. -/
def Config.platform : Platform :=
  { bootPc := 0x80000000#32
    ranges := [{ base := 0x80000000, size := 0x100000, kind := .ram }]
    irqAdmission := .document }

/-- `TLB_SIZE`: 256 in this hardware (00_scope.md R7). -/
def Config.tlbSize : Nat := 256

/-- FREE VALUE (assumption log 4): what a device answers to a load, given everything that has happened on the bus
before. It has no body: nothing can be proved of its value. -/
opaque Config.deviceLoad (history : List BusEvent) (device : Nat) (pa : Word) (size : AccessSize) : BusAnswer

/-- FREE VALUE (assumption log 4): whether a device answers `fault` to a store. -/
opaque Config.deviceStoreFaults (history : List BusEvent) (device : Nat) (pa : Word) (size : AccessSize)
    (value : Word) : Bool

/-- FREE VALUE (assumption log 5): the answer of the real-time counter's `get_time()` (10_state.md R76). -/
opaque Config.realTime (history : List BusEvent) : DWord

end Sys2Proof
end

