-- ==== Sys2Proof/Machine/State.lean ====
section
/-! DEFINITION. The state of the machine, all of it and as plain data (10_state.md R20 to R90, 20_memory.md R150),
the reasons a step can stop, the exceptions, and the state after reset. -/

namespace Sys2Proof.Machine

/-- The privilege modes (10_state.md R25; 60_exceptions.md R460). -/
inductive Priv where
  | u
  | s
  | m
  deriving DecidableEq, Repr, Inhabited

/-- What an access is for (20_memory.md R130). -/
inductive AccessKind where
  | fetch
  | read
  | write
  deriving DecidableEq, Repr

/-- The exceptions, by the names of 00_scope.md R10, each with its trap value where it has one. -/
inductive Exc where
  | instrAddrMisaligned (addr : Word)
  | instrAccessFault (addr : Word)
  | illegalInstruction (word : Word)
  | breakpoint
  | loadAddrMisaligned (addr : Word)
  | loadAccessFault (addr : Word)
  | storeAddrMisaligned (addr : Word)
  | storeAccessFault (addr : Word)
  | ecallFromU
  | ecallFromS
  | ecallFromM
  | instrPageFault (addr : Word)
  | loadPageFault (addr : Word)
  | storePageFault (addr : Word)
  deriving DecidableEq, Repr

/-- What answers at a physical address (20_memory.md R100). -/
inductive Backing where
  | ram (region : Range)
  | mmio (device : Nat)
  | unmapped
  deriving DecidableEq, Repr

/-- One valid entry of a translation cache (20_memory.md R150): `page` is bits 31:12 of the tag (its other bits are
zero), `delta` the translation delta, `region` the RAM range behind the page. -/
structure TlbEntry where
  page : BitVec 20
  delta : Word
  region : Range
  deriving DecidableEq, Repr

/-- A direct-mapped translation cache: its valid entries in rising order of their index, at most one for each index;
an index with no entry here holds the tag `invalid` (assumption log 10). -/
abbrev Tlb := List TlbEntry

/-- RAM contents: the bytes that are not zero, at strictly rising addresses. An address that is not listed reads 0
(assumption log 3, DESIGN CHOICE, unsafe where a claim leans on it). -/
abbrev Memory := List Host.Cell

/-- The reasons a step stops with a fault: NONE. Every cause is recoverable: the core "never aborts the emulated
program; it always redirects to a trap handler" (60_exceptions.md R423), so every exception is a next state. -/
inductive Fault where
  deriving DecidableEq, Repr

/-- The reasons a step, or a host operation, is refused. -/
inductive Refusal where
  /-- An instruction without a meaning. No arm of `exec` raises it: every instruction is modelled. Safe. -/
  | notModelled (mnemonic : String)
  /-- Raised by `setState` for a snapshot that breaks 10_state.md R80 or has `x[0] != 0`
  (70_reset_and_hazards.md R487, log 15). Safe: a step never raises it. -/
  | illFormedSnapshot
  /-- Raised by `powerOnChecked` for an ill-formed parameter, before a run: a memory map that breaks 20_memory.md R105, or
  none of whose RAM ranges covers `BOOT_PC` (93_implementation_defined.md 1b; log 15). Safe: a step never raises it. -/
  | illFormedPlatform
  deriving DecidableEq, Repr

/-- The state of the machine. INVENTORY.md lists every field with the rule that names it. -/
structure State where
  /-- `x[0]` to `x[31]` (R20); `x[0]` is read and written through `State.x`, `State.setX` only. -/
  regs : Vector Word 32
  /-- R23. -/
  pc : Word
  /-- R25. -/
  priv : Priv
  /-- R26. -/
  halted : Bool
  /-- R27: `none`, or the reserved physical address. -/
  reservation : Option Word
  /-- R70: the one counter behind `mcycle`, `minstret`, `cycle`, `instret`. -/
  mcycle : DWord
  /-- R44; `sstatus` is a view of it (R47). -/
  mstatus : Word
  medeleg : Word
  mideleg : Word
  /-- R51; `sie` is a view of it (R53). -/
  mie : Word
  /-- R52; `sip` is a view of it (R54). -/
  mip : Word
  mtvec : Word
  stvec : Word
  mcounteren : Word
  scounteren : Word
  mscratch : Word
  sscratch : Word
  mepc : Word
  sepc : Word
  mcause : Word
  scause : Word
  mtval : Word
  stval : Word
  satp : Word
  /-- The three translation caches (20_memory.md R150). -/
  fetchTlb : Tlb
  readTlb : Tlb
  writeTlb : Tlb
  /-- RAM contents (20_memory.md R101). -/
  mem : Memory
  /-- The MODEL's own field: every interaction with devices and the real-time counter so far, newest first, the
  third observable of 70_reset_and_hazards.md R483 and the argument of the free values (log 4, 5, 6). -/
  bus : List BusEvent
  /-- The open parameters (00_scope.md R7); no step changes them (log 1). -/
  plat : Platform
  deriving DecidableEq, Repr

/-- What a step, a meaning or a host operation answers. -/
abbrev Result := Host.Outcome State Fault Refusal

/-- Power-on over a platform: every bit of architectural state zero, then `reset()`: `pc = BOOT_PC`, `priv = M`
(10_state.md R90; 70_reset_and_hazards.md R484, R488). -/
def State.powerOn (p : Platform) : State :=
  { regs := Vector.replicate 32 0#32
    pc := p.bootPc
    priv := .m
    halted := false
    reservation := none
    mcycle := 0#64
    mstatus := 0#32
    medeleg := 0#32
    mideleg := 0#32
    mie := 0#32
    mip := 0#32
    mtvec := 0#32
    stvec := 0#32
    mcounteren := 0#32
    scounteren := 0#32
    mscratch := 0#32
    sscratch := 0#32
    mepc := 0#32
    sepc := 0#32
    mcause := 0#32
    scause := 0#32
    mtval := 0#32
    stval := 0#32
    satp := 0#32
    fetchTlb := []
    readTlb := []
    writeTlb := []
    mem := []
    bus := []
    plat := p }

/-- The machine right after reset, over the platform of `Config.platform` (log 1, log 2). -/
def State.reset : State := State.powerOn Config.platform

end Sys2Proof.Machine
end

