-- ==== Sys2Proof/Machine/Flags.lean ====
section
/-! DEFINITION. The fields of `mstatus` and every computation of one (10_state.md R44 to R47). The core has no
arithmetic flags (10_state.md R29): these are the only status bits there are. -/

namespace Sys2Proof.Machine

/-! ## Privilege levels (10_state.md R25) -/

/-- The level number: U = 0, S = 1, M = 3. -/
def Priv.level : Priv → Nat
  | .u => 0
  | .s => 1
  | .m => 3

/-- The level as the two bits of `MPP`. -/
def Priv.bits : Priv → BitVec 2
  | .u => 0#2
  | .s => 1#2
  | .m => 3#2

/-- The level that two bits encode. 2 is never held (R80); there the answer is U, DESIGN CHOICE, log 12: no state
that meets R80 reaches it. -/
def Priv.ofBits (b : BitVec 2) : Priv :=
  if b = 3#2 then .m else if b = 1#2 then .s else .u

/-- The level that the one bit of `SPP` encodes. -/
def Priv.ofSpp (b : Bool) : Priv := if b then .s else .u

/-! ## Fields -/

/-- `w` with bit `i` set to `b`. -/
def setBit (w : Word) (i : Nat) (b : Bool) : Word :=
  if b then w ||| (1#32 <<< i) else w &&& ~~~(1#32 <<< i)

def mstatusSie (w : Word) : Bool := w.getLsbD 1
def mstatusMie (w : Word) : Bool := w.getLsbD 3
def mstatusSpie (w : Word) : Bool := w.getLsbD 5
def mstatusMpie (w : Word) : Bool := w.getLsbD 7
def mstatusSpp (w : Word) : Bool := w.getLsbD 8
def mstatusMpp (w : Word) : BitVec 2 := w.extractLsb' 11 2
def mstatusFs (w : Word) : BitVec 2 := w.extractLsb' 13 2
def mstatusXs (w : Word) : BitVec 2 := w.extractLsb' 15 2
def mstatusMprv (w : Word) : Bool := w.getLsbD 17
def mstatusSum (w : Word) : Bool := w.getLsbD 18
def mstatusMxr (w : Word) : Bool := w.getLsbD 19
def mstatusTvm (w : Word) : Bool := w.getLsbD 20
def mstatusTw (w : Word) : Bool := w.getLsbD 21
def mstatusTsr (w : Word) : Bool := w.getLsbD 22

/-- The global interrupt-enable bit of a level: the bit whose number is the level's (R44, 60_exceptions.md R450). -/
def mstatusIe (p : Priv) (w : Word) : Bool := w.getLsbD p.level

/-- `w` with `MPP` set. -/
def setMpp (w : Word) (b : BitVec 2) : Word := setBit (setBit w 11 (b.getLsbD 0)) 12 (b.getLsbD 1)

/-! ## Masked writes -/

/-- `(old & ~mask) | (v & mask)` (R42). -/
def maskedWrite (mask old v : Word) : Word := (old &&& ~~~mask) ||| (v &&& mask)

/-- SD recomputed from FS and XS (R44, R46). -/
def recomputeSd (w : Word) : Word := setBit w 31 (mstatusFs w == 3#2 || mstatusXs w == 3#2)

/-- `MSTATUS_MASK` without SD (R46). -/
def mstatusWriteMask : Word := 0x007FF9BB#32

/-- `SSTATUS_MASK` (R47): what a read of `sstatus` shows. -/
def sstatusReadMask : Word := 0x800DE133#32

/-- `SSTATUS_MASK` without SD (R47). -/
def sstatusWriteMask : Word := 0x000DE133#32

/-- MPP never holds 2: such a field keeps its old value (R46). -/
def legalizeMpp (old new : Word) : Word :=
  if mstatusMpp new = 2#2 then setMpp new (mstatusMpp old) else new

/-- The value a CSR write of `v` leaves in `mstatus` (R46). -/
def mstatusAfterWrite (old v : Word) : Word :=
  recomputeSd (legalizeMpp old (maskedWrite mstatusWriteMask old v))

/-- Does that write flush the translation caches (R46)? -/
def mstatusWriteFlushes (old new : Word) : Bool :=
  mstatusMprv old != mstatusMprv new || mstatusSum old != mstatusSum new || mstatusMxr old != mstatusMxr new ||
    (mstatusMprv old && mstatusMpp old != mstatusMpp new)

/-- The value a CSR write of `v` to `sstatus` leaves in `mstatus` (R47). -/
def sstatusAfterWrite (old v : Word) : Word := recomputeSd (maskedWrite sstatusWriteMask old v)

/-- Does that write flush the translation caches (R47)? -/
def sstatusWriteFlushes (old new : Word) : Bool :=
  mstatusSum old != mstatusSum new || mstatusMxr old != mstatusMxr new

/-! ## Trap entry and return (60_exceptions.md R450; 47_system_privileged.md R352, R353) -/

/-- `mstatus` after a trap to Machine from level `p`. -/
def mstatusTrapToM (w : Word) (p : Priv) : Word :=
  setBit (setMpp (setBit w 7 (mstatusIe p w)) p.bits) 3 false

/-- `mstatus` after a trap to Supervisor from level `p` (U or S). -/
def mstatusTrapToS (w : Word) (p : Priv) : Word :=
  setBit (setBit (setBit w 5 (mstatusIe p w)) 8 (p == .s)) 1 false

/-- The level that MRET returns to. -/
def mretTarget (w : Word) : Priv := Priv.ofBits (mstatusMpp w)

/-- `mstatus` after MRET: the RESTORED level's enable bit receives `MPIE`, then `MPIE` is 1 and `MPP` is U. -/
def mstatusAfterMret (w : Word) : Word :=
  setMpp (setBit (setBit w (mretTarget w).level (mstatusMpie w)) 7 true) 0#2

/-- The level that SRET returns to. -/
def sretTarget (w : Word) : Priv := Priv.ofSpp (mstatusSpp w)

/-- `mstatus` after SRET. -/
def mstatusAfterSret (w : Word) : Word :=
  setBit (setBit (setBit w (sretTarget w).level (mstatusSpie w)) 5 true) 8 false

end Sys2Proof.Machine
end

