-- ==== Sys2Proof/Machine/Operands.lean ====
section
/-! DEFINITION. The operand forms: the registers (10_state.md R20 to R22), the immediates (30_encoding.md R172,
48_compressed.md), effective addresses (42_load_store.md R258), shift amounts, the extensions of a loaded value. -/

namespace Sys2Proof.Machine

/-! ## General registers -/

/-- Read of `x[r]`; `x[0]` reads 0 (R21). -/
def State.x (s : State) (r : Reg) : Word := if r = 0 then 0#32 else s.regs.get r

/-- `x[r] <- v`; a write of `x[0]` is discarded (R21). -/
def State.setX (s : State) (r : Reg) (v : Word) : State :=
  if r = 0 then s else { s with regs := s.regs.set r.val v }

/-! ## Immediates -/

/-- A 12-bit immediate, sign-extended (`imm_I`, `imm_S`). -/
def imm12 (imm : BitVec 12) : Word := imm.signExtend 32

/-- `imm_U`: the 20 bits above 12 zeros. -/
def immU (imm : BitVec 20) : Word := imm ++ 0#12

/-- `imm_B`, sign-extended. -/
def offB (off : BitVec 13) : Word := off.signExtend 32

/-- `imm_J`, sign-extended. -/
def offJ (off : BitVec 21) : Word := off.signExtend 32

/-- `zext_5(uimm)` of the CSR immediates (46_zicsr.md R330). -/
def uimm5 (uimm : BitVec 5) : Word := uimm.zeroExtend 32

/-- `sext_6` of a compressed immediate. -/
def cImm6 (imm : BitVec 6) : Word := imm.signExtend 32

/-- C.LUI: `sext_18({imm, 12'b0})` (48_compressed.md R380). -/
def cImmLui (imm : BitVec 6) : Word := (imm ++ 0#12).signExtend 32

/-- C.ADDI16SP: `sext_10` (R379). -/
def cImm16sp (imm : BitVec 10) : Word := imm.signExtend 32

/-- C.ADDI4SPN: zero-extended (R372). -/
def cUimm4spn (uimm : BitVec 10) : Word := uimm.zeroExtend 32

/-- C.LW, C.SW: zero-extended (R373). -/
def cUimm7 (uimm : BitVec 7) : Word := uimm.zeroExtend 32

/-- C.LWSP, C.SWSP: zero-extended (R392, R398). -/
def cUimm8 (uimm : BitVec 8) : Word := uimm.zeroExtend 32

/-- C.JAL, C.J: `sext_12` (R377). -/
def cOffJ (off : BitVec 12) : Word := off.signExtend 32

/-- C.BEQZ, C.BNEZ: `sext_9` (R389). -/
def cOffB (off : BitVec 9) : Word := off.signExtend 32

/-! ## Addresses -/

/-- `x[rs1] + imm`, the virtual address of a load or a store (42_load_store.md R258). -/
def State.dataAddr (s : State) (rs1 : Reg) (imm : BitVec 12) : Word := s.x rs1 + imm12 imm

/-- The address of C.LW and C.SW (48_compressed.md R373, R374). -/
def State.cDataAddr (s : State) (rs1 : CReg) (uimm : BitVec 7) : Word := s.x rs1.reg + cUimm7 uimm

/-- The address of C.LWSP and C.SWSP (R392, R398). -/
def State.spDataAddr (s : State) (uimm : BitVec 8) : Word := s.x 2 + cUimm8 uimm

/-- JALR's target: bit 0 of the sum cleared (41_control_transfer.md R231). -/
def clearBit0 (w : Word) : Word := w &&& 0xFFFFFFFE#32

/-! ## Shift amounts (40_integer_computational.md R221) -/

/-- The low 5 bits of a register. -/
def shiftAmount (w : Word) : Nat := (w.extractLsb' 0 5).toNat

/-! ## Extensions of a loaded value; the value read stands in the low bits, zeros above -/

/-- `sext_8` of the low byte. -/
def sextByte (w : Word) : Word := (w.extractLsb' 0 8).signExtend 32

/-- `sext_16` of the low half. -/
def sextHalf (w : Word) : Word := (w.extractLsb' 0 16).signExtend 32

/-- `zext_8` of the low byte. -/
def zextByte (w : Word) : Word := (w.extractLsb' 0 8).zeroExtend 32

/-- `zext_16` of the low half. -/
def zextHalf (w : Word) : Word := (w.extractLsb' 0 16).zeroExtend 32

/-- A comparison's result: 1 or 0. -/
def boolWord (b : Bool) : Word := if b then 1#32 else 0#32

end Sys2Proof.Machine
end

