-- ==== Sys2Proof/Machine/Ops.lean ====
section
/-! DEFINITION. The named operations over memory, the bus, the translation caches, and taking and returning from
a trap (20_memory.md; 60_exceptions.md R450; 47_system_privileged.md R352, R353). -/

namespace Sys2Proof.Machine

/-! ## RAM contents -/

/-- One byte; an unlisted address reads 0 (log 3). -/
def Memory.get : Memory → Nat → Byte
  | [], _ => 0#8
  | (k, b) :: t, a => if k = a then b else Memory.get t a

/-- Write one byte, keeping the canonical form: a zero byte is not listed. -/
def Memory.set : Memory → Nat → Byte → Memory
  | [], a, v => if v = 0#8 then [] else [(a, v)]
  | (k, b) :: t, a, v =>
    if a < k then (if v = 0#8 then (k, b) :: t else (a, v) :: (k, b) :: t)
    else if a = k then (if v = 0#8 then t else (a, v) :: t)
    else (k, b) :: Memory.set t a v

/-- The canonical form above `lo`: strictly rising addresses below 2^32, no zero byte. -/
def Memory.wfFrom : Nat → Memory → Bool
  | _, [] => true
  | lo, (k, b) :: t => decide (lo ≤ k) && decide (k < 2 ^ 32) && b != 0#8 && Memory.wfFrom (k + 1) t

/-- The canonical form. -/
def Memory.wf (m : Memory) : Bool := Memory.wfFrom 0 m

/-- The byte at a physical address; addresses wrap modulo 2^32. -/
def Memory.byteAt (m : Memory) (pa : Word) : Byte := m.get pa.toNat

/-- Write the byte at a physical address. -/
def Memory.setByte (m : Memory) (pa : Word) (v : Byte) : Memory := m.set pa.toNat v

/-- A little-endian value of 1, 2 or 4 bytes, zero-extended (20_memory.md R104). -/
def Memory.load (m : Memory) (pa : Word) : AccessSize → Word
  | .byte => (m.byteAt pa).zeroExtend 32
  | .half => (m.byteAt (pa + 1) ++ m.byteAt pa).zeroExtend 32
  | .word => m.byteAt (pa + 3) ++ m.byteAt (pa + 2) ++ m.byteAt (pa + 1) ++ m.byteAt pa

/-- Byte `k` of a value. -/
def byteOf (v : Word) (k : Nat) : Byte := v.extractLsb' (8 * k) 8

/-- Store the low 1, 2 or 4 bytes of a value, little-endian. -/
def Memory.store (m : Memory) (pa : Word) (n : AccessSize) (v : Word) : Memory :=
  match n with
  | .byte => m.setByte pa (byteOf v 0)
  | .half => (m.setByte pa (byteOf v 0)).setByte (pa + 1) (byteOf v 1)
  | .word =>
    (((m.setByte pa (byteOf v 0)).setByte (pa + 1) (byteOf v 1)).setByte (pa + 2) (byteOf v 2)).setByte (pa + 3)
      (byteOf v 3)

/-! ## Sizes and alignment -/

/-- The number of bytes. -/
def sizeBytes : AccessSize → Nat
  | .byte => 1
  | .half => 2
  | .word => 4

/-- Is the address not a multiple of the size (20_memory.md R120, R121)? -/
def misaligned (n : AccessSize) (addr : Word) : Bool :=
  match n with
  | .byte => false
  | .half => addr.extractLsb' 0 1 != 0#1
  | .word => addr.extractLsb' 0 2 != 0#2

/-- The value of the given size in the low bits of `v`, zeros above. -/
def maskToSize (n : AccessSize) (v : Word) : Word :=
  match n with
  | .byte => v &&& 0x000000FF#32
  | .half => v &&& 0x0000FFFF#32
  | .word => v

/-! ## The memory map (20_memory.md R100, R105) -/

/-- The address lies in the range. -/
def inRange (r : Range) (a : Nat) : Bool := decide (r.base ≤ a) && decide (a < r.base + r.size)

/-- What a range answers as. -/
def rangeBacking (r : Range) : Backing :=
  match r.kind with
  | .ram => .ram r
  | .mmio d => .mmio d

/-- `find_range`. -/
def classify (p : Platform) (pa : Word) : Backing :=
  match p.ranges.find? (fun r => inRange r pa.toNat) with
  | some r => rangeBacking r
  | none => .unmapped

/-- A range of R105: inside the 32-bit space, on 4-byte boundaries, a RAM range on 4 KiB boundaries. -/
def rangeWf (r : Range) : Bool :=
  decide (r.base + r.size ≤ 2 ^ 32) && r.base % 4 == 0 && r.size % 4 == 0 &&
    match r.kind with
    | .ram => r.base % 4096 == 0 && r.size % 4096 == 0
    | .mmio _ => true

/-- Two ranges share no address. -/
def disjoint (r r' : Range) : Bool := decide (r.base + r.size ≤ r'.base) || decide (r'.base + r'.size ≤ r.base)

/-- Every range is well formed and disjoint from every later one. -/
def rangesWf : List Range → Bool
  | [] => true
  | r :: t => rangeWf r && t.all (disjoint r) && rangesWf t

/-- The platform's obligations of R105. -/
def platformWf (p : Platform) : Bool := rangesWf p.ranges

/-! ## The bus -/

/-- `PhysRead` at an address already classified (R101): RAM's bytes; exactly one device load, its answer free
(log 4); zero where nothing is mapped. -/
def readBacking (b : Backing) (pa : Word) (n : AccessSize) (s : State) : BusAnswer × State :=
  match b with
  | .ram _ => (.value (s.mem.load pa n), s)
  | .mmio d =>
    (match Config.deviceLoad s.bus d pa n with
      | .value v => .value (maskToSize n v)
      | .fault => .fault,
     { s with bus := .load d pa n :: s.bus })
  | .unmapped => (.value 0#32, s)

/-- `PhysWrite` at an address already classified (R102): `true` when it is done, `false` for a device's `fault`. -/
def writeBacking (b : Backing) (pa : Word) (n : AccessSize) (v : Word) (s : State) : Bool × State :=
  match b with
  | .ram _ => (true, { s with mem := s.mem.store pa n v })
  | .mmio d =>
    (!Config.deviceStoreFaults s.bus d pa n (maskToSize n v), { s with bus := .store d pa n (maskToSize n v) :: s.bus })
  | .unmapped => (true, s)

/-- `PhysRead(pa, n)` (R101). -/
def physRead (pa : Word) (n : AccessSize) (s : State) : BusAnswer × State :=
  readBacking (classify s.plat pa) pa n s

/-- `PhysWrite(pa, n, v)` (R102). -/
def physWrite (pa : Word) (n : AccessSize) (v : Word) (s : State) : Bool × State :=
  writeBacking (classify s.plat pa) pa n v s

/-! ## Exceptions -/

/-- The code of an exception (60_exceptions.md R420). -/
def Exc.code : Exc → Nat
  | .instrAddrMisaligned _ => 0
  | .instrAccessFault _ => 1
  | .illegalInstruction _ => 2
  | .breakpoint => 3
  | .loadAddrMisaligned _ => 4
  | .loadAccessFault _ => 5
  | .storeAddrMisaligned _ => 6
  | .storeAccessFault _ => 7
  | .ecallFromU => 8
  | .ecallFromS => 9
  | .ecallFromM => 11
  | .instrPageFault _ => 12
  | .loadPageFault _ => 13
  | .storePageFault _ => 15

/-- The trap value of an exception (R420): 0 for a breakpoint and an environment call. -/
def Exc.value : Exc → Word
  | .instrAddrMisaligned a => a
  | .instrAccessFault a => a
  | .illegalInstruction w => w
  | .breakpoint => 0#32
  | .loadAddrMisaligned a => a
  | .loadAccessFault a => a
  | .storeAddrMisaligned a => a
  | .storeAccessFault a => a
  | .ecallFromU => 0#32
  | .ecallFromS => 0#32
  | .ecallFromM => 0#32
  | .instrPageFault a => a
  | .loadPageFault a => a
  | .storePageFault a => a

/-- The misaligned-address exception of an access kind. -/
def misalignedExc (k : AccessKind) (va : Word) : Exc :=
  match k with
  | .fetch => .instrAddrMisaligned va
  | .read => .loadAddrMisaligned va
  | .write => .storeAddrMisaligned va

/-- `PageFault(kind, va)` (20_memory.md R138). -/
def pageFault (k : AccessKind) (va : Word) : Exc :=
  match k with
  | .fetch => .instrPageFault va
  | .read => .loadPageFault va
  | .write => .storePageFault va

/-- The access-fault exception of an access kind. -/
def accessFault (k : AccessKind) (va : Word) : Exc :=
  match k with
  | .fetch => .instrAccessFault va
  | .read => .loadAccessFault va
  | .write => .storeAccessFault va

/-- The outcome of an access that may raise an exception: in both cases with the state as the access left it (what
was written before a `raise` stays written, 00_scope.md R9). -/
inductive Access (α : Type) where
  | ok (v : α) (s : State)
  | raise (e : Exc) (s : State)

/-- Go on after an access that raised nothing. -/
def Access.bind {α β : Type} (a : Access α) (f : α → State → Access β) : Access β :=
  match a with
  | .ok v s => f v s
  | .raise e s => .raise e s

/-! ## The translation caches (20_memory.md R150 to R153) -/

/-- The page of a virtual address, bits 31:12. -/
def pageOf (va : Word) : BitVec 20 := va.extractLsb' 12 20

/-- The page's first address. -/
def pageBase (va : Word) : Word := pageOf va ++ 0#12

/-- The index of a page. -/
def tlbIndex (page : BitVec 20) : Nat := page.toNat % Config.tlbSize

/-- The valid entry whose tag is the page (R151). -/
def Tlb.lookup (t : Tlb) (page : BitVec 20) : Option TlbEntry := t.find? (fun e => e.page == page)

/-- Overwrite the entry at the new entry's index. -/
def Tlb.insert : Tlb → TlbEntry → Tlb
  | [], e => [e]
  | e' :: t, e =>
    if tlbIndex e.page < tlbIndex e'.page then e :: e' :: t
    else if tlbIndex e.page = tlbIndex e'.page then e :: t
    else e' :: Tlb.insert t e

/-- The canonical form above an index: strictly rising indexes. -/
def Tlb.wfFrom : Nat → Tlb → Bool
  | _, [] => true
  | lo, e :: t => decide (lo ≤ tlbIndex e.page) && Tlb.wfFrom (tlbIndex e.page + 1) t

/-- The canonical form of a translation cache. -/
def Tlb.wf (t : Tlb) : Bool := Tlb.wfFrom 0 t

/-- The table of an access kind. -/
def State.tlb (s : State) : AccessKind → Tlb
  | .fetch => s.fetchTlb
  | .read => s.readTlb
  | .write => s.writeTlb

/-- Replace the table of an access kind. -/
def State.setTlb (s : State) (k : AccessKind) (t : Tlb) : State :=
  match k with
  | .fetch => { s with fetchTlb := t }
  | .read => { s with readTlb := t }
  | .write => { s with writeTlb := t }

/-- The entry that an access to `va` translated to `pa` installs (R153). -/
def tlbEntryFor (va pa : Word) (region : Range) : TlbEntry :=
  { page := pageOf va, delta := pageBase pa - pageBase va, region := region }

/-- Install (R153). -/
def State.installTlb (s : State) (k : AccessKind) (va pa : Word) (region : Range) : State :=
  s.setTlb k ((s.tlb k).insert (tlbEntryFor va pa region))

/-- `flush_tlb()` (R152). -/
def State.flushTlb (s : State) : State := { s with fetchTlb := [], readTlb := [], writeTlb := [] }

/-- `flush_tlb()` on a condition. -/
def State.flushIf (s : State) (b : Bool) : State := if b then s.flushTlb else s

/-! ## Translation (20_memory.md R130 to R140) -/

/-- `EffectivePriv(kind)` (R131). -/
def State.effectivePriv (s : State) (k : AccessKind) : Priv :=
  match k with
  | .fetch => s.priv
  | .read | .write => if mstatusMprv s.mstatus then Priv.ofBits (mstatusMpp s.mstatus) else s.priv

/-- The two levels of the walk (R133). -/
inductive PtLevel where
  | one
  | zero
  deriving DecidableEq, Repr

/-- The virtual page number of a level (R132). -/
def vpnOf (l : PtLevel) (va : Word) : BitVec 10 :=
  match l with
  | .one => va.extractLsb' 22 10
  | .zero => va.extractLsb' 12 10

/-- The address of a page-table entry: `base + vpn * 4`. -/
def pteAddr (base : Word) (l : PtLevel) (va : Word) : Word := base + (0#20 ++ vpnOf l va ++ 0#2)

def pteV (pte : Word) : Bool := pte.getLsbD 0
def pteR (pte : Word) : Bool := pte.getLsbD 1
def pteW (pte : Word) : Bool := pte.getLsbD 2
def pteX (pte : Word) : Bool := pte.getLsbD 3
def pteU (pte : Word) : Bool := pte.getLsbD 4

/-- Valid clear, or write without read (R133). -/
def pteInvalid (pte : Word) : Bool := !pteV pte || (pteW pte && !pteR pte)

/-- R, W and X all clear: a pointer to the next level (R133). -/
def ptePointer (pte : Word) : Bool := !pteR pte && !pteW pte && !pteX pte

/-- The table that a pointer entry names: `{pte[29:10], 12'b0}` (R133). -/
def pteBase (pte : Word) : Word := pte.extractLsb' 10 20 ++ 0#12

/-- The root table: `{satp[19:0], 12'b0}` (R133). -/
def rootBase (satp : Word) : Word := satp.extractLsb' 0 20 ++ 0#12

/-- `CheckLeaf` (R134): does the leaf permit the access? -/
def leafPermits (mstatus pte : Word) (k : AccessKind) (ep : Priv) : Bool :=
  !(ep == .s && pteU pte && (!mstatusSum mstatus || k == .fetch)) && !(ep == .u && !pteU pte) &&
    match k with
    | .read => pteR pte || (mstatusMxr mstatus && pteX pte)
    | .write => pteW pte
    | .fetch => pteX pte

/-- The leaf with its accessed bit, and for a write its dirty bit, set (R136). -/
def pteWithAD (pte : Word) (k : AccessKind) : Word :=
  setBit (if k = .write then setBit pte 7 true else pte) 6 true

/-- `Compose(pte, va, level)` (R137). -/
def composePa (pte va : Word) (l : PtLevel) : Word :=
  match l with
  | .zero => pte.extractLsb' 10 20 ++ va.extractLsb' 0 12
  | .one => pte.extractLsb' 20 10 ++ va.extractLsb' 0 22

/-- `UpdateAD` (R136), the write back through the bus (R139). -/
def updateAD (addr pte : Word) (k : AccessKind) (s : State) : Bool × State :=
  if pteWithAD pte k = pte then (true, s) else physWrite addr .word (pteWithAD pte k) s

/-- A leaf at a level: check, update, compose (R133 to R137); a device's `fault` to the write back is the access
fault of the access's kind (R139). -/
def walkLeaf (addr pte va : Word) (k : AccessKind) (ep : Priv) (l : PtLevel) (s : State) : Access Word :=
  if leafPermits s.mstatus pte k ep then
    match updateAD addr pte k s with
    | (true, s') => .ok (composePa pte va l) s'
    | (false, s') => .raise (accessFault k va) s'
  else .raise (pageFault k va) s

/-- `Walk` (R133) over the levels that are left. -/
def walk : List PtLevel → Word → Word → AccessKind → Priv → State → Access Word
  | [], _, va, k, _, s => .raise (pageFault k va) s
  | l :: ls, base, va, k, ep, s =>
    match physRead (pteAddr base l va) .word s with
    | (.fault, s') => .raise (accessFault k va) s'
    | (.value pte, s') =>
      if pteInvalid pte then .raise (pageFault k va) s'
      else if ptePointer pte then walk ls (pteBase pte) va k ep s'
      else walkLeaf (pteAddr base l va) pte va k ep l s'

/-- Is translation the identity (R130)? -/
def State.bare (s : State) (k : AccessKind) : Bool := s.effectivePriv k == .m || !s.satp.getLsbD 31

/-- `Translate(va, kind)` (R130). -/
def translate (va : Word) (k : AccessKind) (s : State) : Access Word :=
  if s.bare k then .ok va s
  else walk [.one, .zero] (rootBase s.satp) va k (s.effectivePriv k) s

/-- What a translation gives an access: the physical address and what answers there. -/
structure Target where
  pa : Word
  backing : Backing
  deriving DecidableEq, Repr

/-- A miss (R153): a RAM-backed translation is installed, another one is not. -/
def installTarget (va : Word) (k : AccessKind) (pa : Word) (s : State) : Access Target :=
  match classify s.plat pa with
  | .ram r => .ok { pa := pa, backing := .ram r } (s.installTlb k va pa r)
  | b => .ok { pa := pa, backing := b } s

/-- `TranslateCached(va, kind)` (R154); a hit goes straight to the entry's RAM region (R151, log 11). -/
def translateCached (va : Word) (k : AccessKind) (s : State) : Access Target :=
  match (s.tlb k).lookup (pageOf va) with
  | some e => .ok { pa := va + e.delta, backing := .ram e.region } s
  | none => (translate va k s).bind fun pa s' => installTarget va k pa s'

/-! ## The access paths (20_memory.md R120 to R124) -/

/-- The read of a translated address; a device's `fault` raises the access fault of the kind. -/
def readTarget (t : Target) (n : AccessSize) (k : AccessKind) (va : Word) (s : State) : Access Word :=
  match readBacking t.backing t.pa n s with
  | (.value v, s') => .ok v s'
  | (.fault, s') => .raise (accessFault k va) s'

/-- The write of a translated address. -/
def writeTarget (t : Target) (n : AccessSize) (va v : Word) (s : State) : Access Unit :=
  match writeBacking t.backing t.pa n v s with
  | (true, s') => .ok () s'
  | (false, s') => .raise (accessFault .write va) s'

/-- The alignment check and the translation of a data access. -/
def dataTarget (va : Word) (n : AccessSize) (k : AccessKind) (s : State) : Access Target :=
  if misaligned n va then .raise (misalignedExc k va) s else translateCached va k s

/-- `MemRead(addr, n)` (R120). -/
def memRead (va : Word) (n : AccessSize) (s : State) : Access Word :=
  (dataTarget va n .read s).bind fun t s' => readTarget t n .read va s'

/-- `MemWrite(addr, n, v)` (R121). -/
def memWrite (va : Word) (n : AccessSize) (v : Word) (s : State) : Access Unit :=
  (dataTarget va n .write s).bind fun t s' => writeTarget t n va v s'

/-- The read of a fetched halfword: only from RAM (R122). -/
def fetchTarget (t : Target) (va : Word) (s : State) : Access Half :=
  match t.backing with
  | .ram _ => .ok ((s.mem.load t.pa .half).extractLsb' 0 16) s
  | .mmio _ | .unmapped => .raise (.instrAccessFault va) s

/-- `Fetch16(addr)` (R122). -/
def fetch16 (va : Word) (s : State) : Access Half :=
  if misaligned .half va then .raise (.instrAddrMisaligned va) s
  else (translateCached va .fetch s).bind fun t s' => fetchTarget t va s'

/-- Instruction fetch at `pc` (R123). -/
def fetchInstr (s : State) : Access RawInstr :=
  (fetch16 s.pc s).bind fun lo s' =>
    if isLong lo then (fetch16 (s'.pc + 2) s').bind fun hi s'' => .ok (.full (hi ++ lo)) s''
    else .ok (.half lo) s'

/-! ## Trap entry (60_exceptions.md R450 to R454) -/

/-- Is the trap taken at Supervisor (R451)? -/
def State.delegated (s : State) (code : Nat) (intr : Bool) : Bool :=
  s.priv != .m && (if intr then s.mideleg.getLsbD code else s.medeleg.getLsbD code)

/-- The cause value (R422). -/
def causeWord (code : Nat) (intr : Bool) : Word := setBit (BitVec.ofNat 32 code) 31 intr

/-- Where a trap goes (R453). -/
def trapVector (tvec : Word) (code : Nat) (intr : Bool) : Word :=
  if tvec.getLsbD 0 && intr then (tvec &&& 0xFFFFFFFC#32) + BitVec.ofNat 32 (4 * code) else tvec &&& 0xFFFFFFFC#32

/-- The registers that a trap to Machine saves and changes. -/
def State.saveM (s : State) (code : Nat) (intr : Bool) (value : Word) : State :=
  { s with
    mepc := s.pc
    mtval := value
    mcause := causeWord code intr
    mstatus := mstatusTrapToM s.mstatus s.priv
    priv := .m
    mcycle := s.mcycle + 1
    pc := trapVector s.mtvec code intr }

/-- The registers that a trap to Supervisor saves and changes. -/
def State.saveS (s : State) (code : Nat) (intr : Bool) (value : Word) : State :=
  { s with
    sepc := s.pc
    stval := value
    scause := causeWord code intr
    mstatus := mstatusTrapToS s.mstatus s.priv
    priv := .s
    mcycle := s.mcycle + 1
    pc := trapVector s.stvec code intr }

/-- Trap entry, the one path for exceptions and interrupts (R450): the translation caches are flushed (R452) and
`mcycle` counts one (10_state.md R72). -/
def trapEntry (code : Nat) (intr : Bool) (value : Word) (s : State) : State :=
  (if s.delegated code intr then s.saveS code intr value else s.saveM code intr value).flushTlb

/-- Trap entry for an exception. -/
def takeException (e : Exc) (s : State) : State := trapEntry e.code false e.value s

/-- The end of an instruction that made an access: go on, or take the exception that it raised. -/
def Access.conclude {α : Type} (a : Access α) (f : α → State → Result) : Result :=
  match a with
  | .ok v s => f v s
  | .raise e s => .next (takeException e s)

/-! ## Completion (10_state.md R24, R72) and trap return -/

/-- Completion without a transfer of control: `pc` past the instruction, `mcycle` one more. -/
def State.advance (s : State) (ilen : Word) : State := { s with pc := s.pc + ilen, mcycle := s.mcycle + 1 }

/-- Completion at a target. -/
def State.jumpTo (s : State) (target : Word) : State := { s with pc := target, mcycle := s.mcycle + 1 }

/-- Completion of an instruction that writes one register. -/
def retire (rd : Reg) (v ilen : Word) (s : State) : Result := .next ((s.setX rd v).advance ilen)

/-- MRET's effect in Machine mode (47_system_privileged.md R352). -/
def trapReturnM (s : State) : State :=
  ({ s with mstatus := mstatusAfterMret s.mstatus, priv := mretTarget s.mstatus }.flushTlb).jumpTo s.mepc

/-- SRET's effect where it is allowed (R353). -/
def trapReturnS (s : State) : State :=
  ({ s with mstatus := mstatusAfterSret s.mstatus, priv := sretTarget s.mstatus }.flushTlb).jumpTo s.sepc

/-- The illegal-instruction exception of an instruction whose check fails; the trap value is its word (R424, log
13). -/
def illegal (i : Instr) (s : State) : Result := .next (takeException (.illegalInstruction (encode i).toWord) s)

/-! ## Loads, stores, jumps, atomics, shared by the instructions -/

/-- A load of `n` bytes at `va`, extended by `ext`, into `rd`. -/
def loadInto (n : AccessSize) (ext : Word → Word) (rd : Reg) (va ilen : Word) (s : State) : Result :=
  (memRead va n s).conclude fun v s' => retire rd (ext v) ilen s'

/-- A store of the low `n` bytes of `v` at `va`. -/
def storeFrom (n : AccessSize) (va v ilen : Word) (s : State) : Result :=
  (memWrite va n v s).conclude fun _ s' => .next (s'.advance ilen)

/-- A jump that writes the address of the next instruction to `rd` (41_control_transfer.md R230, R231). -/
def linkAndJump (rd : Reg) (target ilen : Word) (s : State) : Result := .next ((s.setX rd (s.pc + ilen)).jumpTo target)

/-- A conditional branch. -/
def branchIf (taken : Bool) (off ilen : Word) (s : State) : Result :=
  if taken then .next (s.jumpTo (s.pc + off)) else .next (s.advance ilen)

/-- `AmoAccess(addr)` (45_a_extension.md R304). -/
def amoAccess (va : Word) (s : State) : Access Target := dataTarget va .word .write s

/-- An atomic memory operation with function `f` of the old word and `x[rs2]` (R304 to R315). -/
def amoOp (f : Word → Word → Word) (rd rs1 rs2 : Reg) (s : State) : Result :=
  ((amoAccess (s.x rs1) s).bind fun t s1 =>
    match readBacking t.backing t.pa .word s1 with
    | (.fault, s2) => .raise (.storeAccessFault (s.x rs1)) s2
    | (.value old, s2) => (writeTarget t .word (s.x rs1) (f old (s.x rs2)) s2).bind fun _ s3 => .ok old s3).conclude
    fun old s' => retire rd old 4 s'

/-! ## Placing a program (log 2, log 18) -/

/-- The physical address that a fetch at `va` would read, `va` itself where the fetch would trap. -/
def fetchPa (va : Word) (s : State) : Word :=
  match translateCached va .fetch s with
  | .ok t _ => t.pa
  | .raise _ _ => va

/-- The state with the 4 bytes of `w` stored where a fetch of `pc` and of `pc + 2` reads, and not halted. -/
def State.placeWord (s : State) (w : Word) : State :=
  { s with
    halted := false
    mem := (s.mem.store (fetchPa s.pc s) .half w).store (fetchPa (s.pc + 2) s) .half (w >>> 16) }

end Sys2Proof.Machine
end

