-- ==== Sys2Proof/Machine/Atomic.lean ====
section
/-! DEFINITION. The A extension (45_a_extension.md R300 to R315). `aq` and `rl` are accepted and ignored (R300). -/

namespace Sys2Proof.Machine

/-- LR.W (R301): `MemRead` with the physical address kept in the reservation. -/
def execLrW (_aq _rl : Bool) (rd rs1 : Reg) (s : State) : Result :=
  ((dataTarget (s.x rs1) .word .read s).bind fun t s1 =>
    (readTarget t .word .read (s.x rs1) s1).bind fun v s2 => .ok v { s2 with reservation := some t.pa }).conclude
    fun v s' => retire rd v 4 s'

/-- SC.W (R302): the checks come first, whether or not the reservation matches. -/
def execScW (_aq _rl : Bool) (rd rs1 rs2 : Reg) (s : State) : Result :=
  ((amoAccess (s.x rs1) s).bind fun t s1 =>
    if s1.reservation = some t.pa then
      (writeTarget t .word (s.x rs1) (s.x rs2) s1).bind fun _ s2 => .ok 0#32 { s2 with reservation := none }
    else .ok 1#32 { s1 with reservation := none }).conclude
    fun v s' => retire rd v 4 s'

/-- AMOSWAP.W (R305). -/
def execAmoswapW (_aq _rl : Bool) (rd rs1 rs2 : Reg) (s : State) : Result := amoOp (fun _ v => v) rd rs1 rs2 s

/-- AMOADD.W (R306). -/
def execAmoaddW (_aq _rl : Bool) (rd rs1 rs2 : Reg) (s : State) : Result := amoOp (fun t v => t + v) rd rs1 rs2 s

/-- AMOXOR.W (R307). -/
def execAmoxorW (_aq _rl : Bool) (rd rs1 rs2 : Reg) (s : State) : Result := amoOp (fun t v => t ^^^ v) rd rs1 rs2 s

/-- AMOAND.W (R308). -/
def execAmoandW (_aq _rl : Bool) (rd rs1 rs2 : Reg) (s : State) : Result := amoOp (fun t v => t &&& v) rd rs1 rs2 s

/-- AMOOR.W (R309). -/
def execAmoorW (_aq _rl : Bool) (rd rs1 rs2 : Reg) (s : State) : Result := amoOp (fun t v => t ||| v) rd rs1 rs2 s

/-- AMOMIN.W (R310). -/
def execAmominW (_aq _rl : Bool) (rd rs1 rs2 : Reg) (s : State) : Result :=
  amoOp (fun t v => if t.slt v then t else v) rd rs1 rs2 s

/-- AMOMAX.W (R311). -/
def execAmomaxW (_aq _rl : Bool) (rd rs1 rs2 : Reg) (s : State) : Result :=
  amoOp (fun t v => if v.slt t then t else v) rd rs1 rs2 s

/-- AMOMINU.W (R312). -/
def execAmominuW (_aq _rl : Bool) (rd rs1 rs2 : Reg) (s : State) : Result :=
  amoOp (fun t v => if t.ult v then t else v) rd rs1 rs2 s

/-- AMOMAXU.W (R313). -/
def execAmomaxuW (_aq _rl : Bool) (rd rs1 rs2 : Reg) (s : State) : Result :=
  amoOp (fun t v => if v.ult t then t else v) rd rs1 rs2 s

end Sys2Proof.Machine
end

