-- ==== Sys2Proof/Machine/Compressed.lean ====
section
/-! DEFINITION. The compressed instructions: the effect of each one's expansion with `ilen` 2 (48_compressed.md R370
to R399). -/

namespace Sys2Proof.Machine

/-- C.ADDI4SPN (R372). -/
def execCAddi4spn (rd : CReg) (uimm : BitVec 10) (s : State) : Result := retire rd.reg (s.x 2 + cUimm4spn uimm) 2 s

/-- C.LW (R373). -/
def execCLw (rd rs1 : CReg) (uimm : BitVec 7) (s : State) : Result :=
  loadInto .word id rd.reg (s.cDataAddr rs1 uimm) 2 s

/-- C.SW (R374). -/
def execCSw (rs2 rs1 : CReg) (uimm : BitVec 7) (s : State) : Result :=
  storeFrom .word (s.cDataAddr rs1 uimm) (s.x rs2.reg) 2 s

/-- C.NOP (R375); a non-zero immediate is a hint. -/
def execCNop (_imm : BitVec 6) (s : State) : Result := .next (s.advance 2)

/-- C.ADDI (R376). -/
def execCAddi (rd : Reg) (imm : BitVec 6) (s : State) : Result := retire rd (s.x rd + cImm6 imm) 2 s

/-- C.JAL (R377): the link is `pc + 2`. -/
def execCJal (off : BitVec 12) (s : State) : Result := linkAndJump 1 (s.pc + cOffJ off) 2 s

/-- C.LI (R378). -/
def execCLi (rd : Reg) (imm : BitVec 6) (s : State) : Result := retire rd (cImm6 imm) 2 s

/-- C.ADDI16SP (R379). -/
def execCAddi16sp (imm : BitVec 10) (s : State) : Result := retire 2 (s.x 2 + cImm16sp imm) 2 s

/-- C.LUI (R380). -/
def execCLui (rd : Reg) (imm : BitVec 6) (s : State) : Result := retire rd (cImmLui imm) 2 s

/-- C.SRLI (R381). -/
def execCSrli (rd : CReg) (shamt : BitVec 5) (s : State) : Result := retire rd.reg (s.x rd.reg >>> shamt.toNat) 2 s

/-- C.SRAI (R382). -/
def execCSrai (rd : CReg) (shamt : BitVec 5) (s : State) : Result :=
  retire rd.reg ((s.x rd.reg).sshiftRight shamt.toNat) 2 s

/-- C.ANDI (R383). -/
def execCAndi (rd : CReg) (imm : BitVec 6) (s : State) : Result := retire rd.reg (s.x rd.reg &&& cImm6 imm) 2 s

/-- C.SUB (R384). -/
def execCSub (rd rs2 : CReg) (s : State) : Result := retire rd.reg (s.x rd.reg - s.x rs2.reg) 2 s

/-- C.XOR (R385). -/
def execCXor (rd rs2 : CReg) (s : State) : Result := retire rd.reg (s.x rd.reg ^^^ s.x rs2.reg) 2 s

/-- C.OR (R386). -/
def execCOr (rd rs2 : CReg) (s : State) : Result := retire rd.reg (s.x rd.reg ||| s.x rs2.reg) 2 s

/-- C.AND (R387). -/
def execCAnd (rd rs2 : CReg) (s : State) : Result := retire rd.reg (s.x rd.reg &&& s.x rs2.reg) 2 s

/-- C.J (R388). -/
def execCJ (off : BitVec 12) (s : State) : Result := .next (s.jumpTo (s.pc + cOffJ off))

/-- C.BEQZ (R389). -/
def execCBeqz (rs1 : CReg) (off : BitVec 9) (s : State) : Result := branchIf (s.x rs1.reg == 0#32) (cOffB off) 2 s

/-- C.BNEZ (R390). -/
def execCBnez (rs1 : CReg) (off : BitVec 9) (s : State) : Result := branchIf (s.x rs1.reg != 0#32) (cOffB off) 2 s

/-- C.SLLI (R391). -/
def execCSlli (rd : Reg) (shamt : BitVec 5) (s : State) : Result := retire rd (s.x rd <<< shamt.toNat) 2 s

/-- C.LWSP (R392). -/
def execCLwsp (rd : Reg) (uimm : BitVec 8) (s : State) : Result := loadInto .word id rd (s.spDataAddr uimm) 2 s

/-- C.JR (R393). -/
def execCJr (rs1 : Reg) (s : State) : Result := .next (s.jumpTo (clearBit0 (s.x rs1)))

/-- C.MV (R394). -/
def execCMv (rd rs2 : Reg) (s : State) : Result := retire rd (s.x rs2) 2 s

/-- C.EBREAK (R395). -/
def execCEbreak (s : State) : Result := .next (takeException .breakpoint s)

/-- C.JALR (R396): `x[rs1]` is read before `x[1]` is written; the link is `pc + 2`. -/
def execCJalr (rs1 : Reg) (s : State) : Result := linkAndJump 1 (clearBit0 (s.x rs1)) 2 s

/-- C.ADD (R397). -/
def execCAdd (rd rs2 : Reg) (s : State) : Result := retire rd (s.x rd + s.x rs2) 2 s

/-- C.SWSP (R398). -/
def execCSwsp (rs2 : Reg) (uimm : BitVec 8) (s : State) : Result :=
  storeFrom .word (s.spDataAddr uimm) (s.x rs2) 2 s

end Sys2Proof.Machine
end

