-- ==== Sys2Proof/Machine/Control.lean ====
section
/-! DEFINITION. The control transfer instructions (41_control_transfer.md R230 to R239). None of them raises an
exception: an odd target cannot arise, and a target that cannot be fetched traps at its fetch (R238). -/

namespace Sys2Proof.Machine

/-- JAL (R230). -/
def execJal (rd : Reg) (off : BitVec 21) (s : State) : Result := linkAndJump rd (s.pc + offJ off) 4 s

/-- JALR (R231): the target is computed before `rd` is written. -/
def execJalr (rd rs1 : Reg) (imm : BitVec 12) (s : State) : Result :=
  linkAndJump rd (clearBit0 (s.x rs1 + imm12 imm)) 4 s

/-- BEQ (R232). -/
def execBeq (rs1 rs2 : Reg) (off : BitVec 13) (s : State) : Result := branchIf (s.x rs1 == s.x rs2) (offB off) 4 s

/-- BNE (R233). -/
def execBne (rs1 rs2 : Reg) (off : BitVec 13) (s : State) : Result := branchIf (s.x rs1 != s.x rs2) (offB off) 4 s

/-- BLT (R234). -/
def execBlt (rs1 rs2 : Reg) (off : BitVec 13) (s : State) : Result :=
  branchIf ((s.x rs1).slt (s.x rs2)) (offB off) 4 s

/-- BGE (R235). -/
def execBge (rs1 rs2 : Reg) (off : BitVec 13) (s : State) : Result :=
  branchIf (!(s.x rs1).slt (s.x rs2)) (offB off) 4 s

/-- BLTU (R236). -/
def execBltu (rs1 rs2 : Reg) (off : BitVec 13) (s : State) : Result :=
  branchIf ((s.x rs1).ult (s.x rs2)) (offB off) 4 s

/-- BGEU (R237). -/
def execBgeu (rs1 rs2 : Reg) (off : BitVec 13) (s : State) : Result :=
  branchIf (!(s.x rs1).ult (s.x rs2)) (offB off) 4 s

end Sys2Proof.Machine
end

