-- ==== Sys2Proof/Machine/Integer.lean ====
section
/-! DEFINITION. The integer computational instructions (40_integer_computational.md R200 to R221). -/

namespace Sys2Proof.Machine

/-- LUI (R200). -/
def execLui (rd : Reg) (imm : BitVec 20) (s : State) : Result := retire rd (immU imm) 4 s

/-- AUIPC (R201). -/
def execAuipc (rd : Reg) (imm : BitVec 20) (s : State) : Result := retire rd (s.pc + immU imm) 4 s

/-- ADDI (R202). -/
def execAddi (rd rs1 : Reg) (imm : BitVec 12) (s : State) : Result := retire rd (s.x rs1 + imm12 imm) 4 s

/-- SLTI (R203). -/
def execSlti (rd rs1 : Reg) (imm : BitVec 12) (s : State) : Result :=
  retire rd (boolWord ((s.x rs1).slt (imm12 imm))) 4 s

/-- SLTIU (R204): the immediate is sign-extended first, then read as unsigned. -/
def execSltiu (rd rs1 : Reg) (imm : BitVec 12) (s : State) : Result :=
  retire rd (boolWord ((s.x rs1).ult (imm12 imm))) 4 s

/-- XORI (R205). -/
def execXori (rd rs1 : Reg) (imm : BitVec 12) (s : State) : Result := retire rd (s.x rs1 ^^^ imm12 imm) 4 s

/-- ORI (R206). -/
def execOri (rd rs1 : Reg) (imm : BitVec 12) (s : State) : Result := retire rd (s.x rs1 ||| imm12 imm) 4 s

/-- ANDI (R207). -/
def execAndi (rd rs1 : Reg) (imm : BitVec 12) (s : State) : Result := retire rd (s.x rs1 &&& imm12 imm) 4 s

/-- SLLI (R208). -/
def execSlli (rd rs1 : Reg) (shamt : BitVec 5) (s : State) : Result := retire rd (s.x rs1 <<< shamt.toNat) 4 s

/-- SRLI (R209). -/
def execSrli (rd rs1 : Reg) (shamt : BitVec 5) (s : State) : Result := retire rd (s.x rs1 >>> shamt.toNat) 4 s

/-- SRAI (R210). -/
def execSrai (rd rs1 : Reg) (shamt : BitVec 5) (s : State) : Result :=
  retire rd ((s.x rs1).sshiftRight shamt.toNat) 4 s

/-- ADD (R211). -/
def execAdd (rd rs1 rs2 : Reg) (s : State) : Result := retire rd (s.x rs1 + s.x rs2) 4 s

/-- SUB (R212). -/
def execSub (rd rs1 rs2 : Reg) (s : State) : Result := retire rd (s.x rs1 - s.x rs2) 4 s

/-- SLL (R213). -/
def execSll (rd rs1 rs2 : Reg) (s : State) : Result := retire rd (s.x rs1 <<< shiftAmount (s.x rs2)) 4 s

/-- SLT (R214). -/
def execSlt (rd rs1 rs2 : Reg) (s : State) : Result := retire rd (boolWord ((s.x rs1).slt (s.x rs2))) 4 s

/-- SLTU (R215). -/
def execSltu (rd rs1 rs2 : Reg) (s : State) : Result := retire rd (boolWord ((s.x rs1).ult (s.x rs2))) 4 s

/-- XOR (R216). -/
def execXor (rd rs1 rs2 : Reg) (s : State) : Result := retire rd (s.x rs1 ^^^ s.x rs2) 4 s

/-- SRL (R217). -/
def execSrl (rd rs1 rs2 : Reg) (s : State) : Result := retire rd (s.x rs1 >>> shiftAmount (s.x rs2)) 4 s

/-- SRA (R218). -/
def execSra (rd rs1 rs2 : Reg) (s : State) : Result :=
  retire rd ((s.x rs1).sshiftRight (shiftAmount (s.x rs2))) 4 s

/-- OR (R219). -/
def execOr (rd rs1 rs2 : Reg) (s : State) : Result := retire rd (s.x rs1 ||| s.x rs2) 4 s

/-- AND (R220). -/
def execAnd (rd rs1 rs2 : Reg) (s : State) : Result := retire rd (s.x rs1 &&& s.x rs2) 4 s

end Sys2Proof.Machine
end

