-- ==== Sys2Proof/Machine/LoadStore.lean ====
section
/-! DEFINITION. The load and store instructions (42_load_store.md R250 to R259). -/

namespace Sys2Proof.Machine

/-- LB (R250). -/
def execLb (rd rs1 : Reg) (imm : BitVec 12) (s : State) : Result := loadInto .byte sextByte rd (s.dataAddr rs1 imm) 4 s

/-- LH (R251). -/
def execLh (rd rs1 : Reg) (imm : BitVec 12) (s : State) : Result := loadInto .half sextHalf rd (s.dataAddr rs1 imm) 4 s

/-- LW (R252). -/
def execLw (rd rs1 : Reg) (imm : BitVec 12) (s : State) : Result := loadInto .word id rd (s.dataAddr rs1 imm) 4 s

/-- LBU (R253). -/
def execLbu (rd rs1 : Reg) (imm : BitVec 12) (s : State) : Result := loadInto .byte zextByte rd (s.dataAddr rs1 imm) 4 s

/-- LHU (R254). -/
def execLhu (rd rs1 : Reg) (imm : BitVec 12) (s : State) : Result := loadInto .half zextHalf rd (s.dataAddr rs1 imm) 4 s

/-- SB (R255). -/
def execSb (rs2 rs1 : Reg) (imm : BitVec 12) (s : State) : Result := storeFrom .byte (s.dataAddr rs1 imm) (s.x rs2) 4 s

/-- SH (R256). -/
def execSh (rs2 rs1 : Reg) (imm : BitVec 12) (s : State) : Result := storeFrom .half (s.dataAddr rs1 imm) (s.x rs2) 4 s

/-- SW (R257). -/
def execSw (rs2 rs1 : Reg) (imm : BitVec 12) (s : State) : Result := storeFrom .word (s.dataAddr rs1 imm) (s.x rs2) 4 s

end Sys2Proof.Machine
end

