-- ==== Sys2Proof/Machine/MiscMem.lean ====
section
/-! DEFINITION. FENCE and FENCE.I: no-operations that complete (43_misc_mem.md R270, R271). Every field is accepted
and ignored. -/

namespace Sys2Proof.Machine

/-- FENCE (R270). -/
def execFence (_fm _pred _succ : BitVec 4) (_rs1 _rd : Reg) (s : State) : Result := .next (s.advance 4)

/-- FENCE.I (R271): it does not flush the translation caches. -/
def execFenceI (_imm : BitVec 12) (_rs1 _rd : Reg) (s : State) : Result := .next (s.advance 4)

end Sys2Proof.Machine
end

