-- ==== Sys2Proof/Machine/MulDiv.lean ====
section
/-! DEFINITION. The M extension (44_m_extension.md R280 to R288). No instruction of it traps. -/

namespace Sys2Proof.Machine

/-- Bits 63:32 of an exact product. -/
def highHalf (p : Int) : Word := (BitVec.ofInt 64 p).extractLsb' 32 32

/-- The low 32 bits of the product (R280). -/
def mulWord (a b : Word) : Word := a * b

/-- Signed by signed (R281). -/
def mulhWord (a b : Word) : Word := highHalf (a.toInt * b.toInt)

/-- Signed by unsigned (R282). -/
def mulhsuWord (a b : Word) : Word := highHalf (a.toInt * (b.toNat : Int))

/-- Unsigned by unsigned (R283). -/
def mulhuWord (a b : Word) : Word := highHalf ((a.toNat : Int) * (b.toNat : Int))

/-- Signed division, rounding toward zero (R284). -/
def divWord (a b : Word) : Word :=
  if b = 0#32 then 0xFFFFFFFF#32
  else if a = 0x80000000#32 ∧ b = 0xFFFFFFFF#32 then 0x80000000#32
  else BitVec.ofInt 32 (a.toInt.tdiv b.toInt)

/-- Unsigned division (R285). -/
def divuWord (a b : Word) : Word := if b = 0#32 then 0xFFFFFFFF#32 else BitVec.ofNat 32 (a.toNat / b.toNat)

/-- Signed remainder, with the sign of the dividend (R286). -/
def remWord (a b : Word) : Word :=
  if b = 0#32 then a
  else if a = 0x80000000#32 ∧ b = 0xFFFFFFFF#32 then 0#32
  else BitVec.ofInt 32 (a.toInt - b.toInt * a.toInt.tdiv b.toInt)

/-- Unsigned remainder (R287). -/
def remuWord (a b : Word) : Word := if b = 0#32 then a else BitVec.ofNat 32 (a.toNat % b.toNat)

/-- MUL (R280). -/
def execMul (rd rs1 rs2 : Reg) (s : State) : Result := retire rd (mulWord (s.x rs1) (s.x rs2)) 4 s

/-- MULH (R281). -/
def execMulh (rd rs1 rs2 : Reg) (s : State) : Result := retire rd (mulhWord (s.x rs1) (s.x rs2)) 4 s

/-- MULHSU (R282). -/
def execMulhsu (rd rs1 rs2 : Reg) (s : State) : Result := retire rd (mulhsuWord (s.x rs1) (s.x rs2)) 4 s

/-- MULHU (R283). -/
def execMulhu (rd rs1 rs2 : Reg) (s : State) : Result := retire rd (mulhuWord (s.x rs1) (s.x rs2)) 4 s

/-- DIV (R284). -/
def execDiv (rd rs1 rs2 : Reg) (s : State) : Result := retire rd (divWord (s.x rs1) (s.x rs2)) 4 s

/-- DIVU (R285). -/
def execDivu (rd rs1 rs2 : Reg) (s : State) : Result := retire rd (divuWord (s.x rs1) (s.x rs2)) 4 s

/-- REM (R286). -/
def execRem (rd rs1 rs2 : Reg) (s : State) : Result := retire rd (remWord (s.x rs1) (s.x rs2)) 4 s

/-- REMU (R287). -/
def execRemu (rd rs1 rs2 : Reg) (s : State) : Result := retire rd (remuWord (s.x rs1) (s.x rs2)) 4 s

end Sys2Proof.Machine
end

