-- ==== Sys2Proof/Machine/System.lean ====
section
/-! DEFINITION. The system and privileged instructions (47_system_privileged.md R350 to R356). -/

namespace Sys2Proof.Machine

/-- The exception of ECALL at a privilege level (R350). -/
def ecallExc : Priv → Exc
  | .u => .ecallFromU
  | .s => .ecallFromS
  | .m => .ecallFromM

/-- ECALL (R350): always the trap. -/
def execEcall (s : State) : Result := .next (takeException (ecallExc s.priv) s)

/-- EBREAK (R351): always the trap. -/
def execEbreak (s : State) : Result := .next (takeException .breakpoint s)

/-- MRET (R352): illegal below Machine. -/
def execMret (s : State) : Result := if s.priv = .m then .next (trapReturnM s) else illegal .mret s

/-- SRET (R353): illegal in U, and in S when `TSR` is set. -/
def execSret (s : State) : Result :=
  if s.priv = .u ∨ (s.priv = .s ∧ mstatusTsr s.mstatus = true) then illegal .sret s else .next (trapReturnS s)

/-- WFI (R354): illegal in U, and in S when `TW` is set; the core halts when nothing is pending and enabled. -/
def execWfi (s : State) : Result :=
  if s.priv = .u ∨ (s.priv = .s ∧ mstatusTw s.mstatus = true) then illegal .wfi s
  else .next ({ s with halted := s.halted || s.mip &&& s.mie == 0#32 }.advance 4)

/-- SFENCE.VMA (R355): illegal in U, and in S when `TVM` is set; a flush of everything, whatever the operands. -/
def execSfenceVma (rs1 rs2 : Reg) (s : State) : Result :=
  if s.priv = .u ∨ (s.priv = .s ∧ mstatusTvm s.mstatus = true) then illegal (.sfenceVma rs1 rs2) s
  else .next (s.flushTlb.advance 4)

end Sys2Proof.Machine
end

