-- ==== Sys2Proof/Machine/Csr.lean ====
section
/-! DEFINITION. The control and status registers: addresses, access checks, reads and writes (10_state.md R40 to
R80; 46_zicsr.md R330). -/

namespace Sys2Proof.Machine

/-- The implemented CSRs (R43). The hardware performance registers read zero and ignore writes (R75, R78), so one
name stands for each range of them. -/
inductive Csr where
  | sstatus
  | sie
  | stvec
  | scounteren
  | sscratch
  | sepc
  | scause
  | stval
  | sip
  | satp
  | mstatus
  | misa
  | medeleg
  | mideleg
  | mie
  | mtvec
  | mcounteren
  | mhpmevent
  | mscratch
  | mepc
  | mcause
  | mtval
  | mip
  | mcycle
  | minstret
  | mhpmcounter
  | mcycleh
  | minstreth
  | mhpmcounterh
  | cycle
  | time
  | instret
  | hpmcounter
  | cycleh
  | timeh
  | instreth
  | hpmcounterh
  | mvendorid
  | marchid
  | mimpid
  | mhartid
  deriving DecidableEq, Repr

/-- `lo ≤ a ≤ hi`. -/
def addrIn (lo hi : Nat) (a : BitVec 12) : Bool := decide (lo ≤ a.toNat) && decide (a.toNat ≤ hi)

/-- The addresses that name a range of performance registers (R75, R78). -/
def csrOfRange (a : BitVec 12) : Option Csr :=
  if addrIn 0x323 0x33F a then some .mhpmevent
  else if addrIn 0xB03 0xB1F a then some .mhpmcounter
  else if addrIn 0xB83 0xB9F a then some .mhpmcounterh
  else if addrIn 0xC03 0xC1F a then some .hpmcounter
  else if addrIn 0xC83 0xC9F a then some .hpmcounterh
  else none

/-- The register at an address, `none` where none is implemented (R43, R79). -/
def csrOf (a : BitVec 12) : Option Csr :=
  match a with
  | 0x100#12 => some .sstatus
  | 0x104#12 => some .sie
  | 0x105#12 => some .stvec
  | 0x106#12 => some .scounteren
  | 0x140#12 => some .sscratch
  | 0x141#12 => some .sepc
  | 0x142#12 => some .scause
  | 0x143#12 => some .stval
  | 0x144#12 => some .sip
  | 0x180#12 => some .satp
  | 0x300#12 => some .mstatus
  | 0x301#12 => some .misa
  | 0x302#12 => some .medeleg
  | 0x303#12 => some .mideleg
  | 0x304#12 => some .mie
  | 0x305#12 => some .mtvec
  | 0x306#12 => some .mcounteren
  | 0x340#12 => some .mscratch
  | 0x341#12 => some .mepc
  | 0x342#12 => some .mcause
  | 0x343#12 => some .mtval
  | 0x344#12 => some .mip
  | 0xB00#12 => some .mcycle
  | 0xB02#12 => some .minstret
  | 0xB80#12 => some .mcycleh
  | 0xB82#12 => some .minstreth
  | 0xC00#12 => some .cycle
  | 0xC01#12 => some .time
  | 0xC02#12 => some .instret
  | 0xC80#12 => some .cycleh
  | 0xC81#12 => some .timeh
  | 0xC82#12 => some .instreth
  | 0xF11#12 => some .mvendorid
  | 0xF12#12 => some .marchid
  | 0xF13#12 => some .mimpid
  | 0xF14#12 => some .mhartid
  | _ => csrOfRange a

/-! ## Access checks -/

/-- A counter address of R74. -/
def isCounterAddr (a : BitVec 12) : Bool := addrIn 0xC00 0xC1F a || addrIn 0xC80 0xC9F a

/-- `csr_check(a, w)` passes (R40): a write of a read-only address and a privilege below the minimum do not. -/
def csrCheck (a : BitVec 12) (w : Bool) (p : Priv) : Bool :=
  !(w && isCounterAddr a) && !(w && a.extractLsb' 10 2 == 3#2) && decide ((a.extractLsb' 8 2).toNat ≤ p.level)

/-- The counter enables (R74). -/
def counterEnabled (a : BitVec 12) (s : State) : Bool :=
  match s.priv with
  | .m => true
  | .s => s.mcounteren.getLsbD (a.extractLsb' 0 5).toNat
  | .u => s.mcounteren.getLsbD (a.extractLsb' 0 5).toNat && s.scounteren.getLsbD (a.extractLsb' 0 5).toNat

/-- The per-register access conditions (R63, R74). -/
def csrCondition (a : BitVec 12) (c : Csr) (s : State) : Bool :=
  !(c == .satp && s.priv == .s && mstatusTvm s.mstatus) && (!isCounterAddr a || counterEnabled a s)

/-- Steps 1 to 3 of 46_zicsr.md R330: the register that the access reaches, `none` where it is illegal. -/
def csrSelect (a : BitVec 12) (w : Bool) (s : State) : Option Csr :=
  if csrCheck a w s.priv then
    match csrOf a with
    | some c => if csrCondition a c s then some c else none
    | none => none
  else none

/-! ## Reads (R41) -/

/-- A call of `get_time()`: a free value (R76, log 5), recorded in `bus`. -/
def getTime (s : State) : DWord × State := (Config.realTime s.bus, { s with bus := .getTime :: s.bus })

/-- `csr_read`. -/
def csrRead (c : Csr) (s : State) : Word × State :=
  match c with
  | .sstatus => (s.mstatus &&& sstatusReadMask, s)
  | .sie => (s.mie &&& s.mideleg, s)
  | .stvec => (s.stvec, s)
  | .scounteren => (s.scounteren, s)
  | .sscratch => (s.sscratch, s)
  | .sepc => (s.sepc, s)
  | .scause => (s.scause, s)
  | .stval => (s.stval, s)
  | .sip => (s.mip &&& s.mideleg, s)
  | .satp => (s.satp, s)
  | .mstatus => (s.mstatus, s)
  | .misa => (0x40141105#32, s)
  | .medeleg => (s.medeleg, s)
  | .mideleg => (s.mideleg, s)
  | .mie => (s.mie, s)
  | .mtvec => (s.mtvec, s)
  | .mcounteren => (s.mcounteren, s)
  | .mscratch => (s.mscratch, s)
  | .mepc => (s.mepc, s)
  | .mcause => (s.mcause, s)
  | .mtval => (s.mtval, s)
  | .mip => (s.mip, s)
  | .mcycle | .minstret | .cycle | .instret => (s.mcycle.extractLsb' 0 32, s)
  | .mcycleh | .minstreth | .cycleh | .instreth => (s.mcycle.extractLsb' 32 32, s)
  | .time => ((getTime s).1.extractLsb' 0 32, (getTime s).2)
  | .timeh => ((getTime s).1.extractLsb' 32 32, (getTime s).2)
  | .mhpmevent | .mhpmcounter | .mhpmcounterh | .hpmcounter | .hpmcounterh => (0#32, s)
  | .mvendorid | .marchid | .mimpid | .mhartid => (0#32, s)

/-! ## Writes (R42) -/

/-- The bits of an interrupt bitmap that the core can service (R51). -/
def mieMask : Word := 0xAAA#32

/-- The interrupts that can be delegated, and the pending bits that software writes (R50, R52). -/
def midelegMask : Word := 0x222#32

/-- `medeleg` stores every bit but bit 11 (R49). -/
def medelegMask : Word := 0xFFFFF7FF#32

/-- Bit 1 of a trap vector is hardwired to zero (R55, R56). -/
def tvecMask : Word := 0xFFFFFFFD#32

/-- `satp` without its ASID field (R63). -/
def satpMask : Word := 0x803FFFFF#32

/-- A write of `mstatus` (R46). -/
def writeMstatus (v : Word) (s : State) : State :=
  { s.flushIf (mstatusWriteFlushes s.mstatus (mstatusAfterWrite s.mstatus v)) with
    mstatus := mstatusAfterWrite s.mstatus v }

/-- A write of `sstatus` (R47). -/
def writeSstatus (v : Word) (s : State) : State :=
  { s.flushIf (sstatusWriteFlushes s.mstatus (sstatusAfterWrite s.mstatus v)) with
    mstatus := sstatusAfterWrite s.mstatus v }

/-- A write of `satp` (R63): the translation caches are flushed when the stored value changes. -/
def writeSatp (v : Word) (s : State) : State := { s.flushIf (v &&& satpMask != s.satp) with satp := v &&& satpMask }

/-- A write of the counter's low half (R71). -/
def writeMcycleLow (v : Word) (s : State) : State := { s with mcycle := s.mcycle.extractLsb' 32 32 ++ v }

/-- A write of the counter's high half (R71). -/
def writeMcycleHigh (v : Word) (s : State) : State := { s with mcycle := v ++ s.mcycle.extractLsb' 0 32 }

/-- `csr_write`. The registers whose address is read-only are never written: `csrCheck` stops the instruction. -/
def csrWrite (c : Csr) (v : Word) (s : State) : State :=
  match c with
  | .sstatus => writeSstatus v s
  | .sie => { s with mie := maskedWrite s.mideleg s.mie v }
  | .stvec => { s with stvec := v &&& tvecMask }
  | .scounteren => { s with scounteren := v }
  | .sscratch => { s with sscratch := v }
  | .sepc => { s with sepc := v }
  | .scause => { s with scause := v }
  | .stval => { s with stval := v }
  | .sip => { s with mip := maskedWrite s.mideleg s.mip v }
  | .satp => writeSatp v s
  | .mstatus => writeMstatus v s
  | .misa => s
  | .medeleg => { s with medeleg := v &&& medelegMask }
  | .mideleg => { s with mideleg := v &&& midelegMask }
  | .mie => { s with mie := maskedWrite mieMask s.mie v }
  | .mtvec => { s with mtvec := v &&& tvecMask }
  | .mcounteren => { s with mcounteren := v }
  | .mscratch => { s with mscratch := v }
  | .mepc => { s with mepc := v }
  | .mcause => { s with mcause := v }
  | .mtval => { s with mtval := v }
  | .mip => { s with mip := maskedWrite midelegMask s.mip v }
  | .mcycle | .minstret => writeMcycleLow v s
  | .mcycleh | .minstreth => writeMcycleHigh v s
  | .mhpmevent | .mhpmcounter | .mhpmcounterh => s
  | .cycle | .time | .instret | .hpmcounter | .cycleh | .timeh | .instreth | .hpmcounterh => s
  | .mvendorid | .marchid | .mimpid | .mhartid => s

/-! ## The six instructions' common form (46_zicsr.md R330) -/

/-- Steps 4 to 6 on the register reached: read (if `reads`), write (if `writes`) the value computed from the old one, then
`x[rd]`; completion. -/
def csrAccess (c : Csr) (rd : Reg) (writes reads : Bool) (f : Word → Word) (s : State) : Result :=
  let r := if reads then csrRead c s else (0#32, s)
  let s' := if writes then csrWrite c (f r.1) r.2 else r.2
  .next ((if reads then s'.setX rd r.1 else s').advance 4)

/-- The whole of R330: the checks, the illegal-instruction exception of `i` where one fails, the access. -/
def csrOp (i : Instr) (a : BitVec 12) (rd : Reg) (writes reads : Bool) (f : Word → Word) (s : State) : Result :=
  match csrSelect a writes s with
  | some c => csrAccess c rd writes reads f s
  | none => illegal i s

end Sys2Proof.Machine
end

