-- ==== Sys2Proof/Machine/Zicsr.lean ====
section
/-! DEFINITION. The six CSR instructions (46_zicsr.md R330 to R339). Whether one writes depends on its encoding
alone (R337); CSRRW and CSRRWI do not read when `rd = x0` (R338). -/

namespace Sys2Proof.Machine

/-- CSRRW (R331). -/
def execCsrrw (rd rs1 : Reg) (csr : BitVec 12) (s : State) : Result :=
  csrOp (.csrrw rd rs1 csr) csr rd true (rd != 0) (fun _ => s.x rs1) s

/-- CSRRS (R332). -/
def execCsrrs (rd rs1 : Reg) (csr : BitVec 12) (s : State) : Result :=
  csrOp (.csrrs rd rs1 csr) csr rd (rs1 != 0) true (fun old => old ||| s.x rs1) s

/-- CSRRC (R333). -/
def execCsrrc (rd rs1 : Reg) (csr : BitVec 12) (s : State) : Result :=
  csrOp (.csrrc rd rs1 csr) csr rd (rs1 != 0) true (fun old => old &&& ~~~s.x rs1) s

/-- CSRRWI (R334). -/
def execCsrrwi (rd : Reg) (uimm : BitVec 5) (csr : BitVec 12) (s : State) : Result :=
  csrOp (.csrrwi rd uimm csr) csr rd true (rd != 0) (fun _ => uimm5 uimm) s

/-- CSRRSI (R335). -/
def execCsrrsi (rd : Reg) (uimm : BitVec 5) (csr : BitVec 12) (s : State) : Result :=
  csrOp (.csrrsi rd uimm csr) csr rd (uimm != 0) true (fun old => old ||| uimm5 uimm) s

/-- CSRRCI (R336). -/
def execCsrrci (rd : Reg) (uimm : BitVec 5) (csr : BitVec 12) (s : State) : Result :=
  csrOp (.csrrci rd uimm csr) csr rd (uimm != 0) true (fun old => old &&& ~~~uimm5 uimm) s

end Sys2Proof.Machine
end

