-- ==== Sys2Proof/Machine/Interrupts.lean ====
section
/-! DEFINITION. Which interrupt a step takes: admission and priority (60_exceptions.md R445, R446). -/

namespace Sys2Proof.Machine

/-- All ones, or zero: the mask of a global enable bit (R446). -/
def gate (b : Bool) : Word := if b then 0xFFFFFFFF#32 else 0#32

/-- `E`, the admitted interrupts, under `IRQ_ADMISSION` (R446, log 17). -/
def admittedSet (s : State) : Word :=
  match s.plat.irqAdmission with
  | .document =>
    match s.priv with
    | .m => ((s.mip &&& s.mie) &&& ~~~s.mideleg) ||| ((s.mip &&& s.mie) &&& s.mideleg &&& gate (mstatusMie s.mstatus))
    | .s => ((s.mip &&& s.mie) &&& s.mideleg) ||| ((s.mip &&& s.mie) &&& ~~~s.mideleg &&& gate (mstatusSie s.mstatus))
    | .u => s.mip &&& s.mie
  | .privilegedSpec =>
    match s.priv with
    | .m => (s.mip &&& s.mie) &&& ~~~s.mideleg &&& gate (mstatusMie s.mstatus)
    | .s => ((s.mip &&& s.mie) &&& ~~~s.mideleg) ||| ((s.mip &&& s.mie) &&& s.mideleg &&& gate (mstatusSie s.mstatus))
    | .u => s.mip &&& s.mie

/-- The fixed priority order (R445). -/
def irqPriority : List Nat := [11, 3, 7, 9, 1, 5]

/-- The interrupt that this step takes, if any (R445): the first of the order that is admitted. -/
def pendingInterrupt (s : State) : Option Nat := irqPriority.find? (fun c => (admittedSet s).getLsbD c)

end Sys2Proof.Machine
end

