-- ==== Sys2Proof/Machine/Step.lean ====
section
/-! DEFINITION. One step: one iteration of the loop of 70_reset_and_hazards.md R482 (log 7). -/

namespace Sys2Proof.Machine

/-- Decode and execute what was fetched; an undefined encoding raises IllegalInstruction with the word (R424). -/
def runRaw (raw : RawInstr) (s : State) : Result :=
  match decodeRaw raw with
  | .ok i => exec i s
  | .error _ => .next (takeException (.illegalInstruction raw.toWord) s)

/-- The instruction branch of an iteration: fetch, decode, execute. -/
def instrStep (s : State) : Result := (fetchInstr s).conclude runRaw

/-- One iteration: an admitted interrupt is taken, else one instruction executes or traps; a halted core does not
change (R482, log 8). -/
def step (s : State) : Host.Outcome State Fault Refusal :=
  if s.halted then .next s
  else match pendingInterrupt s with
    | some code => .next (trapEntry code true 0 s)
    | none => instrStep s

/-- `s` with the word `w` of an opcode-table row of `nbits` bits placed where the next fetch reads (log 2, log 18). -/
def State.withFetchWord (s : State) (nbits w : Nat) : State := s.placeWord (BitVec.ofNat 32 (w % 2 ^ nbits))

end Sys2Proof.Machine
end

