-- ==== Sys2Proof/Machine/HostOps.lean ====
section
/-! DEFINITION. What the outside of the core does to it between two steps (00_scope.md R6; 60_exceptions.md R440,
R441; 70_reset_and_hazards.md R480 to R489; 20_memory.md R160). -/

namespace Sys2Proof.Machine

/-- A snapshot: every architectural field, no translation cache, no memory (R485, R486). -/
structure Snapshot where
  regs : Vector Word 32
  pc : Word
  priv : Priv
  halted : Bool
  reservation : Option Word
  mcycle : DWord
  mstatus : Word
  medeleg : Word
  mideleg : Word
  mie : Word
  mip : Word
  mtvec : Word
  stvec : Word
  mcounteren : Word
  scounteren : Word
  mscratch : Word
  sscratch : Word
  mepc : Word
  sepc : Word
  mcause : Word
  scause : Word
  mtval : Word
  stval : Word
  satp : Word
  deriving DecidableEq, Repr

/-- The invariants of `mstatus` (10_state.md R80). -/
def mstatusWf (w : Word) : Bool :=
  w &&& ~~~0x807FF9BB#32 == 0#32 && mstatusMpp w != 2#2 &&
    w.getLsbD 31 == (mstatusFs w == 3#2 || mstatusXs w == 3#2)

/-- The invariants of the stored CSRs (R80). -/
def csrWf (mstatus satp mideleg medeleg mie mtvec stvec : Word) : Bool :=
  mstatusWf mstatus && satp &&& 0x7FC00000#32 == 0#32 && mideleg &&& ~~~0x222#32 == 0#32 && !medeleg.getLsbD 11 &&
    mie &&& ~~~0xAAA#32 == 0#32 && !mtvec.getLsbD 1 && !stvec.getLsbD 1

/-- The precondition of `set_state` (R487): R80 and `x[0] = 0`. -/
def Snapshot.wf (p : Snapshot) : Bool :=
  p.regs.get 0 == 0#32 && csrWf p.mstatus p.satp p.mideleg p.medeleg p.mie p.mtvec p.stvec

/-- `get_state()` (R485). -/
def getState (s : State) : Snapshot :=
  { regs := s.regs, pc := s.pc, priv := s.priv, halted := s.halted, reservation := s.reservation
    mcycle := s.mcycle, mstatus := s.mstatus, medeleg := s.medeleg, mideleg := s.mideleg, mie := s.mie
    mip := s.mip, mtvec := s.mtvec, stvec := s.stvec, mcounteren := s.mcounteren, scounteren := s.scounteren
    mscratch := s.mscratch, sscratch := s.sscratch, mepc := s.mepc, sepc := s.sepc, mcause := s.mcause
    scause := s.scause, mtval := s.mtval, stval := s.stval, satp := s.satp }

/-- Every field of a snapshot put into the state, and the flush (R487). -/
def loadSnapshot (p : Snapshot) (s : State) : State :=
  { s with
    regs := p.regs, pc := p.pc, priv := p.priv, halted := p.halted, reservation := p.reservation
    mcycle := p.mcycle, mstatus := p.mstatus, medeleg := p.medeleg, mideleg := p.mideleg, mie := p.mie
    mip := p.mip, mtvec := p.mtvec, stvec := p.stvec, mcounteren := p.mcounteren, scounteren := p.scounteren
    mscratch := p.mscratch, sscratch := p.sscratch, mepc := p.mepc, sepc := p.sepc, mcause := p.mcause
    scause := p.scause, mtval := p.mtval, stval := p.stval, satp := p.satp
    fetchTlb := [], readTlb := [], writeTlb := [] }

/-- `set_state(snapshot)`: refused where the precondition does not hold (R487, log 15). -/
def setState (p : Snapshot) (s : State) : Result :=
  if p.wf then .next (loadSnapshot p s) else .refused .illFormedSnapshot

/-- `raise_interrupts(mask)` (60_exceptions.md R440). -/
def raiseInterrupts (mask : Word) (s : State) : State :=
  { s with mip := s.mip ||| mask, halted := s.halted && (s.mip ||| mask) &&& s.mie == 0#32 }

/-- `lower_interrupts(mask)` (R441). -/
def lowerInterrupts (mask : Word) (s : State) : State := { s with mip := s.mip &&& ~~~mask }

/-- `reset()` (70_reset_and_hazards.md R484). -/
def hostReset (s : State) : State :=
  { s with
    pc := s.plat.bootPc
    priv := .m
    mstatus := setBit (setBit s.mstatus 3 false) 17 false
    mcause := 0#32
    halted := false
    reservation := none
    fetchTlb := []
    readTlb := []
    writeTlb := [] }

/-- `step(cycle_budget)`: iterations until the budget is used up or the core is halted; with it the number of
iterations made (R482). -/
def hostStep : Nat → State → Nat × Result
  | 0, s => (0, .next s)
  | n + 1, s =>
    if s.halted then (0, .next s)
    else match step s with
      | .next s' => ((hostStep n s').1 + 1, (hostStep n s').2)
      | .fault f => (0, .fault f)
      | .refused r => (0, .refused r)

/-- A write of one byte of RAM by a device or by the host (20_memory.md R160, log 19); another address has no bytes
to write. -/
def outsideWrite (pa : Word) (v : Byte) (s : State) : State :=
  match classify s.plat pa with
  | .ram _ => { s with mem := s.mem.setByte pa v }
  | .mmio _ | .unmapped => s

/-- A RAM range covers `BOOT_PC` (93_implementation_defined.md 1b; 70_reset_and_hazards.md R490): the byte at that
address is RAM. Nothing more is asked: a 16-bit instruction in the last halfword of RAM runs, and what cannot be fetched
takes the exceptions of 20_memory.md R122. -/
def bootInRam (p : Platform) : Bool :=
  match classify p p.bootPc with
  | .ram _ => true
  | .mmio _ | .unmapped => false

/-- Power-on over a platform. Refused, as 93_implementation_defined.md 1b says ("`refuse` (ill-formed `parameter`)"), where
no RAM range covers `BOOT_PC` or ranges overlap; the other obligations of 20_memory.md R105 are checked with the latter,
DESIGN CHOICE, log 15. -/
def powerOnChecked (p : Platform) : Result :=
  if platformWf p && bootInRam p then .next (State.powerOn p) else .refused .illFormedPlatform

/-- Everything an outside agent does to the state between two steps. `get_state` changes nothing. -/
inductive HostOp where
  | stepBudget (budget : Nat)
  | reset
  | raise (mask : Word)
  | lower (mask : Word)
  | restore (p : Snapshot)
  | writeByte (pa : Word) (v : Byte)
  deriving DecidableEq, Repr

/-- The effect of one host operation. -/
def hostApply (o : HostOp) (s : State) : Result :=
  match o with
  | .stepBudget n => (hostStep n s).2
  | .reset => .next (hostReset s)
  | .raise mask => .next (raiseInterrupts mask s)
  | .lower mask => .next (lowerInterrupts mask s)
  | .restore p => setState p s
  | .writeByte pa v => .next (outsideWrite pa v s)

end Sys2Proof.Machine
end

