-- ==== Sys2Proof/Safety.lean ====
section
/-! DEFINITION. What holds of every state that a run reaches, and the words in which the statements speak of a next
state. -/

namespace Sys2Proof.Machine

/-! ## The invariant -/

/-- An entry of a translation cache is sound: its delta is a whole number of pages and its page lies in the RAM
region it names (20_memory.md R150, R153). -/
def tlbEntryWf (p : Platform) (e : TlbEntry) : Bool :=
  e.delta.extractLsb' 0 12 == 0#12 && classify p (e.page ++ 0#12 + e.delta) == .ram e.region

/-- A translation cache in canonical form, every entry sound. -/
def tlbWf (p : Platform) (t : Tlb) : Bool := t.wf && t.all (tlbEntryWf p)

/-- Every listed byte of memory lies in RAM. -/
def memoryInRam (p : Platform) (m : Memory) : Bool :=
  m.all fun c => match classify p (BitVec.ofNat 32 c.1) with
    | .ram _ => true
    | .mmio _ | .unmapped => false

/-- The invariant of what accesses change: a platform as 20_memory.md R105 asks, memory and the translation caches
in their canonical form and sound. -/
structure State.StorageInv (s : State) : Prop where
  platform : platformWf s.plat = true
  memory : s.mem.wf = true
  inRam : memoryInRam s.plat s.mem = true
  fetchCache : tlbWf s.plat s.fetchTlb = true
  readCache : tlbWf s.plat s.readTlb = true
  writeCache : tlbWf s.plat s.writeTlb = true

/-- The CSR invariants (10_state.md R80). -/
def State.CsrInv (s : State) : Prop := csrWf s.mstatus s.satp s.mideleg s.medeleg s.mie s.mtvec s.stvec = true

/-- The invariant of the machine: `x[0]` zero (R21), the CSR invariants (R80), the storage invariants. -/
structure State.Inv (s : State) : Prop where
  zeroReg : s.regs.get 0 = 0#32
  csrs : s.CsrInv
  storage : s.StorageInv

/-! ## Words for next states -/

/-- `t` differs from `s` at most in what a memory access can change: RAM, the bus history, the translation caches. -/
def OnlyStorage (s t : State) : Prop :=
  t = { s with mem := t.mem, bus := t.bus, fetchTlb := t.fetchTlb, readTlb := t.readTlb, writeTlb := t.writeTlb }

/-- `t` is `s` after an instruction of `ilen` bytes that writes `v` to `rd` and nothing else: a write of `x[0]` is
discarded, every other register keeps its value, `pc` is past the instruction, `mcycle` one more (10_state.md R21, R24,
R72). -/
def Retires (s t : State) (rd : Reg) (v ilen : Word) : Prop :=
  (∀ r, t.x r = if r = rd ∧ r ≠ 0 then v else s.x r) ∧ t.pc = s.pc + ilen ∧ t.mcycle = s.mcycle + 1 ∧
    t = { s with regs := t.regs, pc := t.pc, mcycle := t.mcycle }

/-- `t` is `s` after a jump to `target` that writes `link` to `rd` and nothing else. -/
def Transfers (s t : State) (rd : Reg) (link target : Word) : Prop :=
  (∀ r, t.x r = if r = rd ∧ r ≠ 0 then link else s.x r) ∧ t.pc = target ∧ t.mcycle = s.mcycle + 1 ∧
    t = { s with regs := t.regs, pc := t.pc, mcycle := t.mcycle }

/-- `t` is `s` after a load of `v` into `rd` through the read translation cache: as `Retires`, and that cache may have
gained an entry. -/
def RetiresLoad (s t : State) (rd : Reg) (v ilen : Word) : Prop :=
  (∀ r, t.x r = if r = rd ∧ r ≠ 0 then v else s.x r) ∧ t.pc = s.pc + ilen ∧ t.mcycle = s.mcycle + 1 ∧
    t = { s with regs := t.regs, pc := t.pc, mcycle := t.mcycle, readTlb := t.readTlb }

/-- `t` is `s` after a store of the low `n` bytes of `v` at physical address `pa` in RAM: those bytes hold the value,
little-endian, every other byte of memory reads as before, and nothing else changed but `pc`, `mcycle` and the write
translation cache. -/
def RetiresStore (s t : State) (pa : Word) (n : AccessSize) (v ilen : Word) : Prop :=
  (∀ a, t.mem.byteAt a = if (a - pa).toNat < sizeBytes n then byteOf v (a - pa).toNat else s.mem.byteAt a) ∧
    t.mem.wf = true ∧ t.pc = s.pc + ilen ∧ t.mcycle = s.mcycle + 1 ∧
    t = { s with pc := t.pc, mcycle := t.mcycle, mem := t.mem, writeTlb := t.writeTlb }

/-- `t` is `s` after an atomic access at `pa` in RAM that writes `old` to `rd` and the word `new` to memory. -/
def RetiresAmo (s t : State) (rd : Reg) (pa old new : Word) : Prop :=
  (∀ r, t.x r = if r = rd ∧ r ≠ 0 then old else s.x r) ∧
    (∀ a, t.mem.byteAt a = if (a - pa).toNat < 4 then byteOf new (a - pa).toNat else s.mem.byteAt a) ∧
    t.mem.wf = true ∧ t.pc = s.pc + 4 ∧ t.mcycle = s.mcycle + 1 ∧
    t = { s with regs := t.regs, pc := t.pc, mcycle := t.mcycle, mem := t.mem, writeTlb := t.writeTlb }

/-- The nine atomic memory operations (45_a_extension.md R305 to R313), each with the word it stores, computed from the
old word `t` and `x[rs2]`. -/
def amoTable (aq rl : Bool) (rd rs1 rs2 : Reg) : List (Instr × (Word → Word → Word)) :=
  [(.amoswapW aq rl rd rs1 rs2, fun _ v => v), (.amoaddW aq rl rd rs1 rs2, fun t v => BitVec.ofNat 32 (t.toNat + v.toNat)),
    (.amoxorW aq rl rd rs1 rs2, fun t v => t ^^^ v), (.amoandW aq rl rd rs1 rs2, fun t v => t &&& v),
    (.amoorW aq rl rd rs1 rs2, fun t v => t ||| v),
    (.amominW aq rl rd rs1 rs2, fun t v => if t.toInt < v.toInt then t else v),
    (.amomaxW aq rl rd rs1 rs2, fun t v => if t.toInt > v.toInt then t else v),
    (.amominuW aq rl rd rs1 rs2, fun t v => if t.toNat < v.toNat then t else v),
    (.amomaxuW aq rl rd rs1 rs2, fun t v => if t.toNat > v.toNat then t else v)]

/-- An access that meets no translation: aligned, the identity translation in force (Bare, or effective privilege M),
no entry for its page in the cache of its kind but one that the identity translation left there; `b` answers at the
address. -/
def PlainAccess (s : State) (k : AccessKind) (n : AccessSize) (va : Word) (b : Backing) : Prop :=
  va.toNat % sizeBytes n = 0 ∧ (s.effectivePriv k = .m ∨ s.satp.getLsbD 31 = false) ∧
    ((s.tlb k).lookup (pageOf va)).all (fun e => e.delta == 0#32 && Backing.ram e.region == b) = true ∧
    classify s.plat va = b

/-- The word at a physical address of RAM. -/
def RamWord (s : State) (pa w : Word) : Prop :=
  (∃ r, classify s.plat pa = .ram r) ∧
    s.mem.byteAt pa = byteOf w 0 ∧ s.mem.byteAt (pa + 1) = byteOf w 1 ∧ s.mem.byteAt (pa + 2) = byteOf w 2 ∧
    s.mem.byteAt (pa + 3) = byteOf w 3

/-- The trap of an instruction whose check fails (60_exceptions.md R424). -/
def TrapsIllegal (i : Instr) (s : State) : Prop :=
  exec i s = .next (takeException (.illegalInstruction (encode i).toWord) s)

/-- The reasons an access to CSR address `a` is illegal, with `w` whether the instruction writes (10_state.md R40, R63,
R74, R79). -/
def CsrRefused (a : BitVec 12) (w : Bool) (s : State) : Prop :=
  (w = true ∧ a.extractLsb' 10 2 = 3#2) ∨ s.priv.level < (a.extractLsb' 8 2).toNat ∨ csrOf a = none ∨
    (a = 0x180#12 ∧ s.priv = .s ∧ s.mstatus.getLsbD 20 = true) ∨
    (((0xC00 ≤ a.toNat ∧ a.toNat ≤ 0xC1F) ∨ (0xC80 ≤ a.toNat ∧ a.toNat ≤ 0xC9F)) ∧ s.priv ≠ .m ∧
      ¬ (s.mcounteren.getLsbD (a.toNat % 32) = true ∧ (s.priv = .u → s.scounteren.getLsbD (a.toNat % 32) = true)))

/-- The registers that only Machine level may write are the same. -/
def SameMachineCsrs (s t : State) : Prop :=
  t.medeleg = s.medeleg ∧ t.mideleg = s.mideleg ∧ t.mtvec = s.mtvec ∧ t.mcounteren = s.mcounteren ∧
    t.mscratch = s.mscratch ∧ t.mepc = s.mepc ∧ t.mcause = s.mcause ∧ t.mtval = s.mtval

/-- The registers that Supervisor level may write are the same. -/
def SameSupervisorCsrs (s t : State) : Prop :=
  t.stvec = s.stvec ∧ t.scounteren = s.scounteren ∧ t.sscratch = s.sscratch ∧ t.sepc = s.sepc ∧
    t.scause = s.scause ∧ t.stval = s.stval ∧ t.satp = s.satp ∧ t.mie = s.mie ∧ t.mip = s.mip

/-- `t` is `s` after the CSR instruction that reaches `c`, reads it if `reads`, writes `f` of what it read if `writes`,
and puts the old value in `rd` (46_zicsr.md R330): `pc` moves past it and `mcycle` counts one after the write. -/
def CsrCompletes (s t : State) (c : Csr) (rd : Reg) (writes reads : Bool) (f : Word → Word) : Prop :=
  (∀ r, t.x r = if r = rd ∧ r ≠ 0 ∧ reads = true then (csrRead c s).1 else s.x r) ∧
    ∃ u, u = (if writes then csrWrite c (f (csrRead c s).1) (if reads then (csrRead c s).2 else s)
        else if reads then (csrRead c s).2 else s) ∧
      t = { u with regs := t.regs, pc := s.pc + 4, mcycle := u.mcycle + 1 }

/-! ## Words that are no instruction -/

/-- The 16-bit words that 30_encoding.md R183 lists. -/
def IllegalHalf (c : Half) : Prop :=
  let q := c.extractLsb' 0 2
  let f := c.extractLsb' 13 3
  let b12 := c.extractLsb' 12 1
  (q = 0#2 ∧ f = 0#3 ∧ c.extractLsb' 5 8 = 0#8) ∨
    (q = 0#2 ∧ (f = 1#3 ∨ f = 3#3 ∨ f = 4#3 ∨ f = 5#3 ∨ f = 7#3)) ∨
    (q = 1#2 ∧ f = 3#3 ∧ b12 = 0#1 ∧ c.extractLsb' 2 5 = 0#5) ∨
    (q = 1#2 ∧ f = 4#3 ∧ (c.extractLsb' 10 2 = 0#2 ∨ c.extractLsb' 10 2 = 1#2 ∨ c.extractLsb' 10 2 = 3#2) ∧ b12 = 1#1) ∨
    (q = 2#2 ∧ f = 0#3 ∧ b12 = 1#1) ∨
    (q = 2#2 ∧ (f = 1#3 ∨ f = 3#3 ∨ f = 5#3 ∨ f = 7#3)) ∨
    (q = 2#2 ∧ f = 2#3 ∧ c.extractLsb' 7 5 = 0#5) ∨
    (q = 2#2 ∧ f = 4#3 ∧ b12 = 0#1 ∧ c.extractLsb' 7 5 = 0#5 ∧ c.extractLsb' 2 5 = 0#5)

/-- The 32-bit words that 30_encoding.md R177 lists. -/
def IllegalWord (w : Word) : Prop :=
  let op := w.extractLsb' 0 7
  let f3 := w.extractLsb' 12 3
  let f7 := w.extractLsb' 25 7
  let f5 := w.extractLsb' 27 5
  op ∉ [0x03#7, 0x0F#7, 0x13#7, 0x17#7, 0x23#7, 0x2F#7, 0x33#7, 0x37#7, 0x63#7, 0x67#7, 0x6F#7, 0x73#7] ∨
    (op = 0x03#7 ∧ f3 ∈ [3#3, 6#3, 7#3]) ∨ (op = 0x23#7 ∧ f3 ∈ [3#3, 4#3, 5#3, 6#3, 7#3]) ∨
    (op = 0x63#7 ∧ f3 ∈ [2#3, 3#3]) ∨ (op = 0x67#7 ∧ f3 ≠ 0#3) ∨ (op = 0x0F#7 ∧ f3 ∉ [0#3, 1#3]) ∨
    (op = 0x13#7 ∧ f3 = 1#3 ∧ f7 ≠ 0x00#7) ∨ (op = 0x13#7 ∧ f3 = 5#3 ∧ f7 ∉ [0x00#7, 0x20#7]) ∨
    (op = 0x33#7 ∧ f7 ∉ [0x00#7, 0x01#7, 0x20#7]) ∨ (op = 0x33#7 ∧ f7 = 0x20#7 ∧ f3 ∉ [0#3, 5#3]) ∨
    (op = 0x2F#7 ∧ f3 ≠ 2#3) ∨
    (op = 0x2F#7 ∧
      f5 ∉ [0x00#5, 0x01#5, 0x02#5, 0x03#5, 0x04#5, 0x08#5, 0x0C#5, 0x10#5, 0x14#5, 0x18#5, 0x1C#5]) ∨
    (op = 0x2F#7 ∧ f5 = 0x02#5 ∧ w.extractLsb' 20 5 ≠ 0#5) ∨ (op = 0x73#7 ∧ f3 = 4#3) ∨
    (op = 0x73#7 ∧ f3 = 0#3 ∧ w ∉ [0x00000073#32, 0x00100073#32, 0x10200073#32, 0x30200073#32, 0x10500073#32] ∧
      ¬ (f7 = 0x09#7 ∧ w.extractLsb' 7 5 = 0#5))

/-! ## Traps -/

/-- A Machine-level interrupt that is pending and enabled while the core runs in Machine mode under
`IRQ_ADMISSION = document`: what 60_exceptions.md R447 (a) speaks of. -/
def HandlerStarved (s : State) : Prop :=
  s.plat.irqAdmission = .document ∧ s.priv = .m ∧ s.halted = false ∧ s.mip &&& s.mie &&& ~~~s.mideleg &&& 0xAAA#32 ≠ 0#32

/-- Every translation cache is empty. -/
def CachesEmpty (t : State) : Prop := t.fetchTlb = [] ∧ t.readTlb = [] ∧ t.writeTlb = []

end Sys2Proof.Machine
end

