-- ==== Sys2Proof/Certificates/Slice0/Obligations.lean ====
section
/-! DEFINITION. The statements for the provers. Each docstring names the rules of spec/ it formalises. In them `a.toInt`
is `signed(a)` and `a.toNat` is `unsigned(a)` (00_scope.md R8). -/

section

open Sys2Proof Sys2Proof.Machine

/-! ## Encodings -/

/-- 30_encoding.md R171, R172, R175, R180, R182, 48_compressed.md: every well-formed instruction, with every operand at
every value its encoding admits, is what the decoder reads from its own words, and from its bytes in memory order
whatever follows them. -/
def Obligations.DecodeOfEncode : Prop :=
  ∀ i : Instr, i.wf = true →
    decodeRaw (encode i) = .ok i ∧ ∀ rest, decodeBytes (encodeBytes i ++ rest) = .ok (i, rest)

/-- R175, R182 ("The rows are disjoint"): a word has one meaning. What decodes is well formed, and encodes to the word it
came from: no bit of the word is dropped. -/
def Obligations.EncodeOfDecode : Prop :=
  ∀ raw i, decodeRaw raw = .ok i → i.wf = true ∧ encode i = raw

/-- R176, over the rows of R175: a 32-bit word that matches a row is executed as that row's instruction, whichever row it
is; a word that matches no row raises IllegalInstruction with the word. -/
def Obligations.WordDecodesToItsRow : Prop :=
  ∀ (w : Word) (s : State),
    (∀ i : Instr, i.isCompressed = false → w &&& i.rowMask = i.rowMatch →
      ∃ j, decodeWord w = some j ∧ j.rowMatch = i.rowMatch ∧ j.rowMask = i.rowMask ∧ runRaw (.full w) s = exec j s) ∧
    (∀ j, decodeWord w = some j → j.isCompressed = false ∧ w &&& j.rowMask = j.rowMatch) ∧
    ((∀ i : Instr, i.isCompressed = false → w &&& i.rowMask ≠ i.rowMatch) →
      runRaw (.full w) s = .next (takeException (.illegalInstruction w) s))

/-- R177, R182, R183: the words that are no instruction are exactly those the spec lists, and a 16-bit word that is one
lies in its row of R182. -/
def Obligations.UndefinedEncodings : Prop :=
  (∀ w : Word, w.extractLsb' 0 2 = 3#2 → (decodeWord w = none ↔ IllegalWord w)) ∧
    (∀ c : Half, c.extractLsb' 0 2 ≠ 3#2 → (decodeHalf c = none ↔ IllegalHalf c)) ∧
    (∀ c j, decodeHalf c = some j → j.isCompressed = true ∧ c.zeroExtend 32 &&& j.rowMask = j.rowMatch ∧ j.wf = true)

/-- The words of the spec's own examples, one or more of each family, decode to the instruction they stand for. A check
on fixed values. -/
def Obligations.SpecWordsDecode : Prop :=
  decodeWord 0x123452B7#32 = some (.lui 5 0x12345#20) ∧ decodeWord 0xFFF32293#32 = some (.slti 5 6 0xFFF#12) ∧
    decodeWord 0x40435293#32 = some (.srai 5 6 4#5) ∧ decodeWord 0x407302B3#32 = some (.sub 5 6 7) ∧
    decodeWord 0xFFDFF06F#32 = some (.jal 0 0x1FFFFC#21) ∧ decodeWord 0xFE029CE3#32 = some (.bne 5 0 0x1FF8#13) ∧
    decodeWord 0xFFC31283#32 = some (.lh 5 6 0xFFC#12) ∧ decodeWord 0xFE732E23#32 = some (.sw 7 6 0xFFC#12) ∧
    decodeWord 0x0FF0000F#32 = some (.fence 0 15 15 0 0) ∧ decodeWord 0x027322B3#32 = some (.mulhsu 5 6 7) ∧
    decodeWord 0x1A7322AF#32 = some (.scW false true 5 6 7) ∧ decodeWord 0x340FD2F3#32 = some (.csrrwi 5 31 0x340#12) ∧
    decodeWord 0x12628073#32 = some (.sfenceVma 5 6) ∧ decodeHalf 0x0808#16 = some (.cAddi4spn 2 16#10) ∧
    decodeHalf 0x7139#16 = some (.cAddi16sp 0x3C0#10) ∧ decodeHalf 0x2021#16 = some (.cJal 8#12) ∧
    decodeHalf 0xC501#16 = some (.cBeqz 2 8#9) ∧ decodeHalf 0x4532#16 = some (.cLwsp 10 12#8)

/-! ## The step -/

/-- 70_reset_and_hazards.md R482, 20_memory.md R123: where the core is not halted and no interrupt is admitted, a step is
`exec` of the instruction that the fetch reads, in the state that the fetch leaves; the fetch changes nothing but RAM
(accessed bits), the bus history and the translation caches. The step adds nothing else around `exec`. -/
def Obligations.StepRunsDecodedInstruction : Prop :=
  ∀ (s t : State) (raw : RawInstr) (i : Instr), s.halted = false → pendingInterrupt s = none →
    fetchInstr s = .ok raw t → decodeRaw raw = .ok i →
    step s = exec i t ∧ OnlyStorage s t ∧ t.pc = s.pc ∧ t.mcycle = s.mcycle

/-- R482, 20_memory.md R104, R122, R123: with the identity translation in force and RAM at `pc` (and at `pc + 2` where the
instruction is 32 bits long), a step runs the instruction that the decoder reads from the bytes of memory at `pc`; the
fetch changes the fetch translation cache only. -/
def Obligations.StepRunsBytesAtPc : Prop :=
  ∀ (s : State) (i : Instr) (rest : List Byte), s.StorageInv → s.halted = false → pendingInterrupt s = none →
    (∃ r, PlainAccess s .fetch .half s.pc (.ram r)) →
    ((s.mem.byteAt s.pc).extractLsb' 0 2 = 3#2 → ∃ r, PlainAccess s .fetch .half (s.pc + 2) (.ram r)) →
    decodeBytes [s.mem.byteAt s.pc, s.mem.byteAt (s.pc + 1), s.mem.byteAt (s.pc + 2), s.mem.byteAt (s.pc + 3)] =
      .ok (i, rest) →
    ∃ t, t = { s with fetchTlb := t.fetchTlb } ∧ step s = exec i t

/-- R482, 60_exceptions.md R424, 20_memory.md R122, R123: the iterations that run no instruction. A halted core does not
change; an admitted interrupt is taken and nothing else happens; a fetch that raises takes its exception, whose address is
`pc` or `pc + 2`; an undefined word takes IllegalInstruction with the word; an odd `pc` is misaligned; a fetch from what is
not RAM is an access fault without any bus access. -/
def Obligations.StepWithoutInstruction : Prop :=
  ∀ s : State,
    (s.halted = true → step s = .next s) ∧
    (∀ c, s.halted = false → pendingInterrupt s = some c → step s = .next (trapEntry c true 0#32 s)) ∧
    (s.halted = false → pendingInterrupt s = none →
      (∀ e t, fetchInstr s = .raise e t → step s = .next (takeException e t) ∧ OnlyStorage s t ∧
        (e = .instrAddrMisaligned s.pc ∨ ∃ a, (a = s.pc ∨ a = s.pc + 2) ∧ (e = .instrAccessFault a ∨ e = .instrPageFault a))) ∧
      (∀ raw d t, fetchInstr s = .ok raw t → decodeRaw raw = .error d →
        step s = .next (takeException (.illegalInstruction raw.toWord) t)) ∧
      (s.pc.getLsbD 0 = true → step s = .next (takeException (.instrAddrMisaligned s.pc) s)) ∧
      (∀ b, PlainAccess s .fetch .half s.pc b → (∀ r, b ≠ .ram r) →
        step s = .next (takeException (.instrAccessFault s.pc) s)))

/-- 60_exceptions.md R423: the core never aborts. Every instruction, and every step, from every state answers a next
state. -/
def Obligations.EveryStepAnswersNext : Prop :=
  (∀ i s, ∃ t, exec i s = .next t) ∧ ∀ s, ∃ t, step s = .next t

/-- 10_state.md R80, R90, 70_reset_and_hazards.md R488, R490: the reset state meets the invariant, and so does power-on over
every platform that meets 20_memory.md R105; power-on is not changed by a reset after it; it goes on wherever, besides, a
RAM range covers `BOOT_PC`, and is refused elsewhere (93_implementation_defined.md 1b). (The platform of the reset state is
the model's choice, log 1; so is the refusal of a map that breaks R105 in another way than by overlap, log 15.) -/
def Obligations.ResetMeetsInvariant : Prop :=
  State.reset.Inv ∧
    ∀ p, (platformWf p = true → (State.powerOn p).Inv ∧
        ((∃ r, classify p p.bootPc = .ram r) → powerOnChecked p = .next (State.powerOn p))) ∧
      hostApply .reset (State.powerOn p) = .next (State.powerOn p) ∧
      (platformWf p = false ∨ (∀ r, classify p p.bootPc ≠ .ram r) → powerOnChecked p = .refused .illFormedPlatform)

/-- R21, R80, 20_memory.md R105, R150: every step, from every state that meets it, keeps the invariant: `x[0]` is zero,
the reserved CSR bits keep their values and `MPP` a legal level, memory stays in its canonical form inside RAM, and every
entry of a translation cache stays sound. -/
def Obligations.StepKeepsInvariant : Prop :=
  ∀ s t, s.Inv → step s = .next t → t.Inv

/-- R80, 70_reset_and_hazards.md R480, R484, R487: so does every operation of the host and of the interrupt controller. -/
def Obligations.HostOperationsKeepInvariant : Prop :=
  ∀ (o : HostOp) (s t : State), s.Inv → hostApply o s = .next t → t.Inv

/-- 10_state.md R24, 41_control_transfer.md R238: no instruction but MRET and SRET makes an even `pc` odd, whether it
completes or traps; those two take theirs from `mepc` and `sepc`. -/
def Obligations.PcStaysEven : Prop :=
  ∀ (i : Instr) (s t : State), i.wf = true → s.pc.getLsbD 0 = false → exec i s = .next t →
    t.pc.getLsbD 0 = false ∨ (i = .mret ∧ t.pc = s.mepc) ∨ (i = .sret ∧ t.pc = s.sepc)

/-! ## Interrupts -/

/-- 60_exceptions.md R446, both values of `IRQ_ADMISSION`: which bits are admitted, bit by bit. -/
def Obligations.InterruptAdmission : Prop :=
  ∀ (s : State) (b : Nat), b < 32 →
    let pending := s.mip.getLsbD b && s.mie.getLsbD b
    let delegated := s.mideleg.getLsbD b
    (admittedSet s).getLsbD b =
      (pending && match s.plat.irqAdmission, s.priv with
        | _, .u => true
        | .document, .m => !delegated || s.mstatus.getLsbD 3
        | .document, .s => delegated || s.mstatus.getLsbD 1
        | .privilegedSpec, .m => !delegated && s.mstatus.getLsbD 3
        | .privilegedSpec, .s => !delegated || s.mstatus.getLsbD 1)

/-- R445: the interrupt that is taken, as a function of the admitted set alone; one for each iteration, the others stay
pending; a bit outside 0xAAA is never taken. -/
def Obligations.InterruptPriority : Prop :=
  ∀ s : State,
    let e := admittedSet s
    (e &&& 0xAAA#32 = 0#32 → pendingInterrupt s = none) ∧
    (e &&& 0xAAA#32 ≠ 0#32 → pendingInterrupt s = some
      (if e.getLsbD 11 then 11 else if e.getLsbD 3 then 3 else if e.getLsbD 7 then 7 else if e.getLsbD 9 then 9
        else if e.getLsbD 1 then 1 else 5)) ∧
    (∀ c, pendingInterrupt s = some c → e.getLsbD c = true ∧ (0xAAA#32).getLsbD c = true ∧
      (s.halted = false → ∃ t, step s = .next t ∧ t = trapEntry c true 0#32 s ∧ t.mip = s.mip))

/-- R447 (a): under `document`, where a Machine-level interrupt is pending and enabled in Machine mode, every step takes
an interrupt to the Machine handler again: the handler's first instruction never runs. -/
def Obligations.DocumentHandlerNeverRuns : Prop :=
  ∀ s : State, HandlerStarved s →
    ∃ c t, step s = .next t ∧ t = trapEntry c true 0#32 s ∧ t.mepc = s.pc ∧
      t.pc = trapVector s.mtvec c true ∧ HandlerStarved t

/-! ## Traps -/

/-- R450, R451, R452, R454, 10_state.md R72: a trap goes to Supervisor exactly when it is raised below Machine and its
delegation bit is set; which registers it saves and changes, bit by bit of `mstatus`; everything else is as before. -/
def Obligations.TrapEntry : Prop :=
  ∀ (s : State) (code : Nat) (intr : Bool) (value : Word), code < 32 →
    let t := trapEntry code intr value s
    let toS := s.priv ≠ .m ∧ (if intr = true then s.mideleg else s.medeleg).getLsbD code = true
    let cause := BitVec.ofNat 32 (code + if intr then 2 ^ 31 else 0)
    (toS → t.sepc = s.pc ∧ t.stval = value ∧ t.scause = cause ∧ t.priv = .s ∧ t.mepc = s.mepc ∧ t.mtval = s.mtval ∧
      t.mcause = s.mcause ∧
      ∀ b, b < 32 → t.mstatus.getLsbD b =
        if b = 5 then s.mstatus.getLsbD s.priv.level else if b = 8 then decide (s.priv = .s) else if b = 1 then false
        else s.mstatus.getLsbD b) ∧
    (¬ toS → t.mepc = s.pc ∧ t.mtval = value ∧ t.mcause = cause ∧ t.priv = .m ∧ t.sepc = s.sepc ∧ t.stval = s.stval ∧
      t.scause = s.scause ∧
      ∀ b, b < 32 → t.mstatus.getLsbD b =
        if b = 7 then s.mstatus.getLsbD s.priv.level else if b = 11 then decide (s.priv ≠ .u)
        else if b = 12 then decide (s.priv = .m) else if b = 3 then false else s.mstatus.getLsbD b) ∧
    t.mcycle = s.mcycle + 1 ∧ CachesEmpty t ∧
    t = { s with
      pc := t.pc, priv := t.priv, mcycle := t.mcycle, mstatus := t.mstatus, mepc := t.mepc, mcause := t.mcause
      mtval := t.mtval, sepc := t.sepc, scause := t.scause, stval := t.stval, fetchTlb := t.fetchTlb
      readTlb := t.readTlb, writeTlb := t.writeTlb }

/-- R453: the handler's address. In direct mode the base for every cause; in vectored mode the base for an exception and
`base + 4 * code` for an interrupt, which gives the six targets of the rule; nothing is read from memory; bit 1 of a
vector register cannot be set. -/
def Obligations.TrapVector : Prop :=
  ∀ (s : State) (code : Nat) (intr : Bool) (value v : Word),
    let t := trapEntry code intr value s
    let tvec := if t.priv = .m then s.mtvec else s.stvec
    let base := tvec &&& 0xFFFFFFFC#32
    (tvec.getLsbD 0 = false → t.pc = base) ∧ (intr = false → t.pc = base) ∧
    (tvec.getLsbD 0 = true → intr = true → t.pc = base + BitVec.ofNat 32 (4 * code)) ∧
    ([1, 3, 5, 7, 9, 11].map (fun c => trapVector (base ||| 1#32) c true) =
      [base + 4#32, base + 12#32, base + 20#32, base + 28#32, base + 36#32, base + 44#32]) ∧
    t.mem = s.mem ∧ t.bus = s.bus ∧ t.reservation = s.reservation ∧
    (csrWrite .mtvec v s).mtvec.getLsbD 1 = false ∧ (csrWrite .stvec v s).stvec.getLsbD 1 = false

/-- 47_system_privileged.md R350, R351, 48_compressed.md R395: the instructions whose effect is a trap. ECALL takes cause
8, 9 or 11 by the level it runs at, EBREAK and C.EBREAK cause 3, all with trap value 0 and the instruction's own address
saved. -/
def Obligations.EnvironmentTraps : Prop :=
  ∀ s : State,
    let ecallCode := match s.priv with | .u => 8 | .s => 9 | .m => 11
    exec .ecall s = .next (trapEntry ecallCode false 0#32 s) ∧ exec .ebreak s = .next (trapEntry 3 false 0#32 s) ∧
    exec .cEbreak s = .next (trapEntry 3 false 0#32 s) ∧
    (∀ (c : Nat), (c = ecallCode ∨ c = 3) → (s.priv = .m ∨ s.medeleg.getLsbD c = false) →
      (trapEntry c false 0#32 s).mcause = BitVec.ofNat 32 c ∧ (trapEntry c false 0#32 s).mepc = s.pc ∧
        (trapEntry c false 0#32 s).mtval = 0#32) ∧
    (∀ (c : Nat), (c = ecallCode ∨ c = 3) → s.priv ≠ .m → s.medeleg.getLsbD c = true →
      (trapEntry c false 0#32 s).scause = BitVec.ofNat 32 c ∧ (trapEntry c false 0#32 s).sepc = s.pc ∧
        (trapEntry c false 0#32 s).stval = 0#32)

/-- 47_system_privileged.md R352, R353, 60_exceptions.md R452, R455: MRET in Machine mode, and SRET in Machine mode or in
Supervisor mode with `TSR` clear, complete: the restored level's own enable bit receives the saved one, bit by bit;
everything that is not named is as before. `MPP` is never 2 (10_state.md R80). -/
def Obligations.TrapReturns : Prop :=
  ∀ s : State,
    (s.priv = .m → s.mstatus.extractLsb' 11 2 ≠ 2#2 → ∃ t, exec .mret s = .next t ∧ t.pc = s.mepc ∧
      t.priv.bits = s.mstatus.extractLsb' 11 2 ∧
      (∀ b, b < 32 → t.mstatus.getLsbD b =
        if b = 7 then true else if b = 11 ∨ b = 12 then false else if b = t.priv.level then s.mstatus.getLsbD 7
        else s.mstatus.getLsbD b) ∧
      t.mcycle = s.mcycle + 1 ∧ CachesEmpty t ∧
      t = { s with pc := t.pc, priv := t.priv, mstatus := t.mstatus, mcycle := t.mcycle, fetchTlb := t.fetchTlb, readTlb := t.readTlb, writeTlb := t.writeTlb }) ∧
    ((s.priv = .m ∨ s.priv = .s ∧ s.mstatus.getLsbD 22 = false) → ∃ t, exec .sret s = .next t ∧ t.pc = s.sepc ∧
      t.priv = (if s.mstatus.getLsbD 8 then .s else .u) ∧
      (∀ b, b < 32 → t.mstatus.getLsbD b =
        if b = 5 then true else if b = 8 then false else if b = t.priv.level then s.mstatus.getLsbD 5
        else s.mstatus.getLsbD b) ∧
      t.mcycle = s.mcycle + 1 ∧ CachesEmpty t ∧
      t = { s with pc := t.pc, priv := t.priv, mstatus := t.mstatus, mcycle := t.mcycle, fetchTlb := t.fetchTlb, readTlb := t.readTlb, writeTlb := t.writeTlb })

/-- R356: where the privileged instructions raise IllegalInstruction with their word, without any other effect. -/
def Obligations.PrivilegedInstructionsTrap : Prop :=
  ∀ (s : State) (rs1 rs2 : Reg),
    (s.priv ≠ .m → exec .mret s = .next (takeException (.illegalInstruction 0x30200073#32) s)) ∧
    (s.priv = .u ∨ s.priv = .s ∧ s.mstatus.getLsbD 22 = true →
      exec .sret s = .next (takeException (.illegalInstruction 0x10200073#32) s)) ∧
    (s.priv = .u ∨ s.priv = .s ∧ s.mstatus.getLsbD 21 = true →
      exec .wfi s = .next (takeException (.illegalInstruction 0x10500073#32) s)) ∧
    (s.priv = .u ∨ s.priv = .s ∧ s.mstatus.getLsbD 20 = true →
      exec (.sfenceVma rs1 rs2) s = .next (takeException
        (.illegalInstruction (0x12000073#32 ||| BitVec.ofNat 32 (rs1.val * 2 ^ 15 + rs2.val * 2 ^ 20))) s))

/-- 60_exceptions.md R450, R455, 47_system_privileged.md R352, R353: the return undoes the entry. MRET straight after a
trap to Machine, and SRET (with `TSR` clear) straight after a trap to Supervisor, resume at the trapped address at the
trapped level with that level's interrupt enable, the general registers and the reservation as they were. -/
def Obligations.ReturnUndoesTrap : Prop :=
  ∀ (s : State) (code : Nat) (intr : Bool) (value : Word),
    let t := trapEntry code intr value s
    (t.priv = .m → ∃ u, exec .mret t = .next u ∧ u.pc = s.pc ∧ u.priv = s.priv ∧ u.regs = s.regs ∧
      u.reservation = s.reservation ∧ u.mem = s.mem ∧ u.mstatus.getLsbD s.priv.level = s.mstatus.getLsbD s.priv.level ∧
      ∀ b, b < 32 → b ∉ [3, 7, 11, 12] → u.mstatus.getLsbD b = s.mstatus.getLsbD b) ∧
    (t.priv = .s → s.mstatus.getLsbD 22 = false → ∃ u, exec .sret t = .next u ∧ u.pc = s.pc ∧ u.priv = s.priv ∧
      u.regs = s.regs ∧ u.reservation = s.reservation ∧ u.mem = s.mem ∧
      u.mstatus.getLsbD s.priv.level = s.mstatus.getLsbD s.priv.level ∧
      ∀ b, b < 32 → b ∉ [1, 5, 8] → u.mstatus.getLsbD b = s.mstatus.getLsbD b)

/-- 47_system_privileged.md R354, 60_exceptions.md R440, 70_reset_and_hazards.md R482: WFI in Machine mode, or in Supervisor
mode with `TW` clear, completes and halts the core exactly when nothing is pending and enabled; the halted core stays as it
is; raising an interrupt sets the bits of the mask and wakes it exactly when something is then pending and enabled. -/
def Obligations.WfiCompletes : Prop :=
  ∀ s : State,
    ((s.priv = .m ∨ s.priv = .s ∧ s.mstatus.getLsbD 21 = false) →
      ∃ t, exec .wfi s = .next t ∧ t = { s with pc := s.pc + 4, mcycle := s.mcycle + 1, halted := t.halted } ∧
        (t.halted = true ↔ s.halted = true ∨ s.mip &&& s.mie = 0#32) ∧ (t.halted = true → step t = .next t)) ∧
    (∀ mask, ∃ t, hostApply (.raise mask) s = .next t ∧ t = { s with mip := t.mip, halted := t.halted } ∧
      (∀ b, t.mip.getLsbD b = (s.mip.getLsbD b || mask.getLsbD b)) ∧
      (t.halted = true ↔ s.halted = true ∧ t.mip &&& s.mie = 0#32))

/-- 43_misc_mem.md R270, R271, 48_compressed.md R375, 47_system_privileged.md R355: FENCE, FENCE.I and C.NOP complete and do
nothing else, in every mode and with every field; SFENCE.VMA, where it is legal, empties the three translation caches
whatever its operands. -/
def Obligations.FencesComplete : Prop :=
  ∀ s : State,
    (∀ fm pred succ rs1 rd, exec (.fence fm pred succ rs1 rd) s = .next { s with pc := s.pc + 4, mcycle := s.mcycle + 1 }) ∧
    (∀ imm rs1 rd, exec (.fenceI imm rs1 rd) s = .next { s with pc := s.pc + 4, mcycle := s.mcycle + 1 }) ∧
    (∀ imm, exec (.cNop imm) s = .next { s with pc := s.pc + 2, mcycle := s.mcycle + 1 }) ∧
    ((s.priv = .m ∨ s.priv = .s ∧ s.mstatus.getLsbD 20 = false) → ∀ rs1 rs2, exec (.sfenceVma rs1 rs2) s =
      .next { s with pc := s.pc + 4, mcycle := s.mcycle + 1, fetchTlb := [], readTlb := [], writeTlb := [] })

/-- 10_state.md R40, 60_exceptions.md R425, R460: isolation of the privilege levels. Below Machine an instruction either
takes an exception, from a state that differs from the one before in nothing but RAM, bus and caches, or leaves every
Machine register and every `mstatus` field outside the Supervisor view as it was, does not raise the level and does not
touch an interrupt bit that is not delegated; in User mode it changes no CSR at all and stays in User mode. -/
def Obligations.LowerLevelsCannotWriteMachineState : Prop :=
  ∀ (i : Instr) (s t : State), s.priv ≠ .m → exec i s = .next t →
    (∃ e u, OnlyStorage s u ∧ t = takeException e u) ∨
    (t.priv.level ≤ s.priv.level ∧ SameMachineCsrs s t ∧ t.mcycle = s.mcycle + 1 ∧
      t.mstatus &&& ~~~0x800DE133#32 = s.mstatus &&& ~~~0x800DE133#32 ∧
      t.mie &&& ~~~s.mideleg = s.mie &&& ~~~s.mideleg ∧ t.mip &&& ~~~s.mideleg = s.mip &&& ~~~s.mideleg ∧
      (s.priv = .u → t.priv = .u ∧ SameSupervisorCsrs s t ∧ t.mstatus = s.mstatus ∧ t.halted = s.halted))

/-! ## Control and status registers -/

/-- 10_state.md R40, R63, R74, R79, 46_zicsr.md R330, R337: an access that the rules refuse takes IllegalInstruction with the
instruction's word, for each of the six instructions; whether it writes depends on its encoding alone. -/
def Obligations.CsrAccessRefused : Prop :=
  ∀ (s : State) (rd rs1 : Reg) (uimm : BitVec 5) (a : BitVec 12),
    (CsrRefused a true s → TrapsIllegal (.csrrw rd rs1 a) s ∧ TrapsIllegal (.csrrwi rd uimm a) s) ∧
    (CsrRefused a (decide (rs1 ≠ 0)) s → TrapsIllegal (.csrrs rd rs1 a) s ∧ TrapsIllegal (.csrrc rd rs1 a) s) ∧
    (CsrRefused a (decide (uimm ≠ 0#5)) s → TrapsIllegal (.csrrsi rd uimm a) s ∧ TrapsIllegal (.csrrci rd uimm a) s)

/-- 46_zicsr.md R330 to R338: an access that the rules do not refuse completes: the old value, as the register reads, goes
to `rd`, and the new one is written through the register's write rule. -/
def Obligations.CsrInstructionsComplete : Prop :=
  ∀ (s : State) (rd rs1 : Reg) (uimm : BitVec 5) (a : BitVec 12) (c : Csr), csrOf a = some c →
    (¬ CsrRefused a true s →
      (∃ t, exec (.csrrw rd rs1 a) s = .next t ∧ CsrCompletes s t c rd true (decide (rd ≠ 0)) (fun _ => s.x rs1)) ∧
      (∃ t, exec (.csrrwi rd uimm a) s = .next t ∧
        CsrCompletes s t c rd true (decide (rd ≠ 0)) (fun _ => BitVec.ofNat 32 uimm.toNat))) ∧
    (¬ CsrRefused a (decide (rs1 ≠ 0)) s →
      (∃ t, exec (.csrrs rd rs1 a) s = .next t ∧
        CsrCompletes s t c rd (decide (rs1 ≠ 0)) true (fun old => old ||| s.x rs1)) ∧
      (∃ t, exec (.csrrc rd rs1 a) s = .next t ∧
        CsrCompletes s t c rd (decide (rs1 ≠ 0)) true (fun old => old &&& ~~~s.x rs1))) ∧
    (¬ CsrRefused a (decide (uimm ≠ 0#5)) s →
      (∃ t, exec (.csrrsi rd uimm a) s = .next t ∧
        CsrCompletes s t c rd (decide (uimm ≠ 0#5)) true (fun old => old ||| BitVec.ofNat 32 uimm.toNat)) ∧
      (∃ t, exec (.csrrci rd uimm a) s = .next t ∧
        CsrCompletes s t c rd (decide (uimm ≠ 0#5)) true (fun old => old &&& ~~~BitVec.ofNat 32 uimm.toNat)))

/-- R43, R79: the address map: which address names which register, and that no other address names one. -/
def Obligations.CsrAddressMap : Prop :=
  let named : List (Nat × Csr) :=
    [(0x100, .sstatus), (0x104, .sie), (0x105, .stvec), (0x106, .scounteren), (0x140, .sscratch), (0x141, .sepc),
      (0x142, .scause), (0x143, .stval), (0x144, .sip), (0x180, .satp), (0x300, .mstatus), (0x301, .misa),
      (0x302, .medeleg), (0x303, .mideleg), (0x304, .mie), (0x305, .mtvec), (0x306, .mcounteren), (0x340, .mscratch),
      (0x341, .mepc), (0x342, .mcause), (0x343, .mtval), (0x344, .mip), (0xB00, .mcycle), (0xB02, .minstret),
      (0xB80, .mcycleh), (0xB82, .minstreth), (0xC00, .cycle), (0xC01, .time), (0xC02, .instret), (0xC80, .cycleh),
      (0xC81, .timeh), (0xC82, .instreth), (0xF11, .mvendorid), (0xF12, .marchid), (0xF13, .mimpid), (0xF14, .mhartid)]
  let ranges : List (Nat × Nat × Csr) :=
    [(0x323, 0x33F, .mhpmevent), (0xB03, 0xB1F, .mhpmcounter), (0xB83, 0xB9F, .mhpmcounterh),
      (0xC03, 0xC1F, .hpmcounter), (0xC83, 0xC9F, .hpmcounterh)]
  ∀ (a : BitVec 12) (c : Csr), csrOf a = some c ↔
    (a.toNat, c) ∈ named ∨ ∃ p ∈ ranges, p.1 ≤ a.toNat ∧ a.toNat ≤ p.2.1 ∧ c = p.2.2

/-- R44, R45, R46: reading and writing `mstatus`, bit by bit; a reserved `MPP` keeps the old field, SD follows FS and XS, and
the translation caches are emptied exactly when MPRV, SUM or MXR changes or MPP changes under MPRV. -/
def Obligations.MstatusReadAndWrite : Prop :=
  ∀ (s : State) (v : Word),
    let t := csrWrite .mstatus v s
    let changes := fun b => t.mstatus.getLsbD b ≠ s.mstatus.getLsbD b
    let flushes := changes 17 ∨ changes 18 ∨ changes 19 ∨ (s.mstatus.getLsbD 17 = true ∧ (changes 11 ∨ changes 12))
    csrRead .mstatus s = (s.mstatus, s) ∧
    (∀ b, b < 31 → t.mstatus.getLsbD b =
      if b = 11 ∨ b = 12 then (if v.extractLsb' 11 2 = 2#2 then s.mstatus.getLsbD b else v.getLsbD b)
      else if b ∈ [0, 1, 3, 4, 5, 7, 8, 13, 14, 15, 16, 17, 18, 19, 20, 21, 22] then v.getLsbD b
      else s.mstatus.getLsbD b) ∧
    (t.mstatus.getLsbD 31 = true ↔ v.extractLsb' 13 2 = 3#2 ∨ v.extractLsb' 15 2 = 3#2) ∧
    (flushes → CachesEmpty t) ∧
    (¬ flushes → t.fetchTlb = s.fetchTlb ∧ t.readTlb = s.readTlb ∧ t.writeTlb = s.writeTlb) ∧
    t = { s with mstatus := t.mstatus, fetchTlb := t.fetchTlb, readTlb := t.readTlb, writeTlb := t.writeTlb }

/-- R47: `sstatus` is the view of UIE, SIE, UPIE, SPIE, SPP, FS, XS, SUM, MXR and SD of `mstatus`. -/
def Obligations.SstatusReadAndWrite : Prop :=
  ∀ (s : State) (v : Word),
    let view := [0, 1, 4, 5, 8, 13, 14, 15, 16, 18, 19]
    let t := csrWrite .sstatus v s
    let flushes := t.mstatus.getLsbD 18 ≠ s.mstatus.getLsbD 18 ∨ t.mstatus.getLsbD 19 ≠ s.mstatus.getLsbD 19
    (∀ b, b < 32 → (csrRead .sstatus s).1.getLsbD b = if b ∈ view ∨ b = 31 then s.mstatus.getLsbD b else false) ∧
    (csrRead .sstatus s).2 = s ∧
    (∀ b, b < 31 → t.mstatus.getLsbD b = if b ∈ view then v.getLsbD b else s.mstatus.getLsbD b) ∧
    (t.mstatus.getLsbD 31 = true ↔ v.extractLsb' 13 2 = 3#2 ∨ v.extractLsb' 15 2 = 3#2) ∧
    (flushes → CachesEmpty t) ∧
    (¬ flushes → t.fetchTlb = s.fetchTlb ∧ t.readTlb = s.readTlb ∧ t.writeTlb = s.writeTlb) ∧
    t = { s with mstatus := t.mstatus, fetchTlb := t.fetchTlb, readTlb := t.readTlb, writeTlb := t.writeTlb }

/-- R63, 20_memory.md R152: `satp` stores MODE and PPN and strips the ASID; the translation caches are emptied exactly when
the stored value changes. -/
def Obligations.SatpReadAndWrite : Prop :=
  ∀ (s : State) (v : Word),
    let t := csrWrite .satp v s
    csrRead .satp s = (s.satp, s) ∧
    (∀ b, b < 32 → t.satp.getLsbD b = if 22 ≤ b ∧ b ≤ 30 then false else v.getLsbD b) ∧
    (t.satp ≠ s.satp → CachesEmpty t) ∧
    (t.satp = s.satp → t.fetchTlb = s.fetchTlb ∧ t.readTlb = s.readTlb ∧ t.writeTlb = s.writeTlb) ∧
    t = { s with satp := t.satp, fetchTlb := t.fetchTlb, readTlb := t.readTlb, writeTlb := t.writeTlb }

/-- R49 to R54: the delegation, enable and pending registers and their Supervisor views, bit by bit. -/
def Obligations.InterruptCsrs : Prop :=
  ∀ (s : State) (v : Word) (b : Nat), b < 32 →
    let sBit := b = 1 ∨ b = 5 ∨ b = 9
    let mBit := b = 3 ∨ b = 7 ∨ b = 11
    (csrRead .medeleg s).1 = s.medeleg ∧ (csrRead .mideleg s).1 = s.mideleg ∧ (csrRead .mie s).1 = s.mie ∧
    (csrRead .mip s).1 = s.mip ∧
    (csrRead .sie s).1.getLsbD b = (s.mie.getLsbD b && s.mideleg.getLsbD b) ∧
    (csrRead .sip s).1.getLsbD b = (s.mip.getLsbD b && s.mideleg.getLsbD b) ∧
    (csrWrite .medeleg v s).medeleg.getLsbD b = (v.getLsbD b && decide (b ≠ 11)) ∧
    (csrWrite .mideleg v s).mideleg.getLsbD b = (v.getLsbD b && decide sBit) ∧
    (csrWrite .mie v s).mie.getLsbD b = (if sBit ∨ mBit then v.getLsbD b else s.mie.getLsbD b) ∧
    (csrWrite .mip v s).mip.getLsbD b = (if sBit then v.getLsbD b else s.mip.getLsbD b) ∧
    (csrWrite .sie v s).mie.getLsbD b = (if s.mideleg.getLsbD b then v.getLsbD b else s.mie.getLsbD b) ∧
    (csrWrite .sip v s).mip.getLsbD b = (if s.mideleg.getLsbD b then v.getLsbD b else s.mip.getLsbD b) ∧
    csrWrite .medeleg v s = { s with medeleg := (csrWrite .medeleg v s).medeleg } ∧
    csrWrite .mideleg v s = { s with mideleg := (csrWrite .mideleg v s).mideleg } ∧
    csrWrite .mie v s = { s with mie := (csrWrite .mie v s).mie } ∧
    csrWrite .mip v s = { s with mip := (csrWrite .mip v s).mip } ∧
    csrWrite .sie v s = { s with mie := (csrWrite .sie v s).mie } ∧
    csrWrite .sip v s = { s with mip := (csrWrite .sip v s).mip }

/-- R48, R55 to R62, R75, R77, R78: the registers that store what is written (a trap vector without bit 1), and those that
are constants and ignore writes. -/
def Obligations.StoredAndConstantCsrs : Prop :=
  ∀ (s : State) (v : Word),
    csrWrite .mtvec v s = { s with mtvec := v &&& ~~~2#32 } ∧ csrWrite .stvec v s = { s with stvec := v &&& ~~~2#32 } ∧
    csrWrite .mcounteren v s = { s with mcounteren := v } ∧ csrWrite .scounteren v s = { s with scounteren := v } ∧
    csrWrite .mscratch v s = { s with mscratch := v } ∧ csrWrite .sscratch v s = { s with sscratch := v } ∧
    csrWrite .mepc v s = { s with mepc := v } ∧ csrWrite .sepc v s = { s with sepc := v } ∧
    csrWrite .mcause v s = { s with mcause := v } ∧ csrWrite .scause v s = { s with scause := v } ∧
    csrWrite .mtval v s = { s with mtval := v } ∧ csrWrite .stval v s = { s with stval := v } ∧
    csrRead .mtvec s = (s.mtvec, s) ∧ csrRead .stvec s = (s.stvec, s) ∧ csrRead .mcounteren s = (s.mcounteren, s) ∧
    csrRead .scounteren s = (s.scounteren, s) ∧ csrRead .mscratch s = (s.mscratch, s) ∧
    csrRead .sscratch s = (s.sscratch, s) ∧ csrRead .mepc s = (s.mepc, s) ∧ csrRead .sepc s = (s.sepc, s) ∧
    csrRead .mcause s = (s.mcause, s) ∧ csrRead .scause s = (s.scause, s) ∧ csrRead .mtval s = (s.mtval, s) ∧
    csrRead .stval s = (s.stval, s) ∧ csrRead .misa s = (0x40141105#32, s) ∧
    (∀ c ∈ [Csr.mvendorid, .marchid, .mimpid, .mhartid, .mhpmevent, .mhpmcounter, .mhpmcounterh, .hpmcounter,
      .hpmcounterh], csrRead c s = (0#32, s)) ∧
    ∀ c ∈ [Csr.misa, .mhpmevent, .mhpmcounter, .mhpmcounterh], csrWrite c v s = s

/-- R70 to R73, R76: one 64-bit counter behind eight addresses, its halves written apart, the writing instruction's own
count added afterwards; `time` and `timeh` are the halves of a fresh answer of the real-time counter, of which nothing is
known (log 5), and each read is recorded. -/
def Obligations.CountersAndTime : Prop :=
  ∀ (s : State) (v : Word),
    (∀ c ∈ [Csr.mcycle, .minstret, .cycle, .instret], csrRead c s = (BitVec.ofNat 32 s.mcycle.toNat, s)) ∧
    (∀ c ∈ [Csr.mcycleh, .minstreth, .cycleh, .instreth], csrRead c s = (BitVec.ofNat 32 (s.mcycle.toNat / 2 ^ 32), s)) ∧
    (∀ c ∈ [Csr.mcycle, .minstret], csrWrite c v s =
      { s with mcycle := BitVec.ofNat 64 (s.mcycle.toNat / 2 ^ 32 * 2 ^ 32 + v.toNat) }) ∧
    (∀ c ∈ [Csr.mcycleh, .minstreth], csrWrite c v s =
      { s with mcycle := BitVec.ofNat 64 (v.toNat * 2 ^ 32 + s.mcycle.toNat % 2 ^ 32) }) ∧
    (s.priv = .m → ∀ rs1, ∃ t, exec (.csrrw 0 rs1 0xB00#12) s = .next t ∧
      t.mcycle = BitVec.ofNat 64 (s.mcycle.toNat / 2 ^ 32 * 2 ^ 32 + (s.x rs1).toNat + 1)) ∧
    csrRead .time s =
      (BitVec.ofNat 32 (Config.realTime s.bus).toNat, { s with bus := .getTime :: s.bus }) ∧
    csrRead .timeh s =
      (BitVec.ofNat 32 ((Config.realTime s.bus).toNat / 2 ^ 32), { s with bus := .getTime :: s.bus })

/-! ## Loads and stores -/

/-- 42_load_store.md R250 to R254, R258, 48_compressed.md R373, R392, 20_memory.md R104, R120: a load from RAM under the
identity translation completes: the bytes at the address, little-endian, extended as the instruction says, go to `rd`; no
byte of memory changes. -/
def Obligations.RamLoadsComplete : Prop :=
  ∀ (s : State) (rd rs1 : Reg) (imm : BitVec 12) (r : Range),
    let a := s.x rs1 + imm.signExtend 32
    let b0 := s.mem.byteAt a
    let h := s.mem.byteAt (a + 1) ++ b0
    (PlainAccess s .read .byte a (.ram r) →
      (∃ t, exec (.lb rd rs1 imm) s = .next t ∧ RetiresLoad s t rd (b0.signExtend 32) 4) ∧
      (∃ t, exec (.lbu rd rs1 imm) s = .next t ∧ RetiresLoad s t rd (b0.zeroExtend 32) 4)) ∧
    (PlainAccess s .read .half a (.ram r) →
      (∃ t, exec (.lh rd rs1 imm) s = .next t ∧ RetiresLoad s t rd (h.signExtend 32) 4) ∧
      (∃ t, exec (.lhu rd rs1 imm) s = .next t ∧ RetiresLoad s t rd (h.zeroExtend 32) 4)) ∧
    (PlainAccess s .read .word a (.ram r) → ∃ t, exec (.lw rd rs1 imm) s = .next t ∧
      RetiresLoad s t rd (s.mem.byteAt (a + 3) ++ s.mem.byteAt (a + 2) ++ h) 4) ∧
    (∀ (crd crs1 : CReg) (uimm : BitVec 7),
      let a := s.x crs1.reg + uimm.zeroExtend 32
      PlainAccess s .read .word a (.ram r) → ∃ t, exec (.cLw crd crs1 uimm) s = .next t ∧ RetiresLoad s t crd.reg
        (s.mem.byteAt (a + 3) ++ s.mem.byteAt (a + 2) ++ s.mem.byteAt (a + 1) ++ s.mem.byteAt a) 2) ∧
    (∀ uimm : BitVec 8,
      let a := s.x 2 + uimm.zeroExtend 32
      PlainAccess s .read .word a (.ram r) → ∃ t, exec (.cLwsp rd uimm) s = .next t ∧ RetiresLoad s t rd
        (s.mem.byteAt (a + 3) ++ s.mem.byteAt (a + 2) ++ s.mem.byteAt (a + 1) ++ s.mem.byteAt a) 2)

/-- 42_load_store.md R255 to R258, 48_compressed.md R374, R398, 20_memory.md R104, R121: a store to RAM under the identity
translation completes: the low bytes of the register, little-endian, at the address; every other byte of memory reads as
before; no register changes. -/
def Obligations.RamStoresComplete : Prop :=
  ∀ (s : State) (rs2 rs1 : Reg) (imm : BitVec 12) (r : Range), s.mem.wf = true →
    let a := s.x rs1 + imm.signExtend 32
    (PlainAccess s .write .byte a (.ram r) →
      ∃ t, exec (.sb rs2 rs1 imm) s = .next t ∧ RetiresStore s t a .byte (s.x rs2) 4) ∧
    (PlainAccess s .write .half a (.ram r) →
      ∃ t, exec (.sh rs2 rs1 imm) s = .next t ∧ RetiresStore s t a .half (s.x rs2) 4) ∧
    (PlainAccess s .write .word a (.ram r) →
      ∃ t, exec (.sw rs2 rs1 imm) s = .next t ∧ RetiresStore s t a .word (s.x rs2) 4) ∧
    (∀ (crs2 crs1 : CReg) (uimm : BitVec 7),
      let a := s.x crs1.reg + uimm.zeroExtend 32
      PlainAccess s .write .word a (.ram r) →
        ∃ t, exec (.cSw crs2 crs1 uimm) s = .next t ∧ RetiresStore s t a .word (s.x crs2.reg) 2) ∧
    (∀ uimm : BitVec 8,
      let a := s.x 2 + uimm.zeroExtend 32
      PlainAccess s .write .word a (.ram r) →
        ∃ t, exec (.cSwsp rs2 uimm) s = .next t ∧ RetiresStore s t a .word (s.x rs2) 2)

/-- 42_load_store.md R250 to R259, 48_compressed.md R373, R374, R392, R398, 10_state.md R22: every load and store, through
whatever translation is in force, to whatever answers: it completes where the access path of 20_memory.md R120 or R121 does,
and where the path raises it takes that exception, writing no register. Of the state between, only RAM, bus and caches
may differ from before; a load's exception is of the load kind and a store's of the store kind, with the address. -/
def Obligations.LoadsAndStoresThroughTranslation : Prop :=
  ∀ (s : State) (rd rs1 rs2 : Reg) (imm : BitVec 12) (crd crs1 crs2 : CReg) (uimm7 : BitVec 7) (uimm8 : BitVec 8),
    let a := s.x rs1 + imm.signExtend 32
    let ac := s.x crs1.reg + uimm7.zeroExtend 32
    let asp := s.x 2 + uimm8.zeroExtend 32
    let loads : List (Instr × Reg × Word × AccessSize × (Word → Word) × Word) :=
      [(.lb rd rs1 imm, rd, a, .byte, fun v => (v.extractLsb' 0 8).signExtend 32, 4),
        (.lh rd rs1 imm, rd, a, .half, fun v => (v.extractLsb' 0 16).signExtend 32, 4),
        (.lw rd rs1 imm, rd, a, .word, fun v => v, 4),
        (.lbu rd rs1 imm, rd, a, .byte, fun v => (v.extractLsb' 0 8).zeroExtend 32, 4),
        (.lhu rd rs1 imm, rd, a, .half, fun v => (v.extractLsb' 0 16).zeroExtend 32, 4),
        (.cLw crd crs1 uimm7, crd.reg, ac, .word, fun v => v, 2), (.cLwsp rd uimm8, rd, asp, .word, fun v => v, 2)]
    let stores : List (Instr × Word × Word × AccessSize × Word) :=
      [(.sb rs2 rs1 imm, a, s.x rs2, .byte, 4), (.sh rs2 rs1 imm, a, s.x rs2, .half, 4),
        (.sw rs2 rs1 imm, a, s.x rs2, .word, 4), (.cSw crs2 crs1 uimm7, ac, s.x crs2.reg, .word, 2),
        (.cSwsp rs2 uimm8, asp, s.x rs2, .word, 2)]
    (∀ p ∈ loads,
      (∀ v u, memRead p.2.2.1 p.2.2.2.1 s = .ok v u → OnlyStorage s u ∧
        ∃ t, exec p.1 s = .next t ∧ Retires u t p.2.1 (p.2.2.2.2.1 v) p.2.2.2.2.2) ∧
      (∀ e u, memRead p.2.2.1 p.2.2.2.1 s = .raise e u → OnlyStorage s u ∧ exec p.1 s = .next (takeException e u) ∧
        (e = .loadAddrMisaligned p.2.2.1 ∨ e = .loadPageFault p.2.2.1 ∨ e = .loadAccessFault p.2.2.1))) ∧
    ∀ p ∈ stores,
      (∀ u, memWrite p.2.1 p.2.2.2.1 p.2.2.1 s = .ok () u → OnlyStorage s u ∧
        exec p.1 s = .next { u with pc := s.pc + p.2.2.2.2, mcycle := s.mcycle + 1 }) ∧
      (∀ e u, memWrite p.2.1 p.2.2.2.1 p.2.2.1 s = .raise e u → OnlyStorage s u ∧ exec p.1 s = .next (takeException e u) ∧
        (e = .storeAddrMisaligned p.2.1 ∨ e = .storePageFault p.2.1 ∨ e = .storeAccessFault p.2.1))

/-- 20_memory.md R101, R102, R104, R107, R120, R121: what an access path does once its address is translated to `g.pa`, of
which the low 12 bits are those of the virtual address. RAM: the bytes there, little-endian, and a store changes those
bytes only. A device: exactly one transaction; its answer is free (log 4), and its `fault` is the access fault of the
kind. Nothing mapped: zero is read and a store is dropped. -/
def Obligations.AccessPaths : Prop :=
  ∀ (s u : State) (va v : Word) (n : AccessSize) (g : Target), s.StorageInv →
    (dataTarget va n .read s = .ok g u →
      g.pa.toNat % 4096 = va.toNat % 4096 ∧
      (∀ r, g.backing = .ram r → memRead va n s = .ok (match n with
        | .byte => (u.mem.byteAt g.pa).zeroExtend 32
        | .half => (u.mem.byteAt (g.pa + 1) ++ u.mem.byteAt g.pa).zeroExtend 32
        | .word => u.mem.byteAt (g.pa + 3) ++ u.mem.byteAt (g.pa + 2) ++ u.mem.byteAt (g.pa + 1) ++ u.mem.byteAt g.pa)
          u) ∧
      (g.backing = .unmapped → memRead va n s = .ok 0#32 u) ∧
      (∀ d, g.backing = .mmio d →
        let u' := { u with bus := .load d g.pa n :: u.bus }
        (Config.deviceLoad u.bus d g.pa n = .fault → memRead va n s = .raise (.loadAccessFault va) u') ∧
        (∀ w, Config.deviceLoad u.bus d g.pa n = .value w →
          memRead va n s = .ok (BitVec.ofNat 32 (w.toNat % 2 ^ (8 * sizeBytes n))) u'))) ∧
    (dataTarget va n .write s = .ok g u →
      g.pa.toNat % 4096 = va.toNat % 4096 ∧
      (∀ r, g.backing = .ram r → ∃ u', memWrite va n v s = .ok () u' ∧ u' = { u with mem := u'.mem } ∧
        u'.mem.wf = true ∧
        ∀ a, u'.mem.byteAt a =
          if (a - g.pa).toNat < sizeBytes n then byteOf v (a - g.pa).toNat else u.mem.byteAt a) ∧
      (g.backing = .unmapped → memWrite va n v s = .ok () u) ∧
      (∀ d, g.backing = .mmio d →
        let w := BitVec.ofNat 32 (v.toNat % 2 ^ (8 * sizeBytes n))
        let u' := { u with bus := .store d g.pa n w :: u.bus }
        memWrite va n v s =
          if Config.deviceStoreFaults u.bus d g.pa n w then .raise (.storeAccessFault va) u' else .ok () u')) ∧
    (∀ e, dataTarget va n .read s = .raise e u → memRead va n s = .raise e u) ∧
    (∀ e, dataTarget va n .write s = .raise e u → memWrite va n v s = .raise e u)

/-- R120, R121, R124, 42_load_store.md R259, 45_a_extension.md R301, R304: an access to an address that is not a multiple of
its size takes the misaligned exception of its kind, with the address, and has no other effect: it reaches neither the
translation nor the bus. -/
def Obligations.MisalignedAccessesTrap : Prop :=
  ∀ (s : State) (rd rs1 rs2 : Reg) (imm : BitVec 12) (aq rl : Bool) (crd crs1 : CReg) (uimm7 : BitVec 7) (uimm8 : BitVec 8),
    let a := s.x rs1 + imm.signExtend 32
    let ac := s.x crs1.reg + uimm7.zeroExtend 32
    let asp := s.x 2 + uimm8.zeroExtend 32
    let trapsLoad := fun i b => exec i s = .next (takeException (.loadAddrMisaligned b) s)
    let trapsStore := fun i b => exec i s = .next (takeException (.storeAddrMisaligned b) s)
    (a.toNat % 2 ≠ 0 → trapsLoad (.lh rd rs1 imm) a ∧ trapsLoad (.lhu rd rs1 imm) a ∧ trapsStore (.sh rs2 rs1 imm) a) ∧
    (a.toNat % 4 ≠ 0 → trapsLoad (.lw rd rs1 imm) a ∧ trapsStore (.sw rs2 rs1 imm) a) ∧
    (ac.toNat % 4 ≠ 0 → trapsLoad (.cLw crd crs1 uimm7) ac ∧ trapsStore (.cSw crd crs1 uimm7) ac) ∧
    (asp.toNat % 4 ≠ 0 → trapsLoad (.cLwsp rd uimm8) asp ∧ trapsStore (.cSwsp rs2 uimm8) asp) ∧
    ((s.x rs1).toNat % 4 ≠ 0 → trapsLoad (.lrW aq rl rd rs1) (s.x rs1) ∧ trapsStore (.scW aq rl rd rs1 rs2) (s.x rs1) ∧
      ∀ p ∈ amoTable aq rl rd rs1 rs2, trapsStore p.1 (s.x rs1))

/-- 20_memory.md R136, R139, R140: translating an address, whatever comes of it, changes memory in nothing but the accessed
and dirty bits (bits 6 and 7 of a byte), which it only sets. -/
def Obligations.TranslationChangesOnlyAccessedDirty : Prop :=
  ∀ (s u : State) (va : Word) (k : AccessKind), s.StorageInv →
    ((∃ g, translateCached va k s = .ok g u) ∨ ∃ e, translateCached va k s = .raise e u) →
    OnlyStorage s u ∧ ∀ a, u.mem.byteAt a &&& 0x3F#8 = s.mem.byteAt a &&& 0x3F#8 ∧
      s.mem.byteAt a &&& ~~~u.mem.byteAt a = 0#8

/-! ## Atomics -/

/-- 45_a_extension.md R301, R302, R304: LR.W is the word load of its address, with the physical address kept as the
reservation. SC.W checks and translates first; it stores and writes 0 exactly when the reservation is its own physical
address, else it writes 1 and no memory; the reservation is gone either way. One that raises keeps the reservation. `aq`
and `rl` change nothing. Last, the same under the identity translation, with the values of memory written out. -/
def Obligations.LoadReservedStoreConditional : Prop :=
  ∀ (s : State) (aq rl : Bool) (rd rs1 rs2 : Reg),
    (∀ g u v w, dataTarget (s.x rs1) .word .read s = .ok g u → memRead (s.x rs1) .word s = .ok v w → OnlyStorage s w ∧
      ∃ t, exec (.lrW aq rl rd rs1) s = .next t ∧ Retires { w with reservation := some g.pa } t rd v 4) ∧
    (∀ e u, memRead (s.x rs1) .word s = .raise e u → OnlyStorage s u ∧
      exec (.lrW aq rl rd rs1) s = .next (takeException e u)) ∧
    (∀ g u, dataTarget (s.x rs1) .word .write s = .ok g u → OnlyStorage s u ∧
      (s.reservation = some g.pa →
        (∀ w, memWrite (s.x rs1) .word (s.x rs2) s = .ok () w →
          ∃ t, exec (.scW aq rl rd rs1 rs2) s = .next t ∧ Retires { w with reservation := none } t rd 0#32 4) ∧
        (∀ e w, memWrite (s.x rs1) .word (s.x rs2) s = .raise e w →
          exec (.scW aq rl rd rs1 rs2) s = .next (takeException e w))) ∧
      (s.reservation ≠ some g.pa →
        ∃ t, exec (.scW aq rl rd rs1 rs2) s = .next t ∧ Retires { u with reservation := none } t rd 1#32 4)) ∧
    (∀ e u, dataTarget (s.x rs1) .word .write s = .raise e u → OnlyStorage s u ∧
      exec (.scW aq rl rd rs1 rs2) s = .next (takeException e u)) ∧
    ∀ r, let a := s.x rs1
      (PlainAccess s .read .word a (.ram r) → ∃ t, exec (.lrW aq rl rd rs1) s = .next t ∧
        RetiresLoad { s with reservation := some a } t rd
          (s.mem.byteAt (a + 3) ++ s.mem.byteAt (a + 2) ++ s.mem.byteAt (a + 1) ++ s.mem.byteAt a) 4) ∧
      (s.mem.wf = true → PlainAccess s .write .word a (.ram r) →
        (s.reservation = some a → ∃ t, exec (.scW aq rl rd rs1 rs2) s = .next t ∧
          RetiresAmo { s with reservation := none } t rd a 0#32 (s.x rs2)) ∧
        (s.reservation ≠ some a → ∃ t u, exec (.scW aq rl rd rs1 rs2) s = .next t ∧
          u = { s with reservation := none, writeTlb := u.writeTlb } ∧ Retires u t rd 1#32 4))

/-- R304 to R313, R315: each of the nine AMOs, where its address translates (once, as a write) to RAM, completes: the old
word goes to `rd`, the new one to memory, every other byte and the reservation stay; in particular under the identity
translation. -/
def Obligations.AmosComplete : Prop :=
  ∀ (s : State) (aq rl : Bool) (rd rs1 rs2 : Reg) (r : Range), s.StorageInv →
    (∀ u g, dataTarget (s.x rs1) .word .write s = .ok g u → g.backing = .ram r →
      OnlyStorage s u ∧ ∀ p ∈ amoTable aq rl rd rs1 rs2, ∃ t, exec p.1 s = .next t ∧
        RetiresAmo u t rd g.pa (u.mem.load g.pa .word) (p.2 (u.mem.load g.pa .word) (s.x rs2))) ∧
    (PlainAccess s .write .word (s.x rs1) (.ram r) → ∀ p ∈ amoTable aq rl rd rs1 rs2,
      let a := s.x rs1
      let old := s.mem.byteAt (a + 3) ++ s.mem.byteAt (a + 2) ++ s.mem.byteAt (a + 1) ++ s.mem.byteAt a
      ∃ t, exec p.1 s = .next t ∧ RetiresAmo s t rd a old (p.2 old (s.x rs2)))

/-- R303, R304, 20_memory.md R101, R102: an AMO where no RAM answers. Nothing mapped: the old value is zero and the store
is dropped. A device: one load, then one store, in this order; a `fault` to either is a store access fault, with `rd` as
it was. An address that does not translate takes the exception of its translation. -/
def Obligations.AmosOutsideRam : Prop :=
  ∀ (s u : State) (aq rl : Bool) (rd rs1 rs2 : Reg) (g : Target), ∀ p ∈ amoTable aq rl rd rs1 rs2,
    (dataTarget (s.x rs1) .word .write s = .ok g u →
      (g.backing = .unmapped → ∃ t, exec p.1 s = .next t ∧ Retires u t rd 0#32 4) ∧
      (∀ d, g.backing = .mmio d →
        let u1 := { u with bus := .load d g.pa .word :: u.bus }
        (Config.deviceLoad u.bus d g.pa .word = .fault →
          exec p.1 s = .next (takeException (.storeAccessFault (s.x rs1)) u1)) ∧
        (∀ old, Config.deviceLoad u.bus d g.pa .word = .value old →
          let new := p.2 old (s.x rs2)
          let u2 := { u with bus := .store d g.pa .word new :: .load d g.pa .word :: u.bus }
          if Config.deviceStoreFaults u1.bus d g.pa .word new = true then
            exec p.1 s = .next (takeException (.storeAccessFault (s.x rs1)) u2)
          else ∃ t, exec p.1 s = .next t ∧ Retires u2 t rd old 4))) ∧
    (∀ e, dataTarget (s.x rs1) .word .write s = .raise e u → exec p.1 s = .next (takeException e u))

/-- R314, 10_state.md R27: nothing but LR.W and SC.W changes the reservation: no other instruction, completed or trapped, and
no interrupt. -/
def Obligations.OnlyLrScChangeReservation : Prop :=
  (∀ (i : Instr) (s t : State), exec i s = .next t → t.reservation = s.reservation ∨
    (∃ aq rl rd rs1, i = .lrW aq rl rd rs1) ∨ ∃ aq rl rd rs1 rs2, i = .scW aq rl rd rs1 rs2 ∧ t.reservation = none) ∧
    ∀ s code intr value, (trapEntry code intr value s).reservation = s.reservation

/-! ## Translation -/

/-- 20_memory.md R130, R131, R153: with MODE Bare, or at effective privilege M, translation is the identity; which privilege
is effective; and an aligned access then reaches its own address, filling at most the cache of its kind. -/
def Obligations.IdentityTranslation : Prop :=
  ∀ (s : State) (va : Word) (k : AccessKind),
    s.effectivePriv .fetch = s.priv ∧
    (k ≠ .fetch → s.mstatus.getLsbD 17 = false → s.effectivePriv k = s.priv) ∧
    (k ≠ .fetch → s.mstatus.getLsbD 17 = true → s.mstatus.extractLsb' 11 2 ≠ 2#2 →
      (s.effectivePriv k).bits = s.mstatus.extractLsb' 11 2) ∧
    (s.effectivePriv k = .m ∨ s.satp.getLsbD 31 = false → translate va k s = .ok va s) ∧
    (∀ n b, PlainAccess s k n va b → ∃ t, dataTarget va n k s = .ok { pa := va, backing := b } t ∧
      t = { s with fetchTlb := t.fetchTlb, readTlb := t.readTlb, writeTlb := t.writeTlb } ∧
      ∀ k', k' ≠ k → t.tlb k' = s.tlb k')

/-- R134: which accesses a leaf entry permits to S and to U, and that the others raise the page fault of their kind before
the entry is touched. -/
def Obligations.LeafCheck : Prop :=
  ∀ (s : State) (addr pte va : Word) (k : AccessKind) (ep : Priv) (l : PtLevel), ep ≠ .m →
    let user := pte.getLsbD 4 = true
    let sum := s.mstatus.getLsbD 18 = true
    let readable := pte.getLsbD 1 = true ∨ (s.mstatus.getLsbD 19 = true ∧ pte.getLsbD 3 = true)
    let ok := match k with
      | .read => readable
      | .write => pte.getLsbD 2 = true
      | .fetch => pte.getLsbD 3 = true
    let refused := (ep = .s ∧ user ∧ (¬ sum ∨ k = .fetch)) ∨ (ep = .u ∧ ¬ user) ∨ ¬ ok
    (refused → walkLeaf addr pte va k ep l s = .raise (pageFault k va) s) ∧
    (¬ refused → leafPermits s.mstatus pte k ep = true ∧ ∀ u, walkLeaf addr pte va k ep l s ≠ .raise (pageFault k va) u)

/-- R132, R133, R136, R137: the two-level walk over tables in RAM, to a level-1 leaf (a 4 MiB page) and to a level-0 leaf (a
4 KiB page): the physical address composed, and the accessed bit, for a write the dirty bit too, set in the leaf and
nowhere else. -/
def Obligations.PageTableWalk : Prop :=
  ∀ (s : State) (va pte1 pte0 : Word) (k : AccessKind), s.mem.wf = true → s.effectivePriv k ≠ .m →
    s.satp.getLsbD 31 = true →
    let a1 := (s.satp.extractLsb' 0 20 ++ 0#12) + BitVec.ofNat 32 (va.toNat / 2 ^ 22 * 4)
    let a0 := (pte1.extractLsb' 10 20 ++ 0#12) + BitVec.ofNat 32 (va.toNat / 2 ^ 12 % 2 ^ 10 * 4)
    let leaf := fun (pte : Word) => pte.getLsbD 0 = true ∧ (pte.getLsbD 1 = true ∨ pte.getLsbD 2 = false ∧ pte.getLsbD 3 = true) ∧
      leafPermits s.mstatus pte k (s.effectivePriv k) = true
    let marked := fun (pte : Word) => pte ||| 0x40#32 ||| (if k = .write then 0x80#32 else 0#32)
    (RamWord s a1 pte1 → leaf pte1 → ∃ t, translate va k s = .ok (pte1.extractLsb' 20 10 ++ va.extractLsb' 0 22) t ∧
      t = { s with mem := t.mem } ∧
      ∀ a, t.mem.byteAt a = if a = a1 then byteOf (marked pte1) 0 else s.mem.byteAt a) ∧
    (RamWord s a1 pte1 → pte1.extractLsb' 0 4 = 1#4 → RamWord s a0 pte0 → leaf pte0 →
      ∃ t, translate va k s = .ok (pte0.extractLsb' 10 20 ++ va.extractLsb' 0 12) t ∧
        t = { s with mem := t.mem } ∧
        ∀ a, t.mem.byteAt a = if a = a0 then byteOf (marked pte0) 0 else s.mem.byteAt a)

/-- R133, R138, R139: where the walk over tables in RAM fails, the page fault of the access's kind is raised, with the whole
virtual address, and nothing has changed: an invalid entry or one that may be written but not read, at either level; a
pointer at level 0; a leaf that does not permit the access; a table where nothing is mapped. -/
def Obligations.PageFaults : Prop :=
  ∀ (s : State) (va pte1 pte0 : Word) (k : AccessKind), s.effectivePriv k ≠ .m → s.satp.getLsbD 31 = true →
    let a1 := (s.satp.extractLsb' 0 20 ++ 0#12) + BitVec.ofNat 32 (va.toNat / 2 ^ 22 * 4)
    let a0 := (pte1.extractLsb' 10 20 ++ 0#12) + BitVec.ofNat 32 (va.toNat / 2 ^ 12 % 2 ^ 10 * 4)
    let invalid := fun (pte : Word) => pte.getLsbD 0 = false ∨ (pte.getLsbD 2 = true ∧ pte.getLsbD 1 = false)
    let pointer := fun (pte : Word) => pte.extractLsb' 0 4 = 1#4
    let refused := fun (pte : Word) => (pte.getLsbD 1 = true ∨ pte.getLsbD 3 = true) ∧
      leafPermits s.mstatus pte k (s.effectivePriv k) = false
    let faults := translate va k s = .raise (match k with
      | .fetch => .instrPageFault va
      | .read => .loadPageFault va
      | .write => .storePageFault va) s
    (RamWord s a1 pte1 → invalid pte1 → faults) ∧ (RamWord s a1 pte1 → refused pte1 → faults) ∧
    (RamWord s a1 pte1 → pointer pte1 → RamWord s a0 pte0 → invalid pte0 ∨ pointer pte0 ∨ refused pte0 → faults) ∧
    (classify s.plat a1 = .unmapped → faults) ∧
    (RamWord s a1 pte1 → pointer pte1 → classify s.plat a0 = .unmapped → faults)

/-- R151, R153, R154: once an address has been translated to RAM, every address of its page is translated by the cache
alone: to the same physical page, without a walk, without any change of state. A translation to anything else is not
kept. -/
def Obligations.CachedTranslationHits : Prop :=
  ∀ (s t : State) (va va' : Word) (k : AccessKind) (g : Target), s.StorageInv → translateCached va k s = .ok g t →
    (∀ r, g.backing = .ram r → va'.toNat / 4096 = va.toNat / 4096 →
      translateCached va' k t =
        .ok { pa := g.pa.extractLsb' 12 20 ++ va'.extractLsb' 0 12, backing := .ram r } t) ∧
    ((∀ r, g.backing ≠ .ram r) → t.fetchTlb = s.fetchTlb ∧ t.readTlb = s.readTlb ∧ t.writeTlb = s.writeTlb)

/-! ## Integer instructions -/

/-- 40_integer_computational.md R200 to R210, R221: the eleven immediate instructions complete in every state, with the value
of the rule in `rd`, and change nothing else. -/
def Obligations.ImmediateInstructionsComplete : Prop :=
  ∀ (s : State) (rd rs1 : Reg) (imm : BitVec 12) (imm20 : BitVec 20) (sh : BitVec 5),
    let a := s.x rs1
    let m : Word := imm.signExtend 32
    let upper := BitVec.ofNat 32 (imm20.toNat * 4096)
    (∃ t, exec (.lui rd imm20) s = .next t ∧ Retires s t rd upper 4) ∧
    (∃ t, exec (.auipc rd imm20) s = .next t ∧ Retires s t rd (s.pc + upper) 4) ∧
    (∃ t, exec (.addi rd rs1 imm) s = .next t ∧ Retires s t rd (BitVec.ofInt 32 (a.toInt + imm.toInt)) 4) ∧
    (∃ t, exec (.slti rd rs1 imm) s = .next t ∧ Retires s t rd (if a.toInt < imm.toInt then 1 else 0) 4) ∧
    (∃ t, exec (.sltiu rd rs1 imm) s = .next t ∧ Retires s t rd (if a.toNat < m.toNat then 1 else 0) 4) ∧
    (∃ t, exec (.xori rd rs1 imm) s = .next t ∧ Retires s t rd (a ^^^ m) 4) ∧
    (∃ t, exec (.ori rd rs1 imm) s = .next t ∧ Retires s t rd (a ||| m) 4) ∧
    (∃ t, exec (.andi rd rs1 imm) s = .next t ∧ Retires s t rd (a &&& m) 4) ∧
    (∃ t, exec (.slli rd rs1 sh) s = .next t ∧ Retires s t rd (BitVec.ofNat 32 (a.toNat * 2 ^ sh.toNat)) 4) ∧
    (∃ t, exec (.srli rd rs1 sh) s = .next t ∧ Retires s t rd (BitVec.ofNat 32 (a.toNat / 2 ^ sh.toNat)) 4) ∧
    (∃ t, exec (.srai rd rs1 sh) s = .next t ∧ Retires s t rd (BitVec.ofInt 32 (a.toInt / 2 ^ sh.toNat)) 4)

/-- R211 to R221: the ten register instructions complete in every state, with the value of the rule in `rd`, and change
nothing else; a shift takes its amount modulo 32. -/
def Obligations.RegisterInstructionsComplete : Prop :=
  ∀ (s : State) (rd rs1 rs2 : Reg),
    let a := s.x rs1
    let b := s.x rs2
    let k := b.toNat % 32
    (∃ t, exec (.add rd rs1 rs2) s = .next t ∧ Retires s t rd (BitVec.ofNat 32 (a.toNat + b.toNat)) 4) ∧
    (∃ t, exec (.sub rd rs1 rs2) s = .next t ∧ Retires s t rd (BitVec.ofInt 32 (a.toInt - b.toInt)) 4) ∧
    (∃ t, exec (.sll rd rs1 rs2) s = .next t ∧ Retires s t rd (BitVec.ofNat 32 (a.toNat * 2 ^ k)) 4) ∧
    (∃ t, exec (.slt rd rs1 rs2) s = .next t ∧ Retires s t rd (if a.toInt < b.toInt then 1 else 0) 4) ∧
    (∃ t, exec (.sltu rd rs1 rs2) s = .next t ∧ Retires s t rd (if a.toNat < b.toNat then 1 else 0) 4) ∧
    (∃ t, exec (.xor rd rs1 rs2) s = .next t ∧ Retires s t rd (a ^^^ b) 4) ∧
    (∃ t, exec (.srl rd rs1 rs2) s = .next t ∧ Retires s t rd (BitVec.ofNat 32 (a.toNat / 2 ^ k)) 4) ∧
    (∃ t, exec (.sra rd rs1 rs2) s = .next t ∧ Retires s t rd (BitVec.ofInt 32 (a.toInt / 2 ^ k)) 4) ∧
    (∃ t, exec (.or rd rs1 rs2) s = .next t ∧ Retires s t rd (a ||| b) 4) ∧
    (∃ t, exec (.and rd rs1 rs2) s = .next t ∧ Retires s t rd (a &&& b) 4)

/-- 44_m_extension.md R280 to R287: the eight multiply and divide instructions complete for every operand values, division by
zero and the overflow of MIN by -1 included. -/
def Obligations.MultiplyDivideComplete : Prop :=
  ∀ (s : State) (rd rs1 rs2 : Reg),
    let a := s.x rs1
    let b := s.x rs2
    let overflow := a.toInt = -2 ^ 31 ∧ b.toInt = -1
    (∃ t, exec (.mul rd rs1 rs2) s = .next t ∧ Retires s t rd (BitVec.ofNat 32 (a.toNat * b.toNat)) 4) ∧
    (∃ t, exec (.mulh rd rs1 rs2) s = .next t ∧ Retires s t rd (BitVec.ofInt 32 (a.toInt * b.toInt / 2 ^ 32)) 4) ∧
    (∃ t, exec (.mulhsu rd rs1 rs2) s = .next t ∧ Retires s t rd (BitVec.ofInt 32 (a.toInt * b.toNat / 2 ^ 32)) 4) ∧
    (∃ t, exec (.mulhu rd rs1 rs2) s = .next t ∧ Retires s t rd (BitVec.ofNat 32 (a.toNat * b.toNat / 2 ^ 32)) 4) ∧
    (∃ t, exec (.div rd rs1 rs2) s = .next t ∧ Retires s t rd
      (if b = 0#32 then 0xFFFFFFFF#32 else if overflow then 0x80000000#32 else BitVec.ofInt 32 (a.toInt.tdiv b.toInt)) 4) ∧
    (∃ t, exec (.divu rd rs1 rs2) s = .next t ∧
      Retires s t rd (if b = 0#32 then 0xFFFFFFFF#32 else BitVec.ofNat 32 (a.toNat / b.toNat)) 4) ∧
    (∃ t, exec (.rem rd rs1 rs2) s = .next t ∧ Retires s t rd
      (if b = 0#32 then a else if overflow then 0#32 else BitVec.ofInt 32 (a.toInt.tmod b.toInt)) 4) ∧
    (∃ t, exec (.remu rd rs1 rs2) s = .next t ∧
      Retires s t rd (if b = 0#32 then a else BitVec.ofNat 32 (a.toNat % b.toNat)) 4)

/-- R288: the laws of the family: the high and the low half together are the exact product, in each reading of the signs;
quotient times divisor plus remainder is the dividend, the overflow case included; the remainder has the dividend's sign
and is smaller than the divisor. -/
def Obligations.MultiplyDivideLaws : Prop :=
  ∀ a b : Word,
    (mulhuWord a b ++ mulWord a b).toNat = a.toNat * b.toNat ∧
    (mulhWord a b ++ mulWord a b).toInt = a.toInt * b.toInt ∧
    (mulhsuWord a b ++ mulWord a b).toInt = a.toInt * b.toNat ∧
    (b ≠ 0#32 → divWord a b * b + remWord a b = a ∧ divuWord a b * b + remuWord a b = a ∧
      (remuWord a b).toNat < b.toNat ∧ (remWord a b).toInt.natAbs < b.toInt.natAbs ∧
      (0 ≤ a.toInt → 0 ≤ (remWord a b).toInt) ∧ (a.toInt ≤ 0 → (remWord a b).toInt ≤ 0))

/-- 48_compressed.md R370, R372 to R391, R394, R397: each compressed computational instruction completes with exactly the
effect of its expansion, but for `pc`, which moves by 2. -/
def Obligations.CompressedComputeComplete : Prop :=
  ∀ (s : State) (rd rs2 : Reg) (crd crs2 : CReg) (imm6 : BitVec 6) (imm10 : BitVec 10) (sh : BitVec 5),
    let expands := fun (c e : Instr) => ∃ t, exec e s = .next t ∧ exec c s = .next { t with pc := s.pc + 2 }
    expands (.cAddi4spn crd imm10) (.addi crd.reg 2 (imm10.zeroExtend 12)) ∧
    expands (.cNop imm6) (.addi 0 0 (imm6.signExtend 12)) ∧
    expands (.cAddi rd imm6) (.addi rd rd (imm6.signExtend 12)) ∧
    expands (.cLi rd imm6) (.addi rd 0 (imm6.signExtend 12)) ∧
    expands (.cAddi16sp imm10) (.addi 2 2 (imm10.signExtend 12)) ∧
    expands (.cLui rd imm6) (.lui rd (imm6.signExtend 20)) ∧
    expands (.cSrli crd sh) (.srli crd.reg crd.reg sh) ∧ expands (.cSrai crd sh) (.srai crd.reg crd.reg sh) ∧
    expands (.cAndi crd imm6) (.andi crd.reg crd.reg (imm6.signExtend 12)) ∧
    expands (.cSub crd crs2) (.sub crd.reg crd.reg crs2.reg) ∧ expands (.cXor crd crs2) (.xor crd.reg crd.reg crs2.reg) ∧
    expands (.cOr crd crs2) (.or crd.reg crd.reg crs2.reg) ∧ expands (.cAnd crd crs2) (.and crd.reg crd.reg crs2.reg) ∧
    expands (.cSlli rd sh) (.slli rd rd sh) ∧ expands (.cMv rd rs2) (.add rd 0 rs2) ∧
    expands (.cAdd rd rs2) (.add rd rd rs2)

/-! ## Control transfer -/

/-- 41_control_transfer.md R230, R231, R238, 48_compressed.md R377, R388, R393, R396: the jumps complete in every state: the
target in `pc`, with bit 0 cleared where it comes from a register, the address of the next instruction in the link
register, nothing else. -/
def Obligations.JumpsComplete : Prop :=
  ∀ (s : State) (rd rs1 : Reg) (off : BitVec 21) (imm : BitVec 12) (coff : BitVec 12),
    let even := fun (w : Word) => BitVec.ofNat 32 (w.toNat / 2 * 2)
    (∃ t, exec (.jal rd off) s = .next t ∧ Transfers s t rd (s.pc + 4) (BitVec.ofInt 32 (s.pc.toInt + off.toInt))) ∧
    (∃ t, exec (.jalr rd rs1 imm) s = .next t ∧ Transfers s t rd (s.pc + 4) (even (s.x rs1 + imm.signExtend 32))) ∧
    (∃ t, exec (.cJal coff) s = .next t ∧ Transfers s t 1 (s.pc + 2) (BitVec.ofInt 32 (s.pc.toInt + coff.toInt))) ∧
    (∃ t, exec (.cJ coff) s = .next t ∧ Transfers s t 0 0#32 (BitVec.ofInt 32 (s.pc.toInt + coff.toInt))) ∧
    (∃ t, exec (.cJr rs1) s = .next t ∧ Transfers s t 0 0#32 (even (s.x rs1))) ∧
    (∃ t, exec (.cJalr rs1) s = .next t ∧ Transfers s t 1 (s.pc + 2) (even (s.x rs1)))

/-- R232 to R238, 48_compressed.md R389, R390: the branches complete in every state: the target in `pc` where the condition
holds, the next instruction where it does not, nothing else. -/
def Obligations.BranchesComplete : Prop :=
  ∀ (s : State) (rs1 rs2 : Reg) (off : BitVec 13) (crs1 : CReg) (coff : BitVec 9),
    let a := s.x rs1
    let b := s.x rs2
    let goes := fun (i : Instr) (taken : Prop) (offset : Int) (ilen : Word) => ∃ t, exec i s = .next t ∧
      t = { s with pc := t.pc, mcycle := s.mcycle + 1 } ∧ (taken → t.pc = BitVec.ofInt 32 (s.pc.toInt + offset)) ∧
      (¬ taken → t.pc = s.pc + ilen)
    goes (.beq rs1 rs2 off) (a = b) off.toInt 4 ∧ goes (.bne rs1 rs2 off) (a ≠ b) off.toInt 4 ∧
    goes (.blt rs1 rs2 off) (a.toInt < b.toInt) off.toInt 4 ∧ goes (.bge rs1 rs2 off) (a.toInt ≥ b.toInt) off.toInt 4 ∧
    goes (.bltu rs1 rs2 off) (a.toNat < b.toNat) off.toInt 4 ∧ goes (.bgeu rs1 rs2 off) (a.toNat ≥ b.toNat) off.toInt 4 ∧
    goes (.cBeqz crs1 coff) (s.x crs1.reg = 0#32) coff.toInt 2 ∧
    goes (.cBnez crs1 coff) (s.x crs1.reg ≠ 0#32) coff.toInt 2

/-! ## The host -/

/-- 60_exceptions.md R441: lowering an interrupt line clears the bits of the mask and never changes the halt flag. Taking an
interrupt does not clear its bit, and no instruction changes a pending bit but a CSR instruction on `mip` or `sip` the bits that
software may write: a bit stays pending until one of those two clears it. -/
def Obligations.LoweringInterrupts : Prop :=
  (∀ (s : State) (mask : Word), ∃ t, hostApply (.lower mask) s = .next t ∧ t = { s with mip := t.mip } ∧
    ∀ b, t.mip.getLsbD b = (s.mip.getLsbD b && !mask.getLsbD b)) ∧
  (∀ (s : State) (code : Nat) (intr : Bool) (value : Word), (trapEntry code intr value s).mip = s.mip) ∧
  ∀ (i : Instr) (s t : State) (b : Nat), s.CsrInv → exec i s = .next t →
    t.mip.getLsbD b = s.mip.getLsbD b ∨
      (b ∈ [1, 5, 9] ∧ i.rowMatch.extractLsb' 0 7 = 0x73#7 ∧ i.rowMatch.extractLsb' 12 3 ≠ 0#3 ∧
        (encode i).toWord.extractLsb' 20 12 ∈ [0x344#12, 0x144#12])

/-- 70_reset_and_hazards.md R484, R490, 10_state.md R90: `reset()` on a running core: what it sets, that every translation is
then the identity, and that everything else keeps its value. -/
def Obligations.ResetOperation : Prop :=
  ∀ s : State, ∃ t, hostApply .reset s = .next t ∧ t.pc = s.plat.bootPc ∧ t.priv = .m ∧ t.mcause = 0#32 ∧
    t.halted = false ∧ t.reservation = none ∧ CachesEmpty t ∧ (∀ va k, translate va k t = .ok va t) ∧
    (∀ b, b < 32 → t.mstatus.getLsbD b = if b = 3 ∨ b = 17 then false else s.mstatus.getLsbD b) ∧
    t = { s with
      pc := t.pc, priv := t.priv, mcause := t.mcause, halted := t.halted, reservation := t.reservation
      mstatus := t.mstatus, fetchTlb := t.fetchTlb, readTlb := t.readTlb, writeTlb := t.writeTlb }

/-- R485 to R487, R489: restoring a state's own snapshot gives that state with empty translation caches; a restored
snapshot reads back as it was given, and memory, devices and platform are not touched. That a snapshot which breaks the
precondition is refused is the model's reading of R487 (log 15). -/
def Obligations.SnapshotRoundTrip : Prop :=
  (∀ s : State, s.Inv → setState (getState s) s = .next { s with fetchTlb := [], readTlb := [], writeTlb := [] }) ∧
  ∀ (p : Snapshot) (s : State),
    (p.wf = true → ∃ t, setState p s = .next t ∧ getState t = p ∧ CachesEmpty t ∧ t.mem = s.mem ∧ t.bus = s.bus ∧
      t.plat = s.plat) ∧
    (p.wf = false → setState p s = .refused .illFormedSnapshot)

/-- R482: two calls `step(a); step(b)` have the effect of `step(a + b)`, and their counts add up; a call makes no more
iterations than its budget, and fewer only if it leaves the core halted; a halted core, and an empty budget, change
nothing. -/
def Obligations.StepBudgetsCompose : Prop :=
  ∀ (a b : Nat) (s : State), ∃ t, (hostStep a s).2 = .next t ∧
    hostStep (a + b) s = ((hostStep a s).1 + (hostStep b t).1, (hostStep b t).2) ∧ (hostStep a s).1 ≤ a ∧
    ((hostStep a s).1 < a → t.halted = true) ∧ (s.halted = true → hostStep a s = (0, .next s)) ∧
    hostStep 0 s = (0, .next s)

end
end

