-- ==== Sys2Proof/Laws/State.lean ====
section
/-! SUPPORT. One lemma for each field of State and each update of it, so that no later proof unfolds an update; and
the laws of the registers. -/

namespace Sys2Proof.Machine

open Sys2Proof

/-! ## `advance` -/

@[simp] theorem advance_regs (s : State) (n : Word) : (s.advance n).regs = s.regs := rfl
@[simp] theorem advance_pc (s : State) (n : Word) : (s.advance n).pc = s.pc + n := rfl
@[simp] theorem advance_priv (s : State) (n : Word) : (s.advance n).priv = s.priv := rfl
@[simp] theorem advance_halted (s : State) (n : Word) : (s.advance n).halted = s.halted := rfl
@[simp] theorem advance_reservation (s : State) (n : Word) : (s.advance n).reservation = s.reservation := rfl
@[simp] theorem advance_mcycle (s : State) (n : Word) : (s.advance n).mcycle = s.mcycle + 1 := rfl
@[simp] theorem advance_mstatus (s : State) (n : Word) : (s.advance n).mstatus = s.mstatus := rfl
@[simp] theorem advance_medeleg (s : State) (n : Word) : (s.advance n).medeleg = s.medeleg := rfl
@[simp] theorem advance_mideleg (s : State) (n : Word) : (s.advance n).mideleg = s.mideleg := rfl
@[simp] theorem advance_mie (s : State) (n : Word) : (s.advance n).mie = s.mie := rfl
@[simp] theorem advance_mip (s : State) (n : Word) : (s.advance n).mip = s.mip := rfl
@[simp] theorem advance_mtvec (s : State) (n : Word) : (s.advance n).mtvec = s.mtvec := rfl
@[simp] theorem advance_stvec (s : State) (n : Word) : (s.advance n).stvec = s.stvec := rfl
@[simp] theorem advance_mcounteren (s : State) (n : Word) : (s.advance n).mcounteren = s.mcounteren := rfl
@[simp] theorem advance_scounteren (s : State) (n : Word) : (s.advance n).scounteren = s.scounteren := rfl
@[simp] theorem advance_mscratch (s : State) (n : Word) : (s.advance n).mscratch = s.mscratch := rfl
@[simp] theorem advance_sscratch (s : State) (n : Word) : (s.advance n).sscratch = s.sscratch := rfl
@[simp] theorem advance_mepc (s : State) (n : Word) : (s.advance n).mepc = s.mepc := rfl
@[simp] theorem advance_sepc (s : State) (n : Word) : (s.advance n).sepc = s.sepc := rfl
@[simp] theorem advance_mcause (s : State) (n : Word) : (s.advance n).mcause = s.mcause := rfl
@[simp] theorem advance_scause (s : State) (n : Word) : (s.advance n).scause = s.scause := rfl
@[simp] theorem advance_mtval (s : State) (n : Word) : (s.advance n).mtval = s.mtval := rfl
@[simp] theorem advance_stval (s : State) (n : Word) : (s.advance n).stval = s.stval := rfl
@[simp] theorem advance_satp (s : State) (n : Word) : (s.advance n).satp = s.satp := rfl
@[simp] theorem advance_fetchTlb (s : State) (n : Word) : (s.advance n).fetchTlb = s.fetchTlb := rfl
@[simp] theorem advance_readTlb (s : State) (n : Word) : (s.advance n).readTlb = s.readTlb := rfl
@[simp] theorem advance_writeTlb (s : State) (n : Word) : (s.advance n).writeTlb = s.writeTlb := rfl
@[simp] theorem advance_mem (s : State) (n : Word) : (s.advance n).mem = s.mem := rfl
@[simp] theorem advance_bus (s : State) (n : Word) : (s.advance n).bus = s.bus := rfl
@[simp] theorem advance_plat (s : State) (n : Word) : (s.advance n).plat = s.plat := rfl

/-! ## `jumpTo` -/

@[simp] theorem jumpTo_regs (s : State) (t : Word) : (s.jumpTo t).regs = s.regs := rfl
@[simp] theorem jumpTo_pc (s : State) (t : Word) : (s.jumpTo t).pc = t := rfl
@[simp] theorem jumpTo_priv (s : State) (t : Word) : (s.jumpTo t).priv = s.priv := rfl
@[simp] theorem jumpTo_halted (s : State) (t : Word) : (s.jumpTo t).halted = s.halted := rfl
@[simp] theorem jumpTo_reservation (s : State) (t : Word) : (s.jumpTo t).reservation = s.reservation := rfl
@[simp] theorem jumpTo_mcycle (s : State) (t : Word) : (s.jumpTo t).mcycle = s.mcycle + 1 := rfl
@[simp] theorem jumpTo_mstatus (s : State) (t : Word) : (s.jumpTo t).mstatus = s.mstatus := rfl
@[simp] theorem jumpTo_medeleg (s : State) (t : Word) : (s.jumpTo t).medeleg = s.medeleg := rfl
@[simp] theorem jumpTo_mideleg (s : State) (t : Word) : (s.jumpTo t).mideleg = s.mideleg := rfl
@[simp] theorem jumpTo_mie (s : State) (t : Word) : (s.jumpTo t).mie = s.mie := rfl
@[simp] theorem jumpTo_mip (s : State) (t : Word) : (s.jumpTo t).mip = s.mip := rfl
@[simp] theorem jumpTo_mtvec (s : State) (t : Word) : (s.jumpTo t).mtvec = s.mtvec := rfl
@[simp] theorem jumpTo_stvec (s : State) (t : Word) : (s.jumpTo t).stvec = s.stvec := rfl
@[simp] theorem jumpTo_mcounteren (s : State) (t : Word) : (s.jumpTo t).mcounteren = s.mcounteren := rfl
@[simp] theorem jumpTo_scounteren (s : State) (t : Word) : (s.jumpTo t).scounteren = s.scounteren := rfl
@[simp] theorem jumpTo_mscratch (s : State) (t : Word) : (s.jumpTo t).mscratch = s.mscratch := rfl
@[simp] theorem jumpTo_sscratch (s : State) (t : Word) : (s.jumpTo t).sscratch = s.sscratch := rfl
@[simp] theorem jumpTo_mepc (s : State) (t : Word) : (s.jumpTo t).mepc = s.mepc := rfl
@[simp] theorem jumpTo_sepc (s : State) (t : Word) : (s.jumpTo t).sepc = s.sepc := rfl
@[simp] theorem jumpTo_mcause (s : State) (t : Word) : (s.jumpTo t).mcause = s.mcause := rfl
@[simp] theorem jumpTo_scause (s : State) (t : Word) : (s.jumpTo t).scause = s.scause := rfl
@[simp] theorem jumpTo_mtval (s : State) (t : Word) : (s.jumpTo t).mtval = s.mtval := rfl
@[simp] theorem jumpTo_stval (s : State) (t : Word) : (s.jumpTo t).stval = s.stval := rfl
@[simp] theorem jumpTo_satp (s : State) (t : Word) : (s.jumpTo t).satp = s.satp := rfl
@[simp] theorem jumpTo_fetchTlb (s : State) (t : Word) : (s.jumpTo t).fetchTlb = s.fetchTlb := rfl
@[simp] theorem jumpTo_readTlb (s : State) (t : Word) : (s.jumpTo t).readTlb = s.readTlb := rfl
@[simp] theorem jumpTo_writeTlb (s : State) (t : Word) : (s.jumpTo t).writeTlb = s.writeTlb := rfl
@[simp] theorem jumpTo_mem (s : State) (t : Word) : (s.jumpTo t).mem = s.mem := rfl
@[simp] theorem jumpTo_bus (s : State) (t : Word) : (s.jumpTo t).bus = s.bus := rfl
@[simp] theorem jumpTo_plat (s : State) (t : Word) : (s.jumpTo t).plat = s.plat := rfl

/-! ## `flushTlb` -/

@[simp] theorem flushTlb_regs (s : State) : (s.flushTlb).regs = s.regs := rfl
@[simp] theorem flushTlb_pc (s : State) : (s.flushTlb).pc = s.pc := rfl
@[simp] theorem flushTlb_priv (s : State) : (s.flushTlb).priv = s.priv := rfl
@[simp] theorem flushTlb_halted (s : State) : (s.flushTlb).halted = s.halted := rfl
@[simp] theorem flushTlb_reservation (s : State) : (s.flushTlb).reservation = s.reservation := rfl
@[simp] theorem flushTlb_mcycle (s : State) : (s.flushTlb).mcycle = s.mcycle := rfl
@[simp] theorem flushTlb_mstatus (s : State) : (s.flushTlb).mstatus = s.mstatus := rfl
@[simp] theorem flushTlb_medeleg (s : State) : (s.flushTlb).medeleg = s.medeleg := rfl
@[simp] theorem flushTlb_mideleg (s : State) : (s.flushTlb).mideleg = s.mideleg := rfl
@[simp] theorem flushTlb_mie (s : State) : (s.flushTlb).mie = s.mie := rfl
@[simp] theorem flushTlb_mip (s : State) : (s.flushTlb).mip = s.mip := rfl
@[simp] theorem flushTlb_mtvec (s : State) : (s.flushTlb).mtvec = s.mtvec := rfl
@[simp] theorem flushTlb_stvec (s : State) : (s.flushTlb).stvec = s.stvec := rfl
@[simp] theorem flushTlb_mcounteren (s : State) : (s.flushTlb).mcounteren = s.mcounteren := rfl
@[simp] theorem flushTlb_scounteren (s : State) : (s.flushTlb).scounteren = s.scounteren := rfl
@[simp] theorem flushTlb_mscratch (s : State) : (s.flushTlb).mscratch = s.mscratch := rfl
@[simp] theorem flushTlb_sscratch (s : State) : (s.flushTlb).sscratch = s.sscratch := rfl
@[simp] theorem flushTlb_mepc (s : State) : (s.flushTlb).mepc = s.mepc := rfl
@[simp] theorem flushTlb_sepc (s : State) : (s.flushTlb).sepc = s.sepc := rfl
@[simp] theorem flushTlb_mcause (s : State) : (s.flushTlb).mcause = s.mcause := rfl
@[simp] theorem flushTlb_scause (s : State) : (s.flushTlb).scause = s.scause := rfl
@[simp] theorem flushTlb_mtval (s : State) : (s.flushTlb).mtval = s.mtval := rfl
@[simp] theorem flushTlb_stval (s : State) : (s.flushTlb).stval = s.stval := rfl
@[simp] theorem flushTlb_satp (s : State) : (s.flushTlb).satp = s.satp := rfl
@[simp] theorem flushTlb_fetchTlb (s : State) : (s.flushTlb).fetchTlb = [] := rfl
@[simp] theorem flushTlb_readTlb (s : State) : (s.flushTlb).readTlb = [] := rfl
@[simp] theorem flushTlb_writeTlb (s : State) : (s.flushTlb).writeTlb = [] := rfl
@[simp] theorem flushTlb_mem (s : State) : (s.flushTlb).mem = s.mem := rfl
@[simp] theorem flushTlb_bus (s : State) : (s.flushTlb).bus = s.bus := rfl
@[simp] theorem flushTlb_plat (s : State) : (s.flushTlb).plat = s.plat := rfl

/-! ## `setX` -/

@[simp] theorem setX_pc (s : State) (r : Reg) (v : Word) : (s.setX r v).pc = s.pc := by unfold State.setX; split <;> rfl
@[simp] theorem setX_priv (s : State) (r : Reg) (v : Word) : (s.setX r v).priv = s.priv := by unfold State.setX; split <;> rfl
@[simp] theorem setX_halted (s : State) (r : Reg) (v : Word) : (s.setX r v).halted = s.halted := by unfold State.setX; split <;> rfl
@[simp] theorem setX_reservation (s : State) (r : Reg) (v : Word) : (s.setX r v).reservation = s.reservation := by unfold State.setX; split <;> rfl
@[simp] theorem setX_mcycle (s : State) (r : Reg) (v : Word) : (s.setX r v).mcycle = s.mcycle := by unfold State.setX; split <;> rfl
@[simp] theorem setX_mstatus (s : State) (r : Reg) (v : Word) : (s.setX r v).mstatus = s.mstatus := by unfold State.setX; split <;> rfl
@[simp] theorem setX_medeleg (s : State) (r : Reg) (v : Word) : (s.setX r v).medeleg = s.medeleg := by unfold State.setX; split <;> rfl
@[simp] theorem setX_mideleg (s : State) (r : Reg) (v : Word) : (s.setX r v).mideleg = s.mideleg := by unfold State.setX; split <;> rfl
@[simp] theorem setX_mie (s : State) (r : Reg) (v : Word) : (s.setX r v).mie = s.mie := by unfold State.setX; split <;> rfl
@[simp] theorem setX_mip (s : State) (r : Reg) (v : Word) : (s.setX r v).mip = s.mip := by unfold State.setX; split <;> rfl
@[simp] theorem setX_mtvec (s : State) (r : Reg) (v : Word) : (s.setX r v).mtvec = s.mtvec := by unfold State.setX; split <;> rfl
@[simp] theorem setX_stvec (s : State) (r : Reg) (v : Word) : (s.setX r v).stvec = s.stvec := by unfold State.setX; split <;> rfl
@[simp] theorem setX_mcounteren (s : State) (r : Reg) (v : Word) : (s.setX r v).mcounteren = s.mcounteren := by unfold State.setX; split <;> rfl
@[simp] theorem setX_scounteren (s : State) (r : Reg) (v : Word) : (s.setX r v).scounteren = s.scounteren := by unfold State.setX; split <;> rfl
@[simp] theorem setX_mscratch (s : State) (r : Reg) (v : Word) : (s.setX r v).mscratch = s.mscratch := by unfold State.setX; split <;> rfl
@[simp] theorem setX_sscratch (s : State) (r : Reg) (v : Word) : (s.setX r v).sscratch = s.sscratch := by unfold State.setX; split <;> rfl
@[simp] theorem setX_mepc (s : State) (r : Reg) (v : Word) : (s.setX r v).mepc = s.mepc := by unfold State.setX; split <;> rfl
@[simp] theorem setX_sepc (s : State) (r : Reg) (v : Word) : (s.setX r v).sepc = s.sepc := by unfold State.setX; split <;> rfl
@[simp] theorem setX_mcause (s : State) (r : Reg) (v : Word) : (s.setX r v).mcause = s.mcause := by unfold State.setX; split <;> rfl
@[simp] theorem setX_scause (s : State) (r : Reg) (v : Word) : (s.setX r v).scause = s.scause := by unfold State.setX; split <;> rfl
@[simp] theorem setX_mtval (s : State) (r : Reg) (v : Word) : (s.setX r v).mtval = s.mtval := by unfold State.setX; split <;> rfl
@[simp] theorem setX_stval (s : State) (r : Reg) (v : Word) : (s.setX r v).stval = s.stval := by unfold State.setX; split <;> rfl
@[simp] theorem setX_satp (s : State) (r : Reg) (v : Word) : (s.setX r v).satp = s.satp := by unfold State.setX; split <;> rfl
@[simp] theorem setX_fetchTlb (s : State) (r : Reg) (v : Word) : (s.setX r v).fetchTlb = s.fetchTlb := by unfold State.setX; split <;> rfl
@[simp] theorem setX_readTlb (s : State) (r : Reg) (v : Word) : (s.setX r v).readTlb = s.readTlb := by unfold State.setX; split <;> rfl
@[simp] theorem setX_writeTlb (s : State) (r : Reg) (v : Word) : (s.setX r v).writeTlb = s.writeTlb := by unfold State.setX; split <;> rfl
@[simp] theorem setX_mem (s : State) (r : Reg) (v : Word) : (s.setX r v).mem = s.mem := by unfold State.setX; split <;> rfl
@[simp] theorem setX_bus (s : State) (r : Reg) (v : Word) : (s.setX r v).bus = s.bus := by unfold State.setX; split <;> rfl
@[simp] theorem setX_plat (s : State) (r : Reg) (v : Word) : (s.setX r v).plat = s.plat := by unfold State.setX; split <;> rfl

/-! ## `setTlb`, `installTlb`, `flushIf` -/

@[simp] theorem setTlb_regs (s : State) (k : AccessKind) (t : Tlb) : (s.setTlb k t).regs = s.regs := by cases k <;> rfl
@[simp] theorem setTlb_pc (s : State) (k : AccessKind) (t : Tlb) : (s.setTlb k t).pc = s.pc := by cases k <;> rfl
@[simp] theorem setTlb_priv (s : State) (k : AccessKind) (t : Tlb) : (s.setTlb k t).priv = s.priv := by cases k <;> rfl
@[simp] theorem setTlb_halted (s : State) (k : AccessKind) (t : Tlb) : (s.setTlb k t).halted = s.halted := by cases k <;> rfl
@[simp] theorem setTlb_reservation (s : State) (k : AccessKind) (t : Tlb) : (s.setTlb k t).reservation = s.reservation := by cases k <;> rfl
@[simp] theorem setTlb_mcycle (s : State) (k : AccessKind) (t : Tlb) : (s.setTlb k t).mcycle = s.mcycle := by cases k <;> rfl
@[simp] theorem setTlb_mstatus (s : State) (k : AccessKind) (t : Tlb) : (s.setTlb k t).mstatus = s.mstatus := by cases k <;> rfl
@[simp] theorem setTlb_medeleg (s : State) (k : AccessKind) (t : Tlb) : (s.setTlb k t).medeleg = s.medeleg := by cases k <;> rfl
@[simp] theorem setTlb_mideleg (s : State) (k : AccessKind) (t : Tlb) : (s.setTlb k t).mideleg = s.mideleg := by cases k <;> rfl
@[simp] theorem setTlb_mie (s : State) (k : AccessKind) (t : Tlb) : (s.setTlb k t).mie = s.mie := by cases k <;> rfl
@[simp] theorem setTlb_mip (s : State) (k : AccessKind) (t : Tlb) : (s.setTlb k t).mip = s.mip := by cases k <;> rfl
@[simp] theorem setTlb_mtvec (s : State) (k : AccessKind) (t : Tlb) : (s.setTlb k t).mtvec = s.mtvec := by cases k <;> rfl
@[simp] theorem setTlb_stvec (s : State) (k : AccessKind) (t : Tlb) : (s.setTlb k t).stvec = s.stvec := by cases k <;> rfl
@[simp] theorem setTlb_mcounteren (s : State) (k : AccessKind) (t : Tlb) : (s.setTlb k t).mcounteren = s.mcounteren := by cases k <;> rfl
@[simp] theorem setTlb_scounteren (s : State) (k : AccessKind) (t : Tlb) : (s.setTlb k t).scounteren = s.scounteren := by cases k <;> rfl
@[simp] theorem setTlb_mscratch (s : State) (k : AccessKind) (t : Tlb) : (s.setTlb k t).mscratch = s.mscratch := by cases k <;> rfl
@[simp] theorem setTlb_sscratch (s : State) (k : AccessKind) (t : Tlb) : (s.setTlb k t).sscratch = s.sscratch := by cases k <;> rfl
@[simp] theorem setTlb_mepc (s : State) (k : AccessKind) (t : Tlb) : (s.setTlb k t).mepc = s.mepc := by cases k <;> rfl
@[simp] theorem setTlb_sepc (s : State) (k : AccessKind) (t : Tlb) : (s.setTlb k t).sepc = s.sepc := by cases k <;> rfl
@[simp] theorem setTlb_mcause (s : State) (k : AccessKind) (t : Tlb) : (s.setTlb k t).mcause = s.mcause := by cases k <;> rfl
@[simp] theorem setTlb_scause (s : State) (k : AccessKind) (t : Tlb) : (s.setTlb k t).scause = s.scause := by cases k <;> rfl
@[simp] theorem setTlb_mtval (s : State) (k : AccessKind) (t : Tlb) : (s.setTlb k t).mtval = s.mtval := by cases k <;> rfl
@[simp] theorem setTlb_stval (s : State) (k : AccessKind) (t : Tlb) : (s.setTlb k t).stval = s.stval := by cases k <;> rfl
@[simp] theorem setTlb_satp (s : State) (k : AccessKind) (t : Tlb) : (s.setTlb k t).satp = s.satp := by cases k <;> rfl
@[simp] theorem setTlb_mem (s : State) (k : AccessKind) (t : Tlb) : (s.setTlb k t).mem = s.mem := by cases k <;> rfl
@[simp] theorem setTlb_bus (s : State) (k : AccessKind) (t : Tlb) : (s.setTlb k t).bus = s.bus := by cases k <;> rfl
@[simp] theorem setTlb_plat (s : State) (k : AccessKind) (t : Tlb) : (s.setTlb k t).plat = s.plat := by cases k <;> rfl

@[simp] theorem installTlb_regs (s : State) (k : AccessKind) (va pa : Word) (r : Range) : (s.installTlb k va pa r).regs = s.regs := by cases k <;> rfl
@[simp] theorem installTlb_pc (s : State) (k : AccessKind) (va pa : Word) (r : Range) : (s.installTlb k va pa r).pc = s.pc := by cases k <;> rfl
@[simp] theorem installTlb_priv (s : State) (k : AccessKind) (va pa : Word) (r : Range) : (s.installTlb k va pa r).priv = s.priv := by cases k <;> rfl
@[simp] theorem installTlb_halted (s : State) (k : AccessKind) (va pa : Word) (r : Range) : (s.installTlb k va pa r).halted = s.halted := by cases k <;> rfl
@[simp] theorem installTlb_reservation (s : State) (k : AccessKind) (va pa : Word) (r : Range) : (s.installTlb k va pa r).reservation = s.reservation := by cases k <;> rfl
@[simp] theorem installTlb_mcycle (s : State) (k : AccessKind) (va pa : Word) (r : Range) : (s.installTlb k va pa r).mcycle = s.mcycle := by cases k <;> rfl
@[simp] theorem installTlb_mstatus (s : State) (k : AccessKind) (va pa : Word) (r : Range) : (s.installTlb k va pa r).mstatus = s.mstatus := by cases k <;> rfl
@[simp] theorem installTlb_medeleg (s : State) (k : AccessKind) (va pa : Word) (r : Range) : (s.installTlb k va pa r).medeleg = s.medeleg := by cases k <;> rfl
@[simp] theorem installTlb_mideleg (s : State) (k : AccessKind) (va pa : Word) (r : Range) : (s.installTlb k va pa r).mideleg = s.mideleg := by cases k <;> rfl
@[simp] theorem installTlb_mie (s : State) (k : AccessKind) (va pa : Word) (r : Range) : (s.installTlb k va pa r).mie = s.mie := by cases k <;> rfl
@[simp] theorem installTlb_mip (s : State) (k : AccessKind) (va pa : Word) (r : Range) : (s.installTlb k va pa r).mip = s.mip := by cases k <;> rfl
@[simp] theorem installTlb_mtvec (s : State) (k : AccessKind) (va pa : Word) (r : Range) : (s.installTlb k va pa r).mtvec = s.mtvec := by cases k <;> rfl
@[simp] theorem installTlb_stvec (s : State) (k : AccessKind) (va pa : Word) (r : Range) : (s.installTlb k va pa r).stvec = s.stvec := by cases k <;> rfl
@[simp] theorem installTlb_mcounteren (s : State) (k : AccessKind) (va pa : Word) (r : Range) : (s.installTlb k va pa r).mcounteren = s.mcounteren := by cases k <;> rfl
@[simp] theorem installTlb_scounteren (s : State) (k : AccessKind) (va pa : Word) (r : Range) : (s.installTlb k va pa r).scounteren = s.scounteren := by cases k <;> rfl
@[simp] theorem installTlb_mscratch (s : State) (k : AccessKind) (va pa : Word) (r : Range) : (s.installTlb k va pa r).mscratch = s.mscratch := by cases k <;> rfl
@[simp] theorem installTlb_sscratch (s : State) (k : AccessKind) (va pa : Word) (r : Range) : (s.installTlb k va pa r).sscratch = s.sscratch := by cases k <;> rfl
@[simp] theorem installTlb_mepc (s : State) (k : AccessKind) (va pa : Word) (r : Range) : (s.installTlb k va pa r).mepc = s.mepc := by cases k <;> rfl
@[simp] theorem installTlb_sepc (s : State) (k : AccessKind) (va pa : Word) (r : Range) : (s.installTlb k va pa r).sepc = s.sepc := by cases k <;> rfl
@[simp] theorem installTlb_mcause (s : State) (k : AccessKind) (va pa : Word) (r : Range) : (s.installTlb k va pa r).mcause = s.mcause := by cases k <;> rfl
@[simp] theorem installTlb_scause (s : State) (k : AccessKind) (va pa : Word) (r : Range) : (s.installTlb k va pa r).scause = s.scause := by cases k <;> rfl
@[simp] theorem installTlb_mtval (s : State) (k : AccessKind) (va pa : Word) (r : Range) : (s.installTlb k va pa r).mtval = s.mtval := by cases k <;> rfl
@[simp] theorem installTlb_stval (s : State) (k : AccessKind) (va pa : Word) (r : Range) : (s.installTlb k va pa r).stval = s.stval := by cases k <;> rfl
@[simp] theorem installTlb_satp (s : State) (k : AccessKind) (va pa : Word) (r : Range) : (s.installTlb k va pa r).satp = s.satp := by cases k <;> rfl
@[simp] theorem installTlb_mem (s : State) (k : AccessKind) (va pa : Word) (r : Range) : (s.installTlb k va pa r).mem = s.mem := by cases k <;> rfl
@[simp] theorem installTlb_bus (s : State) (k : AccessKind) (va pa : Word) (r : Range) : (s.installTlb k va pa r).bus = s.bus := by cases k <;> rfl
@[simp] theorem installTlb_plat (s : State) (k : AccessKind) (va pa : Word) (r : Range) : (s.installTlb k va pa r).plat = s.plat := by cases k <;> rfl

@[simp] theorem flushIf_regs (s : State) (b : Bool) : (s.flushIf b).regs = s.regs := by cases b <;> rfl
@[simp] theorem flushIf_pc (s : State) (b : Bool) : (s.flushIf b).pc = s.pc := by cases b <;> rfl
@[simp] theorem flushIf_priv (s : State) (b : Bool) : (s.flushIf b).priv = s.priv := by cases b <;> rfl
@[simp] theorem flushIf_halted (s : State) (b : Bool) : (s.flushIf b).halted = s.halted := by cases b <;> rfl
@[simp] theorem flushIf_reservation (s : State) (b : Bool) : (s.flushIf b).reservation = s.reservation := by cases b <;> rfl
@[simp] theorem flushIf_mcycle (s : State) (b : Bool) : (s.flushIf b).mcycle = s.mcycle := by cases b <;> rfl
@[simp] theorem flushIf_mstatus (s : State) (b : Bool) : (s.flushIf b).mstatus = s.mstatus := by cases b <;> rfl
@[simp] theorem flushIf_medeleg (s : State) (b : Bool) : (s.flushIf b).medeleg = s.medeleg := by cases b <;> rfl
@[simp] theorem flushIf_mideleg (s : State) (b : Bool) : (s.flushIf b).mideleg = s.mideleg := by cases b <;> rfl
@[simp] theorem flushIf_mie (s : State) (b : Bool) : (s.flushIf b).mie = s.mie := by cases b <;> rfl
@[simp] theorem flushIf_mip (s : State) (b : Bool) : (s.flushIf b).mip = s.mip := by cases b <;> rfl
@[simp] theorem flushIf_mtvec (s : State) (b : Bool) : (s.flushIf b).mtvec = s.mtvec := by cases b <;> rfl
@[simp] theorem flushIf_stvec (s : State) (b : Bool) : (s.flushIf b).stvec = s.stvec := by cases b <;> rfl
@[simp] theorem flushIf_mcounteren (s : State) (b : Bool) : (s.flushIf b).mcounteren = s.mcounteren := by cases b <;> rfl
@[simp] theorem flushIf_scounteren (s : State) (b : Bool) : (s.flushIf b).scounteren = s.scounteren := by cases b <;> rfl
@[simp] theorem flushIf_mscratch (s : State) (b : Bool) : (s.flushIf b).mscratch = s.mscratch := by cases b <;> rfl
@[simp] theorem flushIf_sscratch (s : State) (b : Bool) : (s.flushIf b).sscratch = s.sscratch := by cases b <;> rfl
@[simp] theorem flushIf_mepc (s : State) (b : Bool) : (s.flushIf b).mepc = s.mepc := by cases b <;> rfl
@[simp] theorem flushIf_sepc (s : State) (b : Bool) : (s.flushIf b).sepc = s.sepc := by cases b <;> rfl
@[simp] theorem flushIf_mcause (s : State) (b : Bool) : (s.flushIf b).mcause = s.mcause := by cases b <;> rfl
@[simp] theorem flushIf_scause (s : State) (b : Bool) : (s.flushIf b).scause = s.scause := by cases b <;> rfl
@[simp] theorem flushIf_mtval (s : State) (b : Bool) : (s.flushIf b).mtval = s.mtval := by cases b <;> rfl
@[simp] theorem flushIf_stval (s : State) (b : Bool) : (s.flushIf b).stval = s.stval := by cases b <;> rfl
@[simp] theorem flushIf_satp (s : State) (b : Bool) : (s.flushIf b).satp = s.satp := by cases b <;> rfl
@[simp] theorem flushIf_mem (s : State) (b : Bool) : (s.flushIf b).mem = s.mem := by cases b <;> rfl
@[simp] theorem flushIf_bus (s : State) (b : Bool) : (s.flushIf b).bus = s.bus := by cases b <;> rfl
@[simp] theorem flushIf_plat (s : State) (b : Bool) : (s.flushIf b).plat = s.plat := by cases b <;> rfl

/-! ## Trap entry: what it leaves alone (60_exceptions.md R454) -/

@[simp] theorem trapEntry_regs (c : Nat) (i : Bool) (v : Word) (s : State) : (trapEntry c i v s).regs = s.regs := by unfold trapEntry; split <;> rfl
@[simp] theorem trapEntry_halted (c : Nat) (i : Bool) (v : Word) (s : State) : (trapEntry c i v s).halted = s.halted := by unfold trapEntry; split <;> rfl
@[simp] theorem trapEntry_reservation (c : Nat) (i : Bool) (v : Word) (s : State) : (trapEntry c i v s).reservation = s.reservation := by unfold trapEntry; split <;> rfl
@[simp] theorem trapEntry_medeleg (c : Nat) (i : Bool) (v : Word) (s : State) : (trapEntry c i v s).medeleg = s.medeleg := by unfold trapEntry; split <;> rfl
@[simp] theorem trapEntry_mideleg (c : Nat) (i : Bool) (v : Word) (s : State) : (trapEntry c i v s).mideleg = s.mideleg := by unfold trapEntry; split <;> rfl
@[simp] theorem trapEntry_mie (c : Nat) (i : Bool) (v : Word) (s : State) : (trapEntry c i v s).mie = s.mie := by unfold trapEntry; split <;> rfl
@[simp] theorem trapEntry_mip (c : Nat) (i : Bool) (v : Word) (s : State) : (trapEntry c i v s).mip = s.mip := by unfold trapEntry; split <;> rfl
@[simp] theorem trapEntry_mtvec (c : Nat) (i : Bool) (v : Word) (s : State) : (trapEntry c i v s).mtvec = s.mtvec := by unfold trapEntry; split <;> rfl
@[simp] theorem trapEntry_stvec (c : Nat) (i : Bool) (v : Word) (s : State) : (trapEntry c i v s).stvec = s.stvec := by unfold trapEntry; split <;> rfl
@[simp] theorem trapEntry_mcounteren (c : Nat) (i : Bool) (v : Word) (s : State) : (trapEntry c i v s).mcounteren = s.mcounteren := by unfold trapEntry; split <;> rfl
@[simp] theorem trapEntry_scounteren (c : Nat) (i : Bool) (v : Word) (s : State) : (trapEntry c i v s).scounteren = s.scounteren := by unfold trapEntry; split <;> rfl
@[simp] theorem trapEntry_mscratch (c : Nat) (i : Bool) (v : Word) (s : State) : (trapEntry c i v s).mscratch = s.mscratch := by unfold trapEntry; split <;> rfl
@[simp] theorem trapEntry_sscratch (c : Nat) (i : Bool) (v : Word) (s : State) : (trapEntry c i v s).sscratch = s.sscratch := by unfold trapEntry; split <;> rfl
@[simp] theorem trapEntry_satp (c : Nat) (i : Bool) (v : Word) (s : State) : (trapEntry c i v s).satp = s.satp := by unfold trapEntry; split <;> rfl
@[simp] theorem trapEntry_mem (c : Nat) (i : Bool) (v : Word) (s : State) : (trapEntry c i v s).mem = s.mem := by unfold trapEntry; split <;> rfl
@[simp] theorem trapEntry_bus (c : Nat) (i : Bool) (v : Word) (s : State) : (trapEntry c i v s).bus = s.bus := by unfold trapEntry; split <;> rfl
@[simp] theorem trapEntry_plat (c : Nat) (i : Bool) (v : Word) (s : State) : (trapEntry c i v s).plat = s.plat := by unfold trapEntry; split <;> rfl
@[simp] theorem trapEntry_mcycle (c : Nat) (i : Bool) (v : Word) (s : State) : (trapEntry c i v s).mcycle = s.mcycle + 1 := by unfold trapEntry; split <;> rfl
@[simp] theorem trapEntry_fetchTlb (c : Nat) (i : Bool) (v : Word) (s : State) : (trapEntry c i v s).fetchTlb = [] := by unfold trapEntry; split <;> rfl
@[simp] theorem trapEntry_readTlb (c : Nat) (i : Bool) (v : Word) (s : State) : (trapEntry c i v s).readTlb = [] := by unfold trapEntry; split <;> rfl
@[simp] theorem trapEntry_writeTlb (c : Nat) (i : Bool) (v : Word) (s : State) : (trapEntry c i v s).writeTlb = [] := by unfold trapEntry; split <;> rfl

/-! ## Registers -/

@[simp] theorem x_zero (s : State) : s.x 0 = 0#32 := rfl

theorem x_eq_get (s : State) {r : Reg} (h : r ≠ 0) : s.x r = s.regs.get r := by unfold State.x; rw [if_neg h]

/-- Two states with the same register file read the same registers. -/
theorem x_congr {s t : State} (h : t.regs = s.regs) (r : Reg) : t.x r = s.x r := by unfold State.x; rw [h]

/-- Reading after writing (10_state.md R21, R22). -/
theorem x_setX (s : State) (r r' : Reg) (v : Word) : (s.setX r v).x r' = if r' = r ∧ r' ≠ 0 then v else s.x r' := by
  unfold State.setX State.x
  by_cases h0 : r = 0
  · subst h0; by_cases h : r' = 0 <;> simp [h]
  · by_cases h1 : r' = 0
    · simp [h1]
    · by_cases h2 : r' = r
      · subst h2; simp [h0, Vector.get_eq_getElem]
      · have : r.val ≠ r'.val := fun h => h2 (Fin.ext h).symm
        simp [h0, h1, h2, Vector.get_eq_getElem, Vector.getElem_set_ne _ _ this]

@[simp] theorem x_setX_self (s : State) {r : Reg} (v : Word) (h : r ≠ 0) : (s.setX r v).x r = v := by simp [x_setX, h]

theorem x_setX_ne (s : State) {r r' : Reg} (v : Word) (h : r' ≠ r) : (s.setX r v).x r' = s.x r' := by simp [x_setX, h]

@[simp] theorem setX_zero (s : State) (v : Word) : s.setX 0 v = s := rfl

@[simp] theorem x_advance (s : State) (n : Word) (r : Reg) : (s.advance n).x r = s.x r := rfl

@[simp] theorem x_jumpTo (s : State) (t : Word) (r : Reg) : (s.jumpTo t).x r = s.x r := rfl

@[simp] theorem x_flushTlb (s : State) (r : Reg) : s.flushTlb.x r = s.x r := rfl

/-- `setX` changes the register file alone. -/
theorem setX_eq (s : State) (r : Reg) (v : Word) : s.setX r v = { s with regs := (s.setX r v).regs } := by
  unfold State.setX; split <;> rfl

/-- `x[0]` keeps its zero. -/
theorem setX_get_zero (s : State) (r : Reg) (v : Word) : (s.setX r v).regs.get 0 = s.regs.get 0 := by
  unfold State.setX
  split
  · rfl
  · rename_i h
    have : r.val ≠ 0 := fun h' => h (Fin.ext h')
    simp [Vector.get_eq_getElem, Vector.getElem_set_ne _ _ this]

end Sys2Proof.Machine
end

