-- ==== Sys2Proof/Laws/Memory.lean ====
section
/-! SUPPORT. The laws of RAM contents: the canonical form is kept by every operation and makes equal contents equal
data; a read after a write (20_memory.md R101, R102, R104, R160). -/

namespace Sys2Proof.Machine

open Sys2Proof

/-! ## Bytes at natural-number addresses -/

theorem Memory.get_eq_zero_of_lt {m : Memory} {lo a : Nat} (h : m.wfFrom lo = true) (ha : a < lo) : m.get a = 0#8 := by
  induction m generalizing lo with
  | nil => rfl
  | cons c t ih =>
    obtain ⟨k, b⟩ := c
    simp only [Memory.wfFrom, Bool.and_eq_true, decide_eq_true_eq] at h
    rw [Memory.get, if_neg (by omega)]
    exact ih h.2 (by omega)

theorem Memory.get_set {m : Memory} {lo : Nat} (h : m.wfFrom lo = true) (a b : Nat) (v : Byte) :
    (m.set a v).get b = if b = a then v else m.get b := by
  induction m generalizing lo with
  | nil =>
    simp only [Memory.set, Memory.get]
    split
    · next hv => subst hv; simp [Memory.get]
    · simp [Memory.get, eq_comm]
  | cons c t ih =>
    obtain ⟨k, w⟩ := c
    simp only [Memory.wfFrom, Bool.and_eq_true, decide_eq_true_eq] at h
    have ht : ∀ x, x < k + 1 → Memory.get t x = 0#8 := fun x hx => Memory.get_eq_zero_of_lt h.2 hx
    simp only [Memory.set]
    split
    · next hak =>
      have hta := ht a (by omega)
      split
      · next hv =>
        subst hv
        by_cases hb : b = a
        · subst hb; simp [Memory.get, hta, show k ≠ b by omega]
        · simp [hb]
      · by_cases hb : b = a
        · simp [Memory.get, hb]
        · simp [Memory.get, hb, Ne.symm hb]
    · split
      · next hak hak' =>
        subst hak'
        split
        · next hv =>
          subst hv
          by_cases hb : b = a
          · simp [hb, ht a (by omega)]
          · simp [Memory.get, hb, Ne.symm hb]
        · by_cases hb : b = a
          · simp [Memory.get, hb]
          · simp [Memory.get, hb, Ne.symm hb]
      · next hak hak' =>
        simp only [Memory.get]
        by_cases hk : k = b
        · simp [hk, show b ≠ a by omega]
        · simp [hk, ih h.2]

theorem Memory.wfFrom_mono {m : Memory} {lo lo' : Nat} (h : m.wfFrom lo = true) (hl : lo' ≤ lo) :
    m.wfFrom lo' = true := by
  cases m with
  | nil => rfl
  | cons c t =>
    obtain ⟨k, b⟩ := c
    simp only [Memory.wfFrom, Bool.and_eq_true, decide_eq_true_eq] at h ⊢
    exact ⟨⟨⟨by omega, h.1.1.2⟩, h.1.2⟩, h.2⟩

theorem Memory.wfFrom_set {m : Memory} {lo a : Nat} (h : m.wfFrom lo = true) (hlo : lo ≤ a) (ha : a < 2 ^ 32) (v : Byte) :
    (m.set a v).wfFrom lo = true := by
  induction m generalizing lo with
  | nil =>
    simp only [Memory.set]
    split
    · rfl
    · next hv => simp [Memory.wfFrom, hlo, hv]; omega
  | cons c t ih =>
    obtain ⟨k, w⟩ := c
    have h' := h
    simp only [Memory.wfFrom, Bool.and_eq_true, decide_eq_true_eq] at h
    simp only [Memory.set]
    split
    · next hak =>
      split
      · exact h'
      · next hv =>
        simp only [Memory.wfFrom, Bool.and_eq_true, decide_eq_true_eq, bne_iff_ne]
        exact ⟨⟨⟨hlo, ha⟩, hv⟩, ⟨⟨by omega, h.1.1.2⟩, by simpa using h.1.2⟩, h.2⟩
    · split
      · next hak hak' =>
        subst hak'
        split
        · exact Memory.wfFrom_mono h.2 (by omega)
        · next hv =>
          simp only [Memory.wfFrom, Bool.and_eq_true, decide_eq_true_eq, bne_iff_ne]
          exact ⟨⟨⟨hlo, ha⟩, hv⟩, h.2⟩
      · next hak hak' =>
        simp only [Memory.wfFrom, Bool.and_eq_true, decide_eq_true_eq]
        exact ⟨h.1, ih h.2 (by omega)⟩

theorem Memory.eq_of_get_eq {m m' : Memory} {lo : Nat} (h : m.wfFrom lo = true) (h' : m'.wfFrom lo = true)
    (hg : ∀ a, m.get a = m'.get a) : m = m' := by
  induction m generalizing m' lo with
  | nil =>
    cases m' with
    | nil => rfl
    | cons c t =>
      obtain ⟨k, b⟩ := c
      simp only [Memory.wfFrom, Bool.and_eq_true, bne_iff_ne] at h'
      exact absurd (by simpa [Memory.get] using (hg k).symm) h'.1.2
  | cons c t ih =>
    obtain ⟨k, b⟩ := c
    cases m' with
    | nil =>
      simp only [Memory.wfFrom, Bool.and_eq_true, bne_iff_ne] at h
      exact absurd (by simpa [Memory.get] using hg k) h.1.2
    | cons c' t' =>
      obtain ⟨k', b'⟩ := c'
      simp only [Memory.wfFrom, Bool.and_eq_true, decide_eq_true_eq, bne_iff_ne] at h h'
      have hk : k = k' := by
        rcases Nat.lt_trichotomy k k' with hlt | heq | hgt
        · have hz := Memory.get_eq_zero_of_lt h'.2 (show k < k' + 1 by omega)
          have := hg k
          simp only [Memory.get, if_true, if_neg (show k' ≠ k by omega), hz] at this
          exact absurd this h.1.2
        · exact heq
        · have hz := Memory.get_eq_zero_of_lt h.2 (show k' < k + 1 by omega)
          have := hg k'
          simp only [Memory.get, if_true, if_neg (show k ≠ k' by omega), hz] at this
          exact absurd this.symm h'.1.2
      subst hk
      have hb : b = b' := by simpa [Memory.get] using hg k
      subst hb
      have : t = t' := ih h.2 h'.2 (fun a => by
        by_cases ha : k = a
        · subst ha
          rw [Memory.get_eq_zero_of_lt h.2 (by omega), Memory.get_eq_zero_of_lt h'.2 (by omega)]
        · simpa [Memory.get, ha] using hg a)
      rw [this]

/-! ## Bytes at physical addresses -/

/-- Equal contents are equal data. -/
theorem Memory.ext_byteAt {m m' : Memory} (h : m.wf = true) (h' : m'.wf = true)
    (hg : ∀ a : Word, m.byteAt a = m'.byteAt a) : m = m' := by
  refine Memory.eq_of_get_eq h h' (fun a => ?_)
  have zero_above : ∀ {n : Memory} {lo : Nat}, n.wfFrom lo = true → 2 ^ 32 ≤ a → n.get a = 0#8 := by
    intro n
    induction n with
    | nil => intros; rfl
    | cons c t ih =>
      intro lo hn ha
      obtain ⟨k, b⟩ := c
      simp only [Memory.wfFrom, Bool.and_eq_true, decide_eq_true_eq] at hn
      rw [Memory.get, if_neg (by omega)]
      exact ih hn.2 ha
  by_cases ha : a < 2 ^ 32
  · have := hg (BitVec.ofNat 32 a)
    unfold Memory.byteAt at this
    rwa [BitVec.toNat_ofNat, Nat.mod_eq_of_lt ha] at this
  · rw [zero_above h (by omega), zero_above h' (by omega)]

theorem Memory.byteAt_setByte {m : Memory} (h : m.wf = true) (pa a : Word) (v : Byte) :
    (m.setByte pa v).byteAt a = if a = pa then v else m.byteAt a := by
  unfold Memory.byteAt Memory.setByte
  rw [Memory.get_set h]
  simp [BitVec.toNat_inj]

theorem Memory.wf_setByte {m : Memory} (h : m.wf = true) (pa : Word) (v : Byte) : (m.setByte pa v).wf = true :=
  Memory.wfFrom_set h (Nat.zero_le _) pa.isLt v

theorem Memory.wf_store {m : Memory} (h : m.wf = true) (pa : Word) (n : AccessSize) (v : Word) :
    (m.store pa n v).wf = true := by
  cases n <;> simp only [Memory.store] <;> repeat first | exact h | apply Memory.wf_setByte

theorem Memory.wf_nil : Memory.wf [] = true := rfl

theorem sub_lt_iff (a pa : Word) (k : Nat) (hk : k ≤ 4) :
    (a - pa).toNat < k ↔ ∃ j : Nat, j < k ∧ a = pa + BitVec.ofNat 32 j := by
  constructor
  · intro h
    refine ⟨(a - pa).toNat, h, ?_⟩
    rw [BitVec.ofNat_toNat, BitVec.setWidth_eq, BitVec.add_comm, BitVec.sub_add_cancel]
  · rintro ⟨j, hj, rfl⟩
    have : pa + BitVec.ofNat 32 j - pa = BitVec.ofNat 32 j := by
      rw [BitVec.add_comm, BitVec.add_sub_cancel]
    rw [this, BitVec.toNat_ofNat]
    omega

/-- One byte after a store: byte `a - pa` of the value inside the stored bytes, the old byte outside. -/
theorem Memory.byteAt_store {m : Memory} (h : m.wf = true) (pa a : Word) (n : AccessSize) (v : Word) :
    (m.store pa n v).byteAt a =
      if (a - pa).toNat < sizeBytes n then byteOf v (a - pa).toNat else m.byteAt a := by
  have sub : ∀ c : Word, pa + c - pa = c := fun c => by rw [BitVec.add_comm, BitVec.add_sub_cancel]
  have split4 : ∀ k, k ≤ 4 → (a - pa).toNat < k → a = pa + BitVec.ofNat 32 (a - pa).toNat := by
    intro k _ _; rw [BitVec.ofNat_toNat, BitVec.setWidth_eq, BitVec.add_comm, BitVec.sub_add_cancel]
  cases n
  · simp only [Memory.store, sizeBytes]
    rw [Memory.byteAt_setByte h]
    by_cases ha : a = pa
    · simp [ha]
    · have : ¬ (a - pa).toNat < 1 := by
        intro hlt
        apply ha
        have := split4 1 (by omega) hlt
        rw [this, show (a - pa).toNat = 0 by omega]; simp
      rw [if_neg ha]; exact (if_neg this).symm
  · simp only [Memory.store, sizeBytes]
    rw [Memory.byteAt_setByte (Memory.wf_setByte h _ _), Memory.byteAt_setByte h]
    by_cases h1 : a = pa + 1
    · subst h1; simp [sub]
    · by_cases h0 : a = pa
      · subst h0; simp
      · have : ¬ (a - pa).toNat < 2 := by
          intro hlt
          have := split4 2 (by omega) hlt
          rcases (show (a - pa).toNat = 0 ∨ (a - pa).toNat = 1 by omega) with e | e <;> rw [e] at this
          · exact h0 (by simpa using this)
          · exact h1 this
        rw [if_neg h1, if_neg h0]; exact (if_neg this).symm
  · simp only [Memory.store, sizeBytes]
    have w1 := Memory.wf_setByte h pa (byteOf v 0)
    have w2 := Memory.wf_setByte w1 (pa + 1) (byteOf v 1)
    have w3 := Memory.wf_setByte w2 (pa + 2) (byteOf v 2)
    rw [Memory.byteAt_setByte w3, Memory.byteAt_setByte w2, Memory.byteAt_setByte w1, Memory.byteAt_setByte h]
    by_cases h3 : a = pa + 3
    · subst h3; simp [sub]
    · by_cases h2 : a = pa + 2
      · subst h2; simp [sub]
      · by_cases h1 : a = pa + 1
        · subst h1; simp [sub]
        · by_cases h0 : a = pa
          · subst h0; simp
          · have : ¬ (a - pa).toNat < 4 := by
              intro hlt
              have := split4 4 (by omega) hlt
              rcases (show (a - pa).toNat = 0 ∨ (a - pa).toNat = 1 ∨ (a - pa).toNat = 2 ∨ (a - pa).toNat = 3 by
                omega) with e | e | e | e <;> rw [e] at this
              · exact h0 (by simpa using this)
              · exact h1 this
              · exact h2 this
              · exact h3 this
            rw [if_neg h3, if_neg h2, if_neg h1, if_neg h0]; exact (if_neg this).symm

/-- A load reads the bytes of its range and nothing else. -/
theorem Memory.load_congr {m m' : Memory} {pa : Word} {n : AccessSize}
    (h : ∀ a : Word, (a - pa).toNat < sizeBytes n → m.byteAt a = m'.byteAt a) : m.load pa n = m'.load pa n := by
  have sub : ∀ c : Word, pa + c - pa = c := fun c => by rw [BitVec.add_comm, BitVec.add_sub_cancel]
  cases n <;> simp only [Memory.load]
  · rw [h pa (by simp [sizeBytes])]
  · rw [h pa (by simp [sizeBytes]), h (pa + 1) (by simp [sub, sizeBytes])]
  · rw [h pa (by simp [sizeBytes]), h (pa + 1) (by simp [sub, sizeBytes]), h (pa + 2) (by simp [sub, sizeBytes]),
      h (pa + 3) (by simp [sub, sizeBytes])]

/-- The value a store leaves at its own address: the low bytes of the value stored. -/
theorem Memory.load_store {m : Memory} (h : m.wf = true) (pa : Word) (n : AccessSize) (v : Word) :
    (m.store pa n v).load pa n = maskToSize n v := by
  have sub : ∀ c : Word, pa + c - pa = c := fun c => by rw [BitVec.add_comm, BitVec.add_sub_cancel]
  have mask : ∀ i, (0xFF#32).getLsbD i = decide (i < 8) ∧ (0xFFFF#32).getLsbD i = decide (i < 16) := by
    intro i
    by_cases hi : i < 32
    · revert i; decide
    · rw [BitVec.getLsbD_of_ge _ _ (by omega), BitVec.getLsbD_of_ge _ _ (by omega)]
      simp; omega
  cases n <;> simp only [Memory.load, Memory.byteAt_store h, maskToSize, sizeBytes, sub, BitVec.sub_self] <;>
    apply BitVec.eq_of_getLsbD_eq <;> intro i hi
  · simp only [byteOf, BitVec.getLsbD_setWidth, BitVec.getLsbD_and, (mask i).1]
    by_cases h8 : i < 8 <;> simp [h8, hi]
  · simp only [byteOf, BitVec.getLsbD_setWidth, BitVec.getLsbD_and, (mask i).2,
      BitVec.getLsbD_append]
    by_cases h8 : i < 8
    · simp [h8, hi, show i < 16 by omega]
    · by_cases h16 : i < 16
      · simp [h8, h16, hi, show i - 8 < 8 by omega, show 8 + (i - 8) = i by omega]
      · simp [h8, h16, show ¬ i - 8 < 8 by omega]
  · simp only [byteOf, BitVec.getLsbD_append]
    by_cases h8 : i < 8
    · simp [h8]
    · by_cases h16 : i < 16
      · simp [h8, show i - 8 < 8 by omega, show 8 + (i - 8) = i by omega]
      · by_cases h24 : i < 24
        · simp [h8, show ¬ i - 8 < 8 by omega, show i - 8 - 8 < 8 by omega, show 16 + (i - 8 - 8) = i by omega]
        · simp [h8, show ¬ i - 8 < 8 by omega, show ¬ i - 8 - 8 < 8 by omega, show i - 8 - 8 - 8 < 8 by omega,
            show 24 + (i - 8 - 8 - 8) = i by omega]

end Sys2Proof.Machine
end

