-- ==== Sys2Proof/Laws/Tlb.lean ====
section
/-! SUPPORT. The laws of the memory map and of the translation caches (20_memory.md R100, R105, R150 to R153). -/

namespace Sys2Proof.Machine

open Sys2Proof

/-! ## Pages -/

theorem pageOf_toNat (va : Word) : (pageOf va).toNat = va.toNat / 4096 := by
  unfold pageOf
  rw [BitVec.extractLsb'_toNat, Nat.shiftRight_eq_div_pow]
  have := va.isLt
  omega

theorem pageOf_eq_iff (a b : Word) : pageOf a = pageOf b ↔ a.toNat / 4096 = b.toNat / 4096 := by
  rw [← BitVec.toNat_inj, pageOf_toNat, pageOf_toNat]

theorem append_zero_toNat (p : BitVec 20) : (p ++ 0#12 : Word).toNat = p.toNat * 4096 := by
  rw [BitVec.toNat_append]
  simp [Nat.shiftLeft_eq]

theorem pageBase_toNat (va : Word) : (pageBase va).toNat = va.toNat / 4096 * 4096 := by
  unfold pageBase
  rw [append_zero_toNat, pageOf_toNat]

theorem pageOf_pageBase (va : Word) : pageOf (pageBase va) = pageOf va := by
  rw [pageOf_eq_iff, pageBase_toNat]; omega

theorem pageOf_append (p : BitVec 20) : pageOf (p ++ 0#12) = p := by
  rw [← BitVec.toNat_inj, pageOf_toNat, append_zero_toNat]; omega

/-! ## Alignment -/

theorem misaligned_half (a : Word) : misaligned .half a = true ↔ a.toNat % 2 ≠ 0 := by
  simp [misaligned, ← BitVec.toNat_inj]

theorem misaligned_word (a : Word) : misaligned .word a = true ↔ a.toNat % 4 ≠ 0 := by
  simp [misaligned, ← BitVec.toNat_inj]

theorem aligned_iff (n : AccessSize) (a : Word) : misaligned n a = false ↔ a.toNat % sizeBytes n = 0 := by
  cases n
  · simp [misaligned, sizeBytes]; omega
  · rw [← Bool.not_eq_true, misaligned_half, sizeBytes]; omega
  · rw [← Bool.not_eq_true, misaligned_word, sizeBytes]; omega

/-- The bytes of an aligned access lie in one page. -/
theorem pageOf_of_aligned {n : AccessSize} {pa a : Word} (h : misaligned n pa = false)
    (ha : (a - pa).toNat < sizeBytes n) : pageOf a = pageOf pa := by
  rw [aligned_iff] at h
  rw [pageOf_eq_iff]
  rw [BitVec.toNat_sub] at ha
  have h1 := a.isLt
  have h2 := pa.isLt
  cases n <;> simp only [sizeBytes] at h ha <;> omega

/-! ## The memory map -/

theorem inRange_iff (r : Range) (a : Nat) : inRange r a = true ↔ r.base ≤ a ∧ a < r.base + r.size := by
  simp [inRange]

theorem rangeBacking_ram {r r' : Range} (h : rangeBacking r = .ram r') : r.kind = .ram ∧ r = r' := by
  unfold rangeBacking at h
  split at h
  · next hk => exact ⟨hk, by simpa using h⟩
  · cases h

/-- A RAM range answers for the whole page of every address in it (R105). -/
theorem classify_ram_page {p : Platform} (hp : platformWf p = true) {a a' : Word} {r : Range}
    (h : classify p a = .ram r) (hpage : pageOf a' = pageOf a) : classify p a' = .ram r := by
  rw [pageOf_eq_iff] at hpage
  unfold classify at h ⊢
  unfold platformWf at hp
  revert hp h
  generalize p.ranges = l
  intro hp h
  induction l with
  | nil => simp at h
  | cons r0 t ih =>
    simp only [rangesWf, Bool.and_eq_true] at hp
    obtain ⟨⟨hr0, hdis⟩, ht⟩ := hp
    have page_mem : ∀ {q : Range}, rangeWf q = true → q.kind = .ram → inRange q a.toNat = true →
        inRange q a'.toNat = true := by
      intro q hq hk hin
      simp only [rangeWf, hk, Bool.and_eq_true, decide_eq_true_eq, beq_iff_eq] at hq
      rw [inRange_iff] at hin ⊢
      omega
    by_cases hin : inRange r0 a.toNat = true
    · simp only [List.find?_cons, hin] at h
      obtain ⟨hk, rfl⟩ := rangeBacking_ram h
      simp only [List.find?_cons, page_mem hr0 hk hin]
      exact h
    · simp only [Bool.not_eq_true] at hin
      simp only [List.find?_cons, hin] at h
      have hrec := ih ht h
      have hnot : inRange r0 a'.toNat = false := by
        revert hrec
        cases hf : t.find? (fun r => inRange r a'.toNat) with
        | none => intro hrec; cases hrec
        | some q =>
          intro hrec
          have hq := List.find?_some hf
          have hmem := List.mem_of_find?_eq_some hf
          have hd := (List.all_eq_true.mp hdis) q hmem
          simp only [disjoint, Bool.or_eq_true, decide_eq_true_eq] at hd
          rw [inRange_iff] at hq
          rw [Bool.eq_false_iff, ne_eq, inRange_iff]
          omega
      simp only [List.find?_cons, hnot]
      exact hrec

/-! ## Translation caches -/

theorem Tlb.lookup_eq_none_of_lt {t : Tlb} {lo : Nat} {p : BitVec 20} (h : t.wfFrom lo = true) (hp : tlbIndex p < lo) :
    t.lookup p = none := by
  induction t generalizing lo with
  | nil => rfl
  | cons e t ih =>
    simp only [Tlb.wfFrom, Bool.and_eq_true, decide_eq_true_eq] at h
    have hne : (e.page == p) = false := by
      rw [beq_eq_false_iff_ne]
      rintro rfl
      omega
    simp only [Tlb.lookup, List.find?_cons, hne]
    exact ih h.2 (by omega)

/-- What a translation cache answers after an install: the new entry for its page, nothing for another page of the
same index (R150: one entry for each index), the old answer for every other page. -/
theorem Tlb.lookup_insert {t : Tlb} {lo : Nat} (h : t.wfFrom lo = true) (e : TlbEntry) (p : BitVec 20) :
    (t.insert e).lookup p =
      if p = e.page then some e else if tlbIndex p = tlbIndex e.page then none else t.lookup p := by
  induction t generalizing lo with
  | nil =>
    by_cases hp : p = e.page
    · simp [Tlb.insert, Tlb.lookup, hp]
    · simp [Tlb.insert, Tlb.lookup, hp, Ne.symm hp]
  | cons e' t ih =>
    simp only [Tlb.wfFrom, Bool.and_eq_true, decide_eq_true_eq] at h
    have low : ∀ q, tlbIndex q < tlbIndex e'.page + 1 → Tlb.lookup t q = none := fun q hq =>
      Tlb.lookup_eq_none_of_lt h.2 hq
    have cons_eq : ∀ q (x : TlbEntry) (l : Tlb), Tlb.lookup (x :: l) q = if x.page = q then some x else Tlb.lookup l q := by
      intro q x l
      simp only [Tlb.lookup, List.find?_cons]
      by_cases hx : x.page = q
      · simp [hx]
      · have : (x.page == q) = false := by simpa using hx
        simp [this, hx]
    rw [cons_eq]
    simp only [Tlb.insert]
    split
    · next hlt =>
      rw [cons_eq, cons_eq]
      by_cases hp : p = e.page
      · simp [hp]
      · by_cases hi : tlbIndex p = tlbIndex e.page
        · have : e'.page ≠ p := by rintro rfl; omega
          simp [hp, Ne.symm hp, hi, this, low p (by omega)]
        · simp [hp, Ne.symm hp, hi]
    · split
      · next hnlt heq =>
        rw [cons_eq]
        by_cases hp : p = e.page
        · simp [hp]
        · by_cases hi : tlbIndex p = tlbIndex e.page
          · simp [hp, Ne.symm hp, hi, low p (by omega)]
          · have : e'.page ≠ p := by rintro rfl; omega
            simp [hp, Ne.symm hp, hi, this]
      · next hnlt hne =>
        rw [cons_eq, ih h.2]
        by_cases hp : p = e.page
        · have : e'.page ≠ p := by rintro rfl; rw [hp] at hne; exact hne rfl
          simp [hp, hp ▸ this]
        · by_cases hi : tlbIndex p = tlbIndex e.page
          · have : e'.page ≠ p := by rintro rfl; omega
            simp [hp, hi, this]
          · simp [hp, hi]

theorem Tlb.wfFrom_insert {t : Tlb} {lo : Nat} (h : t.wfFrom lo = true) (e : TlbEntry) (hlo : lo ≤ tlbIndex e.page) :
    (t.insert e).wfFrom lo = true := by
  induction t generalizing lo with
  | nil => simp [Tlb.insert, Tlb.wfFrom, hlo]
  | cons e' t ih =>
    simp only [Tlb.wfFrom, Bool.and_eq_true, decide_eq_true_eq] at h
    simp only [Tlb.insert]
    split
    · next hlt =>
      simp only [Tlb.wfFrom, Bool.and_eq_true, decide_eq_true_eq]
      exact ⟨hlo, by omega, h.2⟩
    · split
      · next heq =>
        simp only [Tlb.wfFrom, Bool.and_eq_true, decide_eq_true_eq]
        exact ⟨hlo, heq ▸ h.2⟩
      · next hlt hne =>
        simp only [Tlb.wfFrom, Bool.and_eq_true, decide_eq_true_eq]
        exact ⟨h.1, ih h.2 (by omega)⟩

theorem Tlb.mem_insert {t : Tlb} {e x : TlbEntry} (h : x ∈ t.insert e) : x = e ∨ x ∈ t := by
  induction t with
  | nil => simpa [Tlb.insert] using h
  | cons e' t ih =>
    simp only [Tlb.insert] at h
    split at h
    · simpa using h
    · split at h
      · simp only [List.mem_cons] at h ⊢; tauto
      · simp only [List.mem_cons] at h ⊢
        rcases h with h | h
        · tauto
        · rcases ih h with h | h <;> tauto

/-- A hit's entry is an entry of the table, for the page asked. -/
theorem Tlb.lookup_some {t : Tlb} {p : BitVec 20} {e : TlbEntry} (h : t.lookup p = some e) : e ∈ t ∧ e.page = p :=
  ⟨List.mem_of_find?_eq_some h, by simpa using List.find?_some h⟩

/-- The delta of an installed entry takes the page's addresses to the physical page (R151, R153). -/
theorem tlbEntryFor_delta (va pa : Word) (r : Range) : pageBase va + (tlbEntryFor va pa r).delta = pageBase pa := by
  simp only [tlbEntryFor]
  rw [BitVec.add_comm, BitVec.sub_add_cancel]

end Sys2Proof.Machine
end

