-- ==== Sys2Proof/Laws/Access.lean ====
section
/-! SUPPORT. Once for each access operation, everything it can do to the state: which fields it can change, which
exceptions it can raise, and that it keeps the storage invariant. -/

namespace Sys2Proof.Machine

open Sys2Proof

/-! ## `OnlyStorage` -/

theorem OnlyStorage.refl (s : State) : OnlyStorage s s := rfl

theorem OnlyStorage.trans {s t u : State} (h : OnlyStorage s t) (h' : OnlyStorage t u) : OnlyStorage s u := by
  unfold OnlyStorage at h h' ⊢
  rw [h'] ; rw [h]

theorem OnlyStorage.regs {s t : State} (h : OnlyStorage s t) : t.regs = s.regs := by rw [h]
theorem OnlyStorage.pc {s t : State} (h : OnlyStorage s t) : t.pc = s.pc := by rw [h]
theorem OnlyStorage.priv {s t : State} (h : OnlyStorage s t) : t.priv = s.priv := by rw [h]
theorem OnlyStorage.mstatus {s t : State} (h : OnlyStorage s t) : t.mstatus = s.mstatus := by rw [h]
theorem OnlyStorage.satp {s t : State} (h : OnlyStorage s t) : t.satp = s.satp := by rw [h]
theorem OnlyStorage.plat {s t : State} (h : OnlyStorage s t) : t.plat = s.plat := by rw [h]
theorem OnlyStorage.mcycle {s t : State} (h : OnlyStorage s t) : t.mcycle = s.mcycle := by rw [h]
theorem OnlyStorage.reservation {s t : State} (h : OnlyStorage s t) : t.reservation = s.reservation := by rw [h]
theorem OnlyStorage.x {s t : State} (h : OnlyStorage s t) (r : Reg) : t.x r = s.x r := x_congr h.regs r

/-! ## `Access` -/

/-- The state an access leaves, in both outcomes. -/
def Access.state {α : Type} : Access α → State
  | .ok _ s => s
  | .raise _ s => s

/-- A property of the state that `a` leaves and that every continuation keeps holds of the whole. -/
theorem Access.bind_state {α β : Type} {P : State → Prop} {a : Access α} {f : α → State → Access β}
    (ha : P a.state) (hf : ∀ v s, a = .ok v s → P s → P (f v s).state) : P (a.bind f).state := by
  cases a with
  | ok v s => exact hf v s rfl ha
  | raise e s => exact ha

/-- The exceptions of a sequence: those of its first part and those of its second. -/
theorem Access.bind_raise {α β : Type} {a : Access α} {f : α → State → Access β} {e : Exc} {t : State}
    (h : a.bind f = .raise e t) : a = .raise e t ∨ ∃ v s, a = .ok v s ∧ f v s = .raise e t := by
  cases a with
  | ok v s => exact .inr ⟨v, s, rfl, h⟩
  | raise e' s => simp only [Access.bind, Access.raise.injEq] at h; exact .inl (by rw [h.1, h.2])

theorem Access.bind_ok {α β : Type} {a : Access α} {f : α → State → Access β} {v : β} {t : State}
    (h : a.bind f = .ok v t) : ∃ u s, a = .ok u s ∧ f u s = .ok v t := by
  cases a with
  | ok u s => exact ⟨u, s, rfl, h⟩
  | raise e s => cases h

/-! ## The bus -/

theorem readBacking_only (b : Backing) (pa : Word) (n : AccessSize) (s : State) :
    OnlyStorage s (readBacking b pa n s).2 := by cases b <;> rfl

theorem writeBacking_only (b : Backing) (pa : Word) (n : AccessSize) (v : Word) (s : State) :
    OnlyStorage s (writeBacking b pa n v s).2 := by cases b <;> rfl

/-- A read never changes memory. -/
@[simp] theorem readBacking_mem (b : Backing) (pa : Word) (n : AccessSize) (s : State) :
    (readBacking b pa n s).2.mem = s.mem := by cases b <;> rfl

theorem State.StorageInv.congr {s t : State} (h : s.StorageInv) (hp : t.plat = s.plat) (hm : t.mem = s.mem)
    (hf : t.fetchTlb = s.fetchTlb) (hr : t.readTlb = s.readTlb) (hw : t.writeTlb = s.writeTlb) : t.StorageInv :=
  ⟨hp ▸ h.platform, hm ▸ h.memory, hm ▸ hp ▸ h.inRam, hf ▸ hp ▸ h.fetchCache, hr ▸ hp ▸ h.readCache,
    hw ▸ hp ▸ h.writeCache⟩

/-- The invariant holds with the caches flushed. -/
theorem State.StorageInv.flushed {s t : State} (h : s.StorageInv) (hp : t.plat = s.plat) (hm : t.mem = s.mem)
    (hf : t.fetchTlb = []) (hr : t.readTlb = []) (hw : t.writeTlb = []) : t.StorageInv :=
  ⟨hp ▸ h.platform, hm ▸ h.memory, hm ▸ hp ▸ h.inRam, hf ▸ rfl, hr ▸ rfl, hw ▸ rfl⟩

theorem readBacking_storage {s : State} (h : s.StorageInv) (b : Backing) (pa : Word) (n : AccessSize) :
    (readBacking b pa n s).2.StorageInv := by
  cases b <;> exact h.congr rfl rfl rfl rfl rfl

theorem Memory.mem_set {m : Memory} {a : Nat} {v : Byte} {c : Host.Cell} (h : c ∈ m.set a v) :
    c = (a, v) ∨ c ∈ m := by
  induction m with
  | nil =>
    simp only [Memory.set] at h
    split at h <;> simp_all
  | cons d t ih =>
    obtain ⟨k, b⟩ := d
    simp only [Memory.set] at h
    split at h
    · split at h <;> simp only [List.mem_cons] at h ⊢ <;> tauto
    · split at h
      · split at h <;> simp only [List.mem_cons] at h ⊢ <;> tauto
      · simp only [List.mem_cons] at h ⊢
        rcases h with h | h
        · tauto
        · rcases ih h with h | h <;> tauto

theorem memoryInRam_setByte {p : Platform} {m : Memory} (h : memoryInRam p m = true) {pa : Word} {r : Range}
    (hr : classify p pa = .ram r) (v : Byte) : memoryInRam p (m.setByte pa v) = true := by
  unfold memoryInRam at h ⊢
  rw [List.all_eq_true] at h ⊢
  intro c hc
  rcases Memory.mem_set hc with rfl | hc
  · have : BitVec.ofNat 32 pa.toNat = pa := by simp
    simp only [this, hr]
  · exact h c hc

theorem memoryInRam_store {p : Platform} {m : Memory} (hp : platformWf p = true) (h : memoryInRam p m = true)
    {pa : Word} {r : Range} (hr : classify p pa = .ram r) {n : AccessSize} (ha : misaligned n pa = false) (v : Word) :
    memoryInRam p (m.store pa n v) = true := by
  have sub : ∀ c : Word, pa + c - pa = c := fun c => by rw [BitVec.add_comm, BitVec.add_sub_cancel]
  have hk : ∀ k : Word, k.toNat < sizeBytes n → classify p (pa + k) = .ram r := fun k hk =>
    classify_ram_page hp hr (pageOf_of_aligned ha (by rw [sub]; exact hk))
  cases n <;> simp only [Memory.store]
  · exact memoryInRam_setByte h hr _
  · exact memoryInRam_setByte (memoryInRam_setByte h hr _) (hk 1 (by decide)) _
  · exact memoryInRam_setByte (memoryInRam_setByte (memoryInRam_setByte (memoryInRam_setByte h hr _)
      (hk 1 (by decide)) _) (hk 2 (by decide)) _) (hk 3 (by decide)) _

theorem writeBacking_storage {s : State} (h : s.StorageInv) {b : Backing} {pa : Word} {n : AccessSize}
    (hb : ∀ r, b = .ram r → classify s.plat pa = .ram r) (ha : misaligned n pa = false) (v : Word) :
    (writeBacking b pa n v s).2.StorageInv := by
  cases b with
  | ram r =>
    exact ⟨h.platform, Memory.wf_store h.memory _ _ _, memoryInRam_store h.platform h.inRam (hb r rfl) ha _,
      h.fetchCache, h.readCache, h.writeCache⟩
  | mmio d => exact h.congr rfl rfl rfl rfl rfl
  | unmapped => exact h

/-! ## The walk -/

/-- A translation raises only the page fault and the access fault of its kind, with its own virtual address. -/
def WalkExc (k : AccessKind) (va : Word) (e : Exc) : Prop := e = pageFault k va ∨ e = accessFault k va

theorem updateAD_only (addr pte : Word) (k : AccessKind) (s : State) : OnlyStorage s (updateAD addr pte k s).2 := by
  unfold updateAD
  split
  · rfl
  · exact writeBacking_only _ _ _ _ _

theorem walkLeaf_only (addr pte va : Word) (k : AccessKind) (ep : Priv) (l : PtLevel) (s : State) :
    OnlyStorage s (walkLeaf addr pte va k ep l s).state := by
  unfold walkLeaf
  split
  · have := updateAD_only addr pte k s
    split <;> next h => rw [h] at this; exact this
  · exact OnlyStorage.refl s

theorem walkLeaf_raise {addr pte va : Word} {k : AccessKind} {ep : Priv} {l : PtLevel} {s t : State} {e : Exc}
    (h : walkLeaf addr pte va k ep l s = .raise e t) : WalkExc k va e := by
  unfold walkLeaf at h
  split at h
  · split at h
    · cases h
    · cases h; exact .inr rfl
  · cases h; exact .inl rfl

theorem walk_only (ls : List PtLevel) (base va : Word) (k : AccessKind) (ep : Priv) (s : State) :
    OnlyStorage s (walk ls base va k ep s).state := by
  induction ls generalizing base s with
  | nil => exact OnlyStorage.refl s
  | cons l ls ih =>
    unfold walk
    have hr := readBacking_only (classify s.plat (pteAddr base l va)) (pteAddr base l va) .word s
    split
    · next s' h => unfold physRead at h; rw [h] at hr; exact hr
    · next pte s' h =>
      unfold physRead at h
      rw [h] at hr
      split
      · exact hr
      · split
        · exact hr.trans (ih _ _)
        · exact hr.trans (walkLeaf_only _ _ _ _ _ _ _)

theorem walk_raise {ls : List PtLevel} {base va : Word} {k : AccessKind} {ep : Priv} {s t : State} {e : Exc}
    (h : walk ls base va k ep s = .raise e t) : WalkExc k va e := by
  induction ls generalizing base s with
  | nil => cases h; exact .inl rfl
  | cons l ls ih =>
    unfold walk at h
    split at h
    · cases h; exact .inr rfl
    · split at h
      · cases h; exact .inl rfl
      · split at h
        · exact ih h
        · exact walkLeaf_raise h

theorem pteAddr_aligned {base : Word} (h : base.toNat % 4096 = 0) (l : PtLevel) (va : Word) :
    misaligned .word (pteAddr base l va) = false := by
  rw [aligned_iff]
  unfold pteAddr
  have : (0#20 ++ vpnOf l va ++ 0#2 : Word).toNat = (vpnOf l va).toNat * 4 := by
    rw [BitVec.toNat_append, BitVec.toNat_append]; simp [Nat.shiftLeft_eq]
  rw [BitVec.toNat_add, this, sizeBytes]
  omega

theorem append12_aligned (p : BitVec 20) : (p ++ 0#12 : Word).toNat % 4096 = 0 := by
  rw [append_zero_toNat]; omega

theorem walk_storage {ls : List PtLevel} {base va : Word} {k : AccessKind} {ep : Priv} {s : State}
    (hb : base.toNat % 4096 = 0) (h : s.StorageInv) : (walk ls base va k ep s).state.StorageInv := by
  induction ls generalizing base s with
  | nil => exact h
  | cons l ls ih =>
    unfold walk
    have hs := readBacking_storage h (classify s.plat (pteAddr base l va)) (pteAddr base l va) .word
    split
    · next s' hr => unfold physRead at hr; rw [hr] at hs; exact hs
    · next pte s' hr =>
      unfold physRead at hr
      rw [hr] at hs
      split
      · exact hs
      · split
        · exact ih (append12_aligned _) hs
        · unfold walkLeaf
          split
          · have hu : (updateAD (pteAddr base l va) pte k s').2.StorageInv := by
              unfold updateAD
              split
              · exact hs
              · exact writeBacking_storage hs (fun r hr => hr) (pteAddr_aligned hb _ _) _
            split <;> next hx => rw [hx] at hu; exact hu
          · exact hs

/-! ## Translation -/

theorem translate_only (va : Word) (k : AccessKind) (s : State) : OnlyStorage s (translate va k s).state := by
  unfold translate
  split
  · exact OnlyStorage.refl s
  · exact walk_only _ _ _ _ _ _

theorem translate_raise {va : Word} {k : AccessKind} {s t : State} {e : Exc} (h : translate va k s = .raise e t) :
    WalkExc k va e := by
  unfold translate at h
  split at h
  · cases h
  · exact walk_raise h

theorem translate_storage {va : Word} {k : AccessKind} {s : State} (h : s.StorageInv) :
    (translate va k s).state.StorageInv := by
  unfold translate
  split
  · exact h
  · exact walk_storage (append12_aligned _) h

theorem installTlb_only (s : State) (k : AccessKind) (va pa : Word) (r : Range) :
    OnlyStorage s (s.installTlb k va pa r) := by cases k <;> rfl

theorem installTarget_only (va : Word) (k : AccessKind) (pa : Word) (s : State) :
    OnlyStorage s (installTarget va k pa s).state := by
  unfold installTarget
  split
  · exact installTlb_only _ _ _ _ _
  · exact OnlyStorage.refl s

theorem installTarget_raise {va : Word} {k : AccessKind} {pa : Word} {s t : State} {e : Exc} :
    installTarget va k pa s ≠ .raise e t := by
  unfold installTarget
  split <;> simp

theorem tlbWf_insert {p : Platform} (hp : platformWf p = true) {t : Tlb} (h : tlbWf p t = true) {va pa : Word}
    {r : Range} (hr : classify p pa = .ram r) : tlbWf p (t.insert (tlbEntryFor va pa r)) = true := by
  simp only [tlbWf, Bool.and_eq_true] at h ⊢
  refine ⟨Tlb.wfFrom_insert h.1 _ (Nat.zero_le _), ?_⟩
  rw [List.all_eq_true] at h ⊢
  intro e he
  rcases Tlb.mem_insert he with rfl | he
  · have hd := tlbEntryFor_delta va pa r
    have hpage : (tlbEntryFor va pa r).page ++ 0#12 = pageBase va := rfl
    simp only [tlbEntryWf, Bool.and_eq_true, beq_iff_eq]
    constructor
    · rw [← BitVec.toNat_inj, BitVec.extractLsb'_toNat]
      have h1 := pageBase_toNat va
      have h2 := pageBase_toNat pa
      simp only [tlbEntryFor, BitVec.toNat_sub]
      have h3 := (pageBase va).isLt
      simp
      omega
    · rw [hpage, hd]
      exact classify_ram_page hp hr (pageOf_pageBase pa)
  · exact h.2 e he

theorem installTarget_storage {va : Word} {k : AccessKind} {pa : Word} {s : State} (h : s.StorageInv) :
    (installTarget va k pa s).state.StorageInv := by
  unfold installTarget
  split
  · next r hr =>
    cases k
    · exact ⟨h.platform, h.memory, h.inRam, tlbWf_insert h.platform h.fetchCache hr, h.readCache, h.writeCache⟩
    · exact ⟨h.platform, h.memory, h.inRam, h.fetchCache, tlbWf_insert h.platform h.readCache hr, h.writeCache⟩
    · exact ⟨h.platform, h.memory, h.inRam, h.fetchCache, h.readCache, tlbWf_insert h.platform h.writeCache hr⟩
  · exact h

theorem translateCached_only (va : Word) (k : AccessKind) (s : State) :
    OnlyStorage s (translateCached va k s).state := by
  unfold translateCached
  split
  · exact OnlyStorage.refl s
  · exact Access.bind_state (P := OnlyStorage s) (translate_only va k s) fun v t _ ht => ht.trans (installTarget_only _ _ _ _)

theorem translateCached_raise {va : Word} {k : AccessKind} {s t : State} {e : Exc}
    (h : translateCached va k s = .raise e t) : WalkExc k va e := by
  unfold translateCached at h
  split at h
  · cases h
  · rcases Access.bind_raise h with h | ⟨v, u, _, h⟩
    · exact translate_raise h
    · exact absurd h installTarget_raise

theorem translateCached_storage {va : Word} {k : AccessKind} {s : State} (h : s.StorageInv) :
    (translateCached va k s).state.StorageInv := by
  unfold translateCached
  split
  · exact h
  · exact Access.bind_state (P := State.StorageInv) (translate_storage h) fun v t _ ht => installTarget_storage ht

theorem tlbWf_of_storage {s : State} (h : s.StorageInv) (k : AccessKind) : tlbWf s.plat (s.tlb k) = true := by
  cases k
  · exact h.fetchCache
  · exact h.readCache
  · exact h.writeCache

/-- A hit's physical address lies in the region the entry names (20_memory.md R151). -/
theorem classify_of_hit {s : State} (h : s.StorageInv) {k : AccessKind} {va : Word} {e : TlbEntry}
    (he : (s.tlb k).lookup (pageOf va) = some e) : classify s.plat (va + e.delta) = .ram e.region := by
  obtain ⟨hmem, hpage⟩ := Tlb.lookup_some he
  have hw := tlbWf_of_storage h k
  simp only [tlbWf, Bool.and_eq_true] at hw
  have hx := (List.all_eq_true.mp hw.2) e hmem
  simp only [tlbEntryWf, Bool.and_eq_true, beq_iff_eq] at hx
  refine classify_ram_page h.platform hx.2 ?_
  rw [pageOf_eq_iff, hpage]
  have hd : e.delta.toNat % 4096 = 0 := by
    have := congrArg BitVec.toNat hx.1
    rw [BitVec.extractLsb'_toNat] at this
    simpa using this
  have h1 : (pageOf va ++ 0#12 : Word).toNat = va.toNat / 4096 * 4096 := pageBase_toNat va
  rw [BitVec.toNat_add, BitVec.toNat_add, h1]
  omega

/-- What a translation answers is what the memory map says answers there. -/
theorem translateCached_target {va : Word} {k : AccessKind} {s t : State} {g : Target} (h : s.StorageInv)
    (hg : translateCached va k s = .ok g t) : g.backing = classify t.plat g.pa := by
  unfold translateCached at hg
  split at hg
  · next e he => cases hg; exact (classify_of_hit h he).symm
  · obtain ⟨pa, u, _, hi⟩ := Access.bind_ok hg
    unfold installTarget at hi
    split at hi
    · next r hr =>
      cases hi
      simp [hr]
    · cases hi; rfl

/-- Translation leaves the page offset alone (R137). -/
theorem composePa_offset (pte va : Word) (l : PtLevel) : (composePa pte va l).toNat % 4096 = va.toNat % 4096 := by
  cases l <;> simp only [composePa, BitVec.toNat_append, Nat.shiftLeft_eq]
  · rw [Nat.mul_comm, ← Nat.two_pow_add_eq_or_of_lt (BitVec.isLt _)]
    simp only [BitVec.extractLsb'_toNat]
    omega
  · rw [Nat.mul_comm, ← Nat.two_pow_add_eq_or_of_lt (BitVec.isLt _)]
    simp only [BitVec.extractLsb'_toNat]
    omega

theorem walk_offset {ls : List PtLevel} {base va pa : Word} {k : AccessKind} {ep : Priv} {s t : State}
    (h : walk ls base va k ep s = .ok pa t) : pa.toNat % 4096 = va.toNat % 4096 := by
  induction ls generalizing base s with
  | nil => cases h
  | cons l ls ih =>
    unfold walk at h
    split at h
    · cases h
    · split at h
      · cases h
      · split at h
        · exact ih h
        · unfold walkLeaf at h
          split at h
          · split at h
            · cases h; exact composePa_offset _ _ _
            · cases h
          · cases h

theorem translateCached_offset {va : Word} {k : AccessKind} {s t : State} {g : Target} (hs : s.StorageInv)
    (h : translateCached va k s = .ok g t) : g.pa.toNat % 4096 = va.toNat % 4096 := by
  unfold translateCached at h
  split at h
  · next e he =>
    cases h
    obtain ⟨hmem, _⟩ := Tlb.lookup_some he
    have hw := tlbWf_of_storage hs k
    simp only [tlbWf, Bool.and_eq_true] at hw
    have hx := (List.all_eq_true.mp hw.2) e hmem
    simp only [tlbEntryWf, Bool.and_eq_true, beq_iff_eq] at hx
    have hd : e.delta.toNat % 4096 = 0 := by
      have := congrArg BitVec.toNat hx.1
      rw [BitVec.extractLsb'_toNat] at this
      simpa using this
    rw [BitVec.toNat_add]
    omega
  · obtain ⟨pa, u, ht, hi⟩ := Access.bind_ok h
    have hpa : g.pa = pa := by
      unfold installTarget at hi
      split at hi <;> cases hi <;> rfl
    rw [hpa]
    unfold translate at ht
    split at ht
    · cases ht; rfl
    · exact walk_offset ht

/-- An aligned access stays aligned (R120, R121). -/
theorem dataTarget_aligned {va : Word} {n : AccessSize} {k : AccessKind} {s t : State} {g : Target} (hs : s.StorageInv)
    (h : dataTarget va n k s = .ok g t) : misaligned n g.pa = false := by
  unfold dataTarget at h
  split at h
  · cases h
  · next hm =>
    rw [Bool.not_eq_true, aligned_iff] at hm
    have := translateCached_offset hs h
    rw [aligned_iff]
    cases n <;> simp only [sizeBytes] at hm ⊢ <;> omega

theorem dataTarget_target {va : Word} {n : AccessSize} {k : AccessKind} {s t : State} {g : Target} (hs : s.StorageInv)
    (h : dataTarget va n k s = .ok g t) : g.backing = classify t.plat g.pa := by
  unfold dataTarget at h
  split at h
  · cases h
  · exact translateCached_target hs h

/-! ## The access paths -/

theorem dataTarget_only (va : Word) (n : AccessSize) (k : AccessKind) (s : State) :
    OnlyStorage s (dataTarget va n k s).state := by
  unfold dataTarget
  split
  · exact OnlyStorage.refl s
  · exact translateCached_only _ _ _

/-- An access that meets no translation reaches its own address; at most the cache of its kind has changed. -/
theorem dataTarget_plain {va : Word} {n : AccessSize} {k : AccessKind} {s : State} {b : Backing}
    (h : PlainAccess s k n va b) : ∃ tb, dataTarget va n k s = .ok { pa := va, backing := b } (s.setTlb k tb) := by
  obtain ⟨hal, hbare, hhit, hcl⟩ := h
  have hm : misaligned n va = false := (aligned_iff n va).2 hal
  have hself : s.setTlb k (s.tlb k) = s := by cases k <;> rfl
  unfold dataTarget translateCached
  rw [hm]
  cases hl : (s.tlb k).lookup (pageOf va) with
  | some e =>
    rw [hl] at hhit
    simp only [Option.all_some, Bool.and_eq_true, beq_iff_eq] at hhit
    exact ⟨s.tlb k, by simp [hhit.1, hhit.2, hself]⟩
  | none =>
    have hb : s.bare k = true := by
      unfold State.bare
      rcases hbare with h | h <;> simp only [h] <;> simp
    simp only [translate, hb, if_true, Access.bind, installTarget, hcl]
    cases b with
    | ram r => exact ⟨_, by simp [State.installTlb]; rfl⟩
    | mmio d => exact ⟨s.tlb k, by simp [hself]⟩
    | unmapped => exact ⟨s.tlb k, by simp [hself]⟩

theorem dataTarget_raise {va : Word} {n : AccessSize} {k : AccessKind} {s t : State} {e : Exc}
    (h : dataTarget va n k s = .raise e t) : (misaligned n va = true ∧ e = misalignedExc k va ∧ t = s) ∨ WalkExc k va e := by
  unfold dataTarget at h
  split at h
  · next hm => cases h; exact .inl ⟨hm, rfl, rfl⟩
  · exact .inr (translateCached_raise h)

theorem dataTarget_storage {va : Word} {n : AccessSize} {k : AccessKind} {s : State} (h : s.StorageInv) :
    (dataTarget va n k s).state.StorageInv := by
  unfold dataTarget
  split
  · exact h
  · exact translateCached_storage h

theorem readTarget_only (g : Target) (n : AccessSize) (k : AccessKind) (va : Word) (s : State) :
    OnlyStorage s (readTarget g n k va s).state := by
  unfold readTarget
  have := readBacking_only g.backing g.pa n s
  split <;> next h => rw [h] at this; exact this

theorem readTarget_storage {g : Target} {n : AccessSize} {k : AccessKind} {va : Word} {s : State} (h : s.StorageInv) :
    (readTarget g n k va s).state.StorageInv := by
  unfold readTarget
  have := readBacking_storage h g.backing g.pa n
  split <;> next h => rw [h] at this; exact this

theorem writeTarget_only (g : Target) (n : AccessSize) (va v : Word) (s : State) :
    OnlyStorage s (writeTarget g n va v s).state := by
  unfold writeTarget
  have := writeBacking_only g.backing g.pa n v s
  split <;> next h => rw [h] at this; exact this

theorem writeTarget_storage {g : Target} {n : AccessSize} {va v : Word} {s : State} (h : s.StorageInv)
    (hg : ∀ r, g.backing = .ram r → classify s.plat g.pa = .ram r) (ha : misaligned n g.pa = false) :
    (writeTarget g n va v s).state.StorageInv := by
  unfold writeTarget
  have := writeBacking_storage h hg ha v
  split <;> next h => rw [h] at this; exact this

theorem memRead_only (va : Word) (n : AccessSize) (s : State) : OnlyStorage s (memRead va n s).state :=
  Access.bind_state (P := OnlyStorage s) (dataTarget_only _ _ _ _) fun _ _ _ h => h.trans (readTarget_only _ _ _ _ _)

theorem memRead_storage {va : Word} {n : AccessSize} {s : State} (h : s.StorageInv) :
    (memRead va n s).state.StorageInv :=
  Access.bind_state (P := State.StorageInv) (dataTarget_storage h) fun _ _ _ h => readTarget_storage h

theorem memWrite_only (va : Word) (n : AccessSize) (v : Word) (s : State) : OnlyStorage s (memWrite va n v s).state :=
  Access.bind_state (P := OnlyStorage s) (dataTarget_only _ _ _ _) fun _ _ _ h => h.trans (writeTarget_only _ _ _ _ _)

theorem memWrite_storage {va : Word} {n : AccessSize} {v : Word} {s : State} (h : s.StorageInv) :
    (memWrite va n v s).state.StorageInv := by
  unfold memWrite
  refine Access.bind_state (P := State.StorageInv) (dataTarget_storage h) fun g t hg ht => ?_
  exact writeTarget_storage ht (fun r hr => by rw [← hr, dataTarget_target h hg]) (dataTarget_aligned h hg)

theorem fetchTarget_only (g : Target) (va : Word) (s : State) : (fetchTarget g va s).state = s := by
  unfold fetchTarget
  split <;> rfl

theorem fetch16_only (va : Word) (s : State) : OnlyStorage s (fetch16 va s).state := by
  unfold fetch16
  split
  · exact OnlyStorage.refl s
  · refine Access.bind_state (P := OnlyStorage s) (translateCached_only _ _ _) fun g t _ h => ?_
    rw [fetchTarget_only]; exact h

theorem fetch16_storage {va : Word} {s : State} (h : s.StorageInv) : (fetch16 va s).state.StorageInv := by
  unfold fetch16
  split
  · exact h
  · refine Access.bind_state (P := State.StorageInv) (translateCached_storage h) fun g t _ h => ?_
    rw [fetchTarget_only]; exact h

theorem fetchInstr_only (s : State) : OnlyStorage s (fetchInstr s).state := by
  unfold fetchInstr
  refine Access.bind_state (P := OnlyStorage s) (fetch16_only _ _) fun lo t _ h => ?_
  split
  · exact Access.bind_state (P := OnlyStorage s) (h.trans (fetch16_only _ _)) fun _ _ _ h => h
  · exact h

theorem fetchInstr_storage {s : State} (h : s.StorageInv) : (fetchInstr s).state.StorageInv := by
  unfold fetchInstr
  refine Access.bind_state (P := State.StorageInv) (fetch16_storage h) fun lo t _ h => ?_
  split
  · exact Access.bind_state (P := State.StorageInv) (fetch16_storage h) fun _ _ _ h => h
  · exact h

/-! ## Ends of instructions -/

/-- Every access ends in a next state: the continuation's, or the trap's. -/
theorem Access.conclude_next {α : Type} {a : Access α} {f : α → State → Result} {P : State → Prop}
    (hok : ∀ v s, a = .ok v s → ∃ t, f v s = .next t ∧ P t)
    (hraise : ∀ e s, a = .raise e s → P (takeException e s)) : ∃ t, a.conclude f = .next t ∧ P t := by
  cases a with
  | ok v s => exact hok v s rfl
  | raise e s => exact ⟨_, rfl, hraise e s rfl⟩

end Sys2Proof.Machine
end

