-- ==== Sys2Proof/Laws/Csr.lean ====
section
/-! SUPPORT. The laws of `mstatus` and of the CSRs: bits after a field is set, and that writes, trap entry and trap
return keep the invariants of 10_state.md R80. -/

namespace Sys2Proof.Machine

open Sys2Proof

/-! ## Bits -/

theorem getLsbD_one_shl (i j : Nat) : (1#32 <<< i).getLsbD j = decide (j < 32 ∧ j = i) := by
  rw [BitVec.getLsbD_shiftLeft]
  by_cases hj : j < 32 <;> by_cases hi : j < i <;> simp [hj, hi] <;> omega

/-- One bit after `setBit`. -/
theorem getLsbD_setBit (w : Word) (i : Nat) (b : Bool) (j : Nat) :
    (setBit w i b).getLsbD j = if j = i ∧ j < 32 then b else w.getLsbD j := by
  unfold setBit
  by_cases hj : j < 32
  · cases b <;> simp only [Bool.false_eq_true, if_false, if_true, BitVec.getLsbD_or, BitVec.getLsbD_and,
      BitVec.getLsbD_not, getLsbD_one_shl, hj, true_and, and_true] <;> by_cases h : j = i <;> simp [h]
  · rw [BitVec.getLsbD_of_ge _ _ (by omega), if_neg (by omega), BitVec.getLsbD_of_ge _ _ (by omega)]

theorem getLsbD_setBit_ne (w : Word) {i j : Nat} (b : Bool) (h : j ≠ i) : (setBit w i b).getLsbD j = w.getLsbD j := by
  rw [getLsbD_setBit, if_neg (fun h' => h h'.1)]

theorem getLsbD_setBit_eq (w : Word) {i : Nat} (b : Bool) (h : i < 32) : (setBit w i b).getLsbD i = b := by
  rw [getLsbD_setBit, if_pos ⟨rfl, h⟩]

theorem getLsbD_setMpp (w : Word) (b : BitVec 2) (j : Nat) :
    (setMpp w b).getLsbD j = if j = 12 then b.getLsbD 1 else if j = 11 then b.getLsbD 0 else w.getLsbD j := by
  unfold setMpp
  rw [getLsbD_setBit, getLsbD_setBit]
  by_cases h12 : j = 12
  · simp [h12]
  · by_cases h11 : j = 11 <;> simp [h11, h12]

theorem getLsbD_setMpp_ne (w : Word) (b : BitVec 2) {j : Nat} (h1 : j ≠ 11) (h2 : j ≠ 12) :
    (setMpp w b).getLsbD j = w.getLsbD j := by
  rw [getLsbD_setMpp, if_neg h2, if_neg h1]

theorem getLsbD_maskedWrite (m w v : Word) (j : Nat) :
    (maskedWrite m w v).getLsbD j = if m.getLsbD j then v.getLsbD j else w.getLsbD j := by
  unfold maskedWrite
  by_cases hj : j < 32
  · simp only [BitVec.getLsbD_or, BitVec.getLsbD_and, BitVec.getLsbD_not, hj]
    cases m.getLsbD j <;> simp
  · simp only [BitVec.getLsbD_of_ge _ _ (show 32 ≤ j by omega), Bool.false_eq_true, if_false]

theorem two_bits_eq (v : BitVec 2) : v = 3#2 ↔ v.getLsbD 0 = true ∧ v.getLsbD 1 = true := by
  revert v; decide

theorem two_bits_eq_two (v : BitVec 2) : v = 2#2 ↔ v.getLsbD 0 = false ∧ v.getLsbD 1 = true := by
  revert v; decide

/-- Two words are equal when their bits are. -/
theorem word_ext {a b : Word} (h : ∀ i, i < 32 → a.getLsbD i = b.getLsbD i) : a = b :=
  BitVec.eq_of_getLsbD_eq fun i hi => h i hi

theorem mask_eq_zero_iff (w m : Word) : w &&& ~~~m = 0#32 ↔ ∀ i, i < 32 → m.getLsbD i = false → w.getLsbD i = false := by
  constructor
  · intro h i hi hm
    have := congrArg (·.getLsbD i) h
    simp only [BitVec.getLsbD_and, BitVec.getLsbD_not, hi, hm] at this
    simpa only [decide_true, Bool.not_false, Bool.and_true, BitVec.getLsbD_zero] using this
  · intro h
    apply word_ext
    intro i hi
    have := h i hi
    simp only [BitVec.getLsbD_and, BitVec.getLsbD_not, hi, BitVec.getLsbD_zero]
    cases hm : m.getLsbD i
    · rw [this hm]; rfl
    · simp

theorem and_eq_zero_iff (w m : Word) : w &&& m = 0#32 ↔ ∀ i, i < 32 → m.getLsbD i = true → w.getLsbD i = false := by
  constructor
  · intro h i hi hm
    have := congrArg (·.getLsbD i) h
    simp only [BitVec.getLsbD_and, hm] at this
    simpa only [Bool.and_true, BitVec.getLsbD_zero] using this
  · intro h
    apply word_ext
    intro i hi
    have := h i hi
    simp only [BitVec.getLsbD_and, BitVec.getLsbD_zero]
    cases hm : m.getLsbD i
    · simp
    · rw [this hm]; rfl

/-! ## `mstatus` -/

/-- The invariants of `mstatus`, bit by bit. -/
theorem mstatusWf_iff (w : Word) : mstatusWf w = true ↔
    (∀ i, i < 32 → (0x807FF9BB#32).getLsbD i = false → w.getLsbD i = false) ∧
    ¬ (w.getLsbD 11 = false ∧ w.getLsbD 12 = true) ∧
    w.getLsbD 31 = ((w.getLsbD 13 && w.getLsbD 14) || (w.getLsbD 15 && w.getLsbD 16)) := by
  unfold mstatusWf
  simp only [Bool.and_eq_true, beq_iff_eq, bne_iff_ne, ne_eq, mask_eq_zero_iff, and_assoc]
  refine and_congr_right fun _ => ?_
  have fs : (mstatusFs w == 3#2) = (w.getLsbD 13 && w.getLsbD 14) := by
    rw [Bool.eq_iff_iff, beq_iff_eq, two_bits_eq]; simp [mstatusFs]
  have xs : (mstatusXs w == 3#2) = (w.getLsbD 15 && w.getLsbD 16) := by
    rw [Bool.eq_iff_iff, beq_iff_eq, two_bits_eq]; simp [mstatusXs]
  rw [fs, xs, two_bits_eq_two]
  simp [mstatusMpp]

/-- The mask of `mstatus` at a bit number. -/
theorem mstatusMask_bit (i : Nat) (hi : i < 32) : (0x807FF9BB#32).getLsbD i =
    decide (i = 0 ∨ i = 1 ∨ i = 3 ∨ i = 4 ∨ i = 5 ∨ i = 7 ∨ i = 8 ∨ (11 ≤ i ∧ i ≤ 22) ∨ i = 31) := by
  revert i; decide

theorem mstatusWriteMask_bit (i : Nat) (hi : i < 32) : mstatusWriteMask.getLsbD i =
    decide (i = 0 ∨ i = 1 ∨ i = 3 ∨ i = 4 ∨ i = 5 ∨ i = 7 ∨ i = 8 ∨ (11 ≤ i ∧ i ≤ 22)) := by
  revert i; decide

theorem sstatusWriteMask_bit (i : Nat) (hi : i < 32) : sstatusWriteMask.getLsbD i =
    decide (i = 0 ∨ i = 1 ∨ i = 4 ∨ i = 5 ∨ i = 8 ∨ (13 ≤ i ∧ i ≤ 16) ∨ i = 18 ∨ i = 19) := by
  revert i; decide

/-- Setting a bit that is implemented, is not a bit of MPP, FS or XS and is not SD keeps the invariants. -/
theorem mstatusWf_setBit {w : Word} (h : mstatusWf w = true) {i : Nat} (hi : i = 0 ∨ i = 1 ∨ i = 3 ∨ i = 5 ∨ i = 7 ∨ i = 8 ∨ i = 17)
    (b : Bool) : mstatusWf (setBit w i b) = true := by
  rw [mstatusWf_iff] at h ⊢
  refine ⟨fun j hj hm => ?_, ?_, ?_⟩
  · rw [getLsbD_setBit, if_neg ?_]
    · exact h.1 j hj hm
    · rintro ⟨rfl, _⟩
      rw [mstatusMask_bit _ hj, decide_eq_false_iff_not] at hm
      omega
  · simpa only [getLsbD_setBit, if_neg (show ¬ (11 = i ∧ 11 < 32) by omega), if_neg (show ¬ (12 = i ∧ 12 < 32) by omega)]
      using h.2.1
  · simpa only [getLsbD_setBit, if_neg (show ¬ (31 = i ∧ 31 < 32) by omega), if_neg (show ¬ (13 = i ∧ 13 < 32) by omega),
      if_neg (show ¬ (14 = i ∧ 14 < 32) by omega), if_neg (show ¬ (15 = i ∧ 15 < 32) by omega),
      if_neg (show ¬ (16 = i ∧ 16 < 32) by omega)] using h.2.2

theorem mstatusWf_setMpp {w : Word} (h : mstatusWf w = true) {b : BitVec 2} (hb : b ≠ 2#2) :
    mstatusWf (setMpp w b) = true := by
  rw [ne_eq, two_bits_eq_two] at hb
  rw [mstatusWf_iff] at h ⊢
  refine ⟨fun j hj hm => ?_, ?_, ?_⟩
  · have h1 : j ≠ 12 := by rintro rfl; exact absurd hm (by decide)
    have h2 : j ≠ 11 := by rintro rfl; exact absurd hm (by decide)
    rw [getLsbD_setMpp, if_neg h1, if_neg h2]
    exact h.1 j hj hm
  · rw [getLsbD_setMpp, getLsbD_setMpp]
    exact hb
  · rw [getLsbD_setMpp_ne _ _ (by decide) (by decide), getLsbD_setMpp_ne _ _ (by decide) (by decide),
      getLsbD_setMpp_ne _ _ (by decide) (by decide), getLsbD_setMpp_ne _ _ (by decide) (by decide),
      getLsbD_setMpp_ne _ _ (by decide) (by decide)]
    exact h.2.2

theorem mstatusWf_recomputeSd {w : Word} (h : ∀ i, i < 32 → (0x807FF9BB#32).getLsbD i = false → w.getLsbD i = false)
    (hm : ¬ (w.getLsbD 11 = false ∧ w.getLsbD 12 = true)) : mstatusWf (recomputeSd w) = true := by
  have fs : (mstatusFs w == 3#2) = (w.getLsbD 13 && w.getLsbD 14) := by
    rw [Bool.eq_iff_iff, beq_iff_eq, two_bits_eq]; simp [mstatusFs]
  have xs : (mstatusXs w == 3#2) = (w.getLsbD 15 && w.getLsbD 16) := by
    rw [Bool.eq_iff_iff, beq_iff_eq, two_bits_eq]; simp [mstatusXs]
  rw [mstatusWf_iff]
  unfold recomputeSd
  rw [fs, xs]
  refine ⟨fun j hj hmk => ?_, ?_, ?_⟩
  · rw [getLsbD_setBit, if_neg ?_]
    · exact h j hj hmk
    · rintro ⟨rfl, _⟩
      exact absurd hmk (by decide)
  · rw [getLsbD_setBit_ne _ _ (by decide), getLsbD_setBit_ne _ _ (by decide)]
    exact hm
  · rw [getLsbD_setBit_eq _ _ (by decide), getLsbD_setBit_ne _ _ (by decide), getLsbD_setBit_ne _ _ (by decide),
      getLsbD_setBit_ne _ _ (by decide), getLsbD_setBit_ne _ _ (by decide)]

theorem mpp_bits (w : Word) : (mstatusMpp w).getLsbD 0 = w.getLsbD 11 ∧ (mstatusMpp w).getLsbD 1 = w.getLsbD 12 := by
  unfold mstatusMpp
  rw [BitVec.getLsbD_extractLsb', BitVec.getLsbD_extractLsb']
  simp

/-- A CSR write of `mstatus` keeps its invariants (10_state.md R46). -/
theorem mstatusWf_afterWrite {w : Word} (h : mstatusWf w = true) (v : Word) : mstatusWf (mstatusAfterWrite w v) = true := by
  rw [mstatusWf_iff] at h
  have hz : ∀ i, i < 32 → (0x807FF9BB#32).getLsbD i = false → (maskedWrite mstatusWriteMask w v).getLsbD i = false := by
    intro i hi hm
    have : mstatusWriteMask.getLsbD i = false := by
      rw [mstatusMask_bit i hi, decide_eq_false_iff_not] at hm
      rw [mstatusWriteMask_bit i hi, decide_eq_false_iff_not]
      omega
    rw [getLsbD_maskedWrite, this]
    exact h.1 i hi hm
  unfold mstatusAfterWrite legalizeMpp
  split
  · apply mstatusWf_recomputeSd
    · intro i hi hm
      have h1 : i ≠ 12 := by rintro rfl; exact absurd hm (by decide)
      have h2 : i ≠ 11 := by rintro rfl; exact absurd hm (by decide)
      rw [getLsbD_setMpp, if_neg h1, if_neg h2]
      exact hz i hi hm
    · rw [getLsbD_setMpp, getLsbD_setMpp]
      simp only [if_true, show (11 : Nat) ≠ 12 by decide, if_false]
      rw [(mpp_bits w).1, (mpp_bits w).2]
      exact h.2.1
  · next hmpp =>
    apply mstatusWf_recomputeSd hz
    rw [two_bits_eq_two, (mpp_bits _).1, (mpp_bits _).2] at hmpp
    exact hmpp

/-- A CSR write of `sstatus` keeps the invariants of `mstatus` (10_state.md R47). -/
theorem mstatusWf_afterSstatusWrite {w : Word} (h : mstatusWf w = true) (v : Word) :
    mstatusWf (sstatusAfterWrite w v) = true := by
  rw [mstatusWf_iff] at h
  unfold sstatusAfterWrite
  apply mstatusWf_recomputeSd
  · intro i hi hm
    have : sstatusWriteMask.getLsbD i = false := by
      rw [mstatusMask_bit i hi, decide_eq_false_iff_not] at hm
      rw [sstatusWriteMask_bit i hi, decide_eq_false_iff_not]
      omega
    rw [getLsbD_maskedWrite, this]
    exact h.1 i hi hm
  · rw [getLsbD_maskedWrite, getLsbD_maskedWrite, sstatusWriteMask_bit 11 (by decide), sstatusWriteMask_bit 12 (by decide)]
    exact h.2.1

theorem mstatusWf_trapToM {w : Word} (h : mstatusWf w = true) (p : Priv) : mstatusWf (mstatusTrapToM w p) = true := by
  unfold mstatusTrapToM
  refine mstatusWf_setBit (mstatusWf_setMpp (mstatusWf_setBit h (by simp) _) ?_) (by simp) _
  cases p <;> decide

theorem mstatusWf_trapToS {w : Word} (h : mstatusWf w = true) (p : Priv) : mstatusWf (mstatusTrapToS w p) = true := by
  unfold mstatusTrapToS
  exact mstatusWf_setBit (mstatusWf_setBit (mstatusWf_setBit h (by simp) _) (by simp) _) (by simp) _

theorem level_cases (p : Priv) : p.level = 0 ∨ p.level = 1 ∨ p.level = 3 := by cases p <;> simp [Priv.level]

theorem mstatusWf_afterMret {w : Word} (h : mstatusWf w = true) : mstatusWf (mstatusAfterMret w) = true := by
  unfold mstatusAfterMret
  have := level_cases (mretTarget w)
  exact mstatusWf_setMpp (mstatusWf_setBit (mstatusWf_setBit h (by omega) _) (by simp) _) (by decide)

theorem mstatusWf_afterSret {w : Word} (h : mstatusWf w = true) : mstatusWf (mstatusAfterSret w) = true := by
  unfold mstatusAfterSret
  have := level_cases (sretTarget w)
  exact mstatusWf_setBit (mstatusWf_setBit (mstatusWf_setBit h (by omega) _) (by simp) _) (by simp) _

/-! ## The CSR invariants -/

theorem csrInv_iff (s : State) : s.CsrInv ↔ mstatusWf s.mstatus = true ∧ s.satp &&& 0x7FC00000#32 = 0#32 ∧
    s.mideleg &&& ~~~0x222#32 = 0#32 ∧ s.medeleg.getLsbD 11 = false ∧ s.mie &&& ~~~0xAAA#32 = 0#32 ∧
    s.mtvec.getLsbD 1 = false ∧ s.stvec.getLsbD 1 = false := by
  unfold State.CsrInv csrWf
  simp [and_assoc]

theorem State.CsrInv.congr {s t : State} (h : s.CsrInv) (h1 : t.mstatus = s.mstatus) (h2 : t.satp = s.satp)
    (h3 : t.mideleg = s.mideleg) (h4 : t.medeleg = s.medeleg) (h5 : t.mie = s.mie) (h6 : t.mtvec = s.mtvec)
    (h7 : t.stvec = s.stvec) : t.CsrInv := by
  unfold State.CsrInv at h ⊢
  rw [h1, h2, h3, h4, h5, h6, h7]; exact h

theorem OnlyStorage.csrInv {s t : State} (h : OnlyStorage s t) (hs : s.CsrInv) : t.CsrInv := by
  rw [h]; exact hs

/-- Only `mstatus` changed. -/
theorem State.CsrInv.with_mstatus {s t : State} (h : s.CsrInv) (h1 : mstatusWf t.mstatus = true) (h2 : t.satp = s.satp)
    (h3 : t.mideleg = s.mideleg) (h4 : t.medeleg = s.medeleg) (h5 : t.mie = s.mie) (h6 : t.mtvec = s.mtvec)
    (h7 : t.stvec = s.stvec) : t.CsrInv := by
  rw [csrInv_iff] at h ⊢
  rw [h2, h3, h4, h5, h6, h7]
  exact ⟨h1, h.2⟩

theorem mask_and (v m : Word) : (v &&& m) &&& ~~~m = 0#32 := by
  rw [mask_eq_zero_iff]; intro i hi hm; simp [hm]

theorem maskedWrite_inside {m M w v : Word} (hw : w &&& ~~~M = 0#32) (hm : m &&& ~~~M = 0#32) :
    maskedWrite m w v &&& ~~~M = 0#32 := by
  rw [mask_eq_zero_iff] at hw hm ⊢
  intro i hi hM
  rw [getLsbD_maskedWrite, hm i hi hM]
  exact hw i hi hM

/-- A CSR write keeps the CSR invariants (10_state.md R80). -/
theorem csrInv_write {s : State} (h : s.CsrInv) (c : Csr) (v : Word) : (csrWrite c v s).CsrInv := by
  have hi := (csrInv_iff s).mp h
  obtain ⟨h1, h2, h3, h4, h5, h6, h7⟩ := hi
  have h3' : s.mideleg &&& ~~~0xAAA#32 = 0#32 := by
    rw [mask_eq_zero_iff] at h3 ⊢
    intro i hi hm
    refine h3 i hi ?_
    revert hm; revert i; decide
  have tvec : (v &&& tvecMask).getLsbD 1 = false := by simp [tvecMask]
  cases c <;> simp only [csrWrite] <;> first
    | exact h
    | exact h.congr rfl rfl rfl rfl rfl rfl rfl
    | skip
  case sstatus =>
    unfold writeSstatus
    exact h.with_mstatus (mstatusWf_afterSstatusWrite h1 v) (by simp) (by simp) (by simp) (by simp) (by simp) (by simp)
  case mstatus =>
    unfold writeMstatus
    exact h.with_mstatus (mstatusWf_afterWrite h1 v) (by simp) (by simp) (by simp) (by simp) (by simp) (by simp)
  case satp =>
    rw [csrInv_iff]
    unfold writeSatp
    refine ⟨by simpa using h1, ?_, by simpa using h3, by simpa using h4, by simpa using h5, by simpa using h6,
      by simpa using h7⟩
    show (v &&& satpMask) &&& 0x7FC00000#32 = 0#32
    rw [and_eq_zero_iff]
    intro i hi hm
    have : satpMask.getLsbD i = false := by revert hm; revert i; decide
    simp [this]
  case sie =>
    rw [csrInv_iff]
    exact ⟨h1, h2, h3, h4, maskedWrite_inside h5 h3', h6, h7⟩
  case mie =>
    rw [csrInv_iff]
    exact ⟨h1, h2, h3, h4, maskedWrite_inside h5 (by decide), h6, h7⟩
  case stvec => rw [csrInv_iff]; exact ⟨h1, h2, h3, h4, h5, h6, tvec⟩
  case mtvec => rw [csrInv_iff]; exact ⟨h1, h2, h3, h4, h5, tvec, h7⟩
  case medeleg => rw [csrInv_iff]; exact ⟨h1, h2, h3, by simp [medelegMask], h5, h6, h7⟩
  case mideleg => rw [csrInv_iff]; exact ⟨h1, h2, mask_and _ _, h4, h5, h6, h7⟩

/-- A CSR read changes at most the bus history (a read of the real-time counter, 10_state.md R41, R76). -/
theorem csrRead_only (c : Csr) (s : State) : (csrRead c s).2 = { s with bus := (csrRead c s).2.bus } := by
  cases c <;> rfl

/-- A CSR write changes no register, not `pc`, not the privilege, not memory (46_zicsr.md R339). -/
theorem csrWrite_only (c : Csr) (v : Word) (s : State) :
    (csrWrite c v s).regs = s.regs ∧ (csrWrite c v s).pc = s.pc ∧ (csrWrite c v s).priv = s.priv ∧
      (csrWrite c v s).halted = s.halted ∧ (csrWrite c v s).reservation = s.reservation ∧
      (csrWrite c v s).mem = s.mem ∧ (csrWrite c v s).bus = s.bus ∧ (csrWrite c v s).plat = s.plat := by
  cases c <;> simp [csrWrite, writeSstatus, writeMstatus, writeSatp, writeMcycleLow, writeMcycleHigh]

/-- The translation caches after a CSR write: as before, or all empty. -/
theorem csrWrite_tlb (c : Csr) (v : Word) (s : State) :
    ((csrWrite c v s).fetchTlb = s.fetchTlb ∧ (csrWrite c v s).readTlb = s.readTlb ∧
      (csrWrite c v s).writeTlb = s.writeTlb) ∨
    ((csrWrite c v s).fetchTlb = [] ∧ (csrWrite c v s).readTlb = [] ∧ (csrWrite c v s).writeTlb = []) := by
  have flush : ∀ b : Bool, ((s.flushIf b).fetchTlb = s.fetchTlb ∧ (s.flushIf b).readTlb = s.readTlb ∧
      (s.flushIf b).writeTlb = s.writeTlb) ∨
      ((s.flushIf b).fetchTlb = [] ∧ (s.flushIf b).readTlb = [] ∧ (s.flushIf b).writeTlb = []) := by
    intro b; cases b
    · exact .inl ⟨rfl, rfl, rfl⟩
    · exact .inr ⟨rfl, rfl, rfl⟩
  cases c <;> first
    | exact .inl ⟨rfl, rfl, rfl⟩
    | exact flush _

/-! ## Trap entry and return -/

theorem csrInv_trapEntry {s : State} (h : s.CsrInv) (c : Nat) (i : Bool) (v : Word) : (trapEntry c i v s).CsrInv := by
  have h1 := ((csrInv_iff s).mp h).1
  unfold trapEntry
  split
  · exact h.with_mstatus (mstatusWf_trapToS h1 _) rfl rfl rfl rfl rfl rfl
  · exact h.with_mstatus (mstatusWf_trapToM h1 _) rfl rfl rfl rfl rfl rfl

theorem csrInv_trapReturnM {s : State} (h : s.CsrInv) : (trapReturnM s).CsrInv :=
  h.with_mstatus (mstatusWf_afterMret ((csrInv_iff s).mp h).1) rfl rfl rfl rfl rfl rfl

theorem csrInv_trapReturnS {s : State} (h : s.CsrInv) : (trapReturnS s).CsrInv :=
  h.with_mstatus (mstatusWf_afterSret ((csrInv_iff s).mp h).1) rfl rfl rfl rfl rfl rfl

/-- Trap entry keeps the invariant of the machine. -/
theorem inv_trapEntry {s : State} (h : s.Inv) (c : Nat) (i : Bool) (v : Word) : (trapEntry c i v s).Inv :=
  ⟨by simpa using h.zeroReg, csrInv_trapEntry h.csrs c i v,
    h.storage.flushed (by simp) (by simp) (by simp) (by simp) (by simp)⟩

end Sys2Proof.Machine
end

