-- ==== Sys2Proof/Laws/Exec.lean ====
section
/-! SUPPORT. What an instruction can do, said once: the forms of the next state of `exec`, for the invariants and the
rules about every instruction. -/

namespace Sys2Proof.Machine

open Sys2Proof

/-- The next state of an instruction that completes without touching a CSR: from a state `u` that its accesses left, new
registers, a new `pc`, one count, perhaps another reservation. -/
def Computes (s t : State) : Prop :=
  ∃ u, OnlyStorage s u ∧
    t = { u with regs := t.regs, pc := t.pc, mcycle := s.mcycle + 1, reservation := t.reservation }

/-- The next state is a trap's. -/
def Trapped (s t : State) : Prop := ∃ e u, OnlyStorage s u ∧ t = takeException e u

theorem Computes.of_retire {s u t : State} {rd : Reg} {v n : Word} (hu : OnlyStorage s u)
    (h : retire rd v n u = .next t) : Computes s t := by
  simp only [retire, Host.Outcome.next.injEq] at h
  refine ⟨u, hu, ?_⟩
  subst h
  unfold State.setX
  split <;> simp only [State.advance, hu.mcycle]

theorem Computes.of_conclude {α : Type} {s t : State} {a : Access α} {f : α → State → Result}
    (ha : OnlyStorage s a.state) (hf : ∀ v u, OnlyStorage s u → f v u = .next t → Computes s t)
    (h : a.conclude f = .next t) : Trapped s t ∨ Computes s t := by
  cases a with
  | ok v u => exact .inr (hf v u ha h)
  | raise e u =>
    simp only [Access.conclude, Host.Outcome.next.injEq] at h
    exact .inl ⟨e, u, ha, h.symm⟩

theorem loadInto_cases {s t : State} {n : AccessSize} {ext : Word → Word} {rd : Reg} {va ilen : Word}
    (h : loadInto n ext rd va ilen s = .next t) : Trapped s t ∨ Computes s t :=
  Computes.of_conclude (memRead_only va n s) (fun _ _ hu hr => Computes.of_retire hu hr) h

theorem storeFrom_cases {s t : State} {n : AccessSize} {va v ilen : Word}
    (h : storeFrom n va v ilen s = .next t) : Trapped s t ∨ Computes s t := by
  refine Computes.of_conclude (memWrite_only va n v s) (fun _ u hu hr => ⟨u, hu, ?_⟩) h
  simp only [Host.Outcome.next.injEq] at hr
  subst hr
  simp only [State.advance, hu.mcycle]

theorem linkAndJump_cases {s t : State} {rd : Reg} {target ilen : Word} (h : linkAndJump rd target ilen s = .next t) :
    Computes s t := by
  simp only [linkAndJump, Host.Outcome.next.injEq] at h
  refine ⟨s, OnlyStorage.refl s, ?_⟩
  subst h
  unfold State.setX
  split <;> rfl

theorem branchIf_cases {s t : State} {taken : Bool} {off ilen : Word} (h : branchIf taken off ilen s = .next t) :
    Computes s t := by
  refine ⟨s, OnlyStorage.refl s, ?_⟩
  unfold branchIf at h
  split at h <;> (simp only [Host.Outcome.next.injEq] at h; subst h; rfl)

theorem amoOp_only (f : Word → Word → Word) (rs1 rs2 : Reg) (s : State) :
    OnlyStorage s ((amoAccess (s.x rs1) s).bind fun t s1 =>
      match readBacking t.backing t.pa .word s1 with
      | (.fault, s2) => .raise (.storeAccessFault (s.x rs1)) s2
      | (.value old, s2) =>
        (writeTarget t .word (s.x rs1) (f old (s.x rs2)) s2).bind fun _ s3 => .ok old s3).state := by
  refine Access.bind_state (P := OnlyStorage s) (dataTarget_only _ _ _ _) fun g u _ hu => ?_
  have hr := readBacking_only g.backing g.pa .word u
  split
  · next w hw => rw [hw] at hr; exact hu.trans hr
  · next old w hw =>
    rw [hw] at hr
    exact Access.bind_state (P := OnlyStorage s) ((hu.trans hr).trans (writeTarget_only _ _ _ _ _)) fun _ _ _ h => h

theorem amoOp_cases {s t : State} {f : Word → Word → Word} {rd rs1 rs2 : Reg} (h : amoOp f rd rs1 rs2 s = .next t) :
    Trapped s t ∨ Computes s t :=
  Computes.of_conclude (amoOp_only f rs1 rs2 s) (fun _ _ hu hr => Computes.of_retire hu hr) h

/-- LR.W and SC.W: a completion with another reservation. -/
theorem of_reservation {s u t : State} {q : Option Word} {rd : Reg} {v n : Word} (hu : OnlyStorage s u)
    (h : retire rd v n { u with reservation := q } = .next t) : Computes s t := by
  simp only [retire, Host.Outcome.next.injEq] at h
  refine ⟨u, hu, ?_⟩
  subst h
  unfold State.setX
  split <;> simp only [State.advance, hu.mcycle]

/-- The next state of a CSR instruction that reaches `c`. -/
def CsrEffect (s t : State) (c : Csr) (writes : Bool) : Prop :=
  ∃ (u : State) (v : Word), (u = s ∨ u = (csrRead c s).2) ∧
    ∃ w, w = (if writes then csrWrite c v u else u) ∧
      t = { w with regs := t.regs, pc := s.pc + 4, mcycle := w.mcycle + 1 }

theorem csrOp_cases {i : Instr} {a : BitVec 12} {rd : Reg} {writes reads : Bool} {f : Word → Word} {s t : State}
    (h : csrOp i a rd writes reads f s = .next t) :
    Trapped s t ∨ ∃ c, csrSelect a writes s = some c ∧ CsrEffect s t c writes := by
  unfold csrOp at h
  split at h
  · next c hc =>
    refine .inr ⟨c, hc, ?_⟩
    simp only [csrAccess, Host.Outcome.next.injEq] at h
    have pc1 : (csrRead c s).2.pc = s.pc := by rw [csrRead_only]
    have pcw : ∀ (v : Word) (u : State), (csrWrite c v u).pc = u.pc := fun v u => (csrWrite_only c v u).2.1
    refine ⟨if reads then (csrRead c s).2 else s, f (if reads then csrRead c s else (0#32, s)).1,
      by cases reads <;> simp, _, rfl, ?_⟩
    subst h
    cases reads <;> cases writes <;> simp only [State.setX, State.advance, if_true, Bool.false_eq_true, if_false] <;>
      (try split) <;> simp only [pc1, pcw]
  · simp only [illegal, Host.Outcome.next.injEq] at h
    exact .inl ⟨_, s, OnlyStorage.refl s, h.symm⟩

/-- The instructions whose effect is none of the common forms. -/
def SystemEffect (i : Instr) (s t : State) : Prop :=
  (i = .mret ∧ s.priv = .m ∧ t = trapReturnM s) ∨
  (i = .sret ∧ s.priv ≠ .u ∧ t = trapReturnS s) ∨
  (i = .wfi ∧ s.priv ≠ .u ∧ t = { s with halted := t.halted, pc := s.pc + 4, mcycle := s.mcycle + 1 }) ∨
  (∃ rs1 rs2, i = .sfenceVma rs1 rs2 ∧ s.priv ≠ .u ∧ t = s.flushTlb.advance 4)

/-- Every next state of `exec`: a trap's, a computation's, a CSR access's, a system instruction's. -/
theorem exec_cases {i : Instr} {s t : State} (h : exec i s = .next t) :
    Trapped s t ∨ Computes s t ∨ (∃ a writes c, csrSelect a writes s = some c ∧ CsrEffect s t c writes) ∨
      SystemEffect i s t := by
  have own : ∀ {u : State}, (.next u : Result) = .next t → u = t := fun h => by simpa using h
  have trap : ∀ {e : Exc}, (.next (takeException e s) : Result) = .next t → Trapped s t :=
    fun h => ⟨_, s, OnlyStorage.refl s, (own h).symm⟩
  have csr : ∀ {i : Instr} {a : BitVec 12} {rd : Reg} {writes reads : Bool} {f : Word → Word},
      csrOp i a rd writes reads f s = .next t → Trapped s t ∨ Computes s t ∨
        (∃ a writes c, csrSelect a writes s = some c ∧ CsrEffect s t c writes) ∨ SystemEffect i s t := fun h =>
    (csrOp_cases h).elim .inl fun ⟨c, hc, he⟩ => .inr (.inr (.inl ⟨_, _, c, hc, he⟩))
  cases i <;> simp only [exec] at h <;> first
    | exact .inr (.inl (Computes.of_retire (OnlyStorage.refl s) h))
    | exact (loadInto_cases h).imp id .inl
    | exact (storeFrom_cases h).imp id .inl
    | exact .inr (.inl (linkAndJump_cases h))
    | exact .inr (.inl (branchIf_cases h))
    | exact (amoOp_cases h).imp id .inl
    | exact csr h
    | exact .inl (trap h)
    | exact .inr (.inl ⟨s, OnlyStorage.refl s, (own h) ▸ rfl⟩)
    | skip
  case lrW aq rl rd rs1 =>
    have only := dataTarget_only (s.x rs1) .word .read s
    unfold execLrW at h
    cases hg : dataTarget (s.x rs1) .word .read s with
    | raise e u =>
      rw [hg] at h only
      exact .inl ⟨e, u, only, (own h).symm⟩
    | ok g u =>
      rw [hg] at h only
      have only' := only.trans (readTarget_only g .word .read (s.x rs1) u)
      simp only [Access.bind] at h
      cases hr : readTarget g .word .read (s.x rs1) u with
      | raise e w =>
        rw [hr] at h only'
        exact .inl ⟨e, w, only', (own h).symm⟩
      | ok v w =>
        rw [hr] at h only'
        exact .inr (.inl (of_reservation only' h))
  case scW aq rl rd rs1 rs2 =>
    have only := dataTarget_only (s.x rs1) .word .write s
    unfold execScW amoAccess at h
    cases hg : dataTarget (s.x rs1) .word .write s with
    | raise e u =>
      rw [hg] at h only
      exact .inl ⟨e, u, only, (own h).symm⟩
    | ok g u =>
      rw [hg] at h only
      have only' := only.trans (writeTarget_only g .word (s.x rs1) (s.x rs2) u)
      simp only [Access.bind] at h
      split at h
      · cases hr : writeTarget g .word (s.x rs1) (s.x rs2) u with
        | raise e w =>
          rw [hr] at h only'
          exact .inl ⟨e, w, only', (own h).symm⟩
        | ok v w =>
          rw [hr] at h only'
          exact .inr (.inl (of_reservation only' h))
      · exact .inr (.inl (of_reservation only h))
  case mret =>
    unfold execMret at h
    split at h
    · next hm => exact .inr (.inr (.inr (.inl ⟨rfl, hm, (own h).symm⟩)))
    · exact .inl (trap h)
  case sret =>
    unfold execSret at h
    split at h
    · exact .inl (trap h)
    · next hm => exact .inr (.inr (.inr (.inr (.inl ⟨rfl, fun hu => hm (.inl hu), (own h).symm⟩))))
  case wfi =>
    unfold execWfi at h
    split at h
    · exact .inl (trap h)
    · next hm => exact .inr (.inr (.inr (.inr (.inr (.inl ⟨rfl, fun hu => hm (.inl hu), by rw [← own h]; rfl⟩)))))
  case sfenceVma rs1 rs2 =>
    unfold execSfenceVma at h
    split at h
    · exact .inl (trap h)
    · next hm =>
      exact .inr (.inr (.inr (.inr (.inr (.inr ⟨rs1, rs2, rfl, fun hu => hm (.inl hu), (own h).symm⟩)))))

end Sys2Proof.Machine
end

