-- ==== Sys2Proof/Laws/Host.lean ====
section
/-! SUPPORT. What power-on over a platform can do. -/

namespace Sys2Proof.Machine

open Sys2Proof

theorem bootInRam_iff (p : Platform) : bootInRam p = true ↔ ∃ r, classify p p.bootPc = .ram r := by
  unfold bootInRam
  cases classify p p.bootPc <;> simp

/-- Power-on goes on only over a platform that meets R105 and whose RAM covers `BOOT_PC`, and then it is `powerOn`. -/
theorem powerOnChecked_next {p : Platform} {t : State} (h : powerOnChecked p = .next t) :
    t = State.powerOn p ∧ platformWf p = true ∧ ∃ r, classify p p.bootPc = .ram r := by
  unfold powerOnChecked at h
  split at h
  · next hp =>
    rw [Bool.and_eq_true, bootInRam_iff] at hp
    cases h
    exact ⟨rfl, hp⟩
  · cases h

end Sys2Proof.Machine
end

