-- ==== Sys2Proof/Tests/Slice0.lean ====
section
/-! SUPPORT. Tests on fixed values and the witnesses of the statements' hypotheses. Every expected result is from the
spec: an example of the rule named, a row of 95_test_vectors.md or 96_test_vectors_system.md, or a hand calculation from
the encoding. -/

namespace Sys2Proof.Tests

open Sys2Proof Sys2Proof.Machine

/-! ## WellFormed: one ill-formed term for each check, refused -/

theorem test_wf_jal_odd : Instr.wf (.jal 1 3) = false := by decide
theorem test_wf_beq_odd : Instr.wf (.beq 1 2 3) = false := by decide
theorem test_wf_bne_odd : Instr.wf (.bne 1 2 1) = false := by decide
theorem test_wf_blt_odd : Instr.wf (.blt 1 2 5) = false := by decide
theorem test_wf_bge_odd : Instr.wf (.bge 1 2 7) = false := by decide
theorem test_wf_bltu_odd : Instr.wf (.bltu 1 2 9) = false := by decide
theorem test_wf_bgeu_odd : Instr.wf (.bgeu 1 2 11) = false := by decide
theorem test_wf_addi4spn_zero : Instr.wf (.cAddi4spn 0 0) = false := by decide
theorem test_wf_addi4spn_unscaled : Instr.wf (.cAddi4spn 0 6) = false := by decide
theorem test_wf_clw_unscaled : Instr.wf (.cLw 0 0 2) = false := by decide
theorem test_wf_csw_unscaled : Instr.wf (.cSw 0 0 1) = false := by decide
theorem test_wf_caddi_x0 : Instr.wf (.cAddi 0 1) = false := by decide
theorem test_wf_cjal_odd : Instr.wf (.cJal 1) = false := by decide
theorem test_wf_cj_odd : Instr.wf (.cJ 3) = false := by decide
theorem test_wf_addi16sp_zero : Instr.wf (.cAddi16sp 0) = false := by decide
theorem test_wf_addi16sp_unscaled : Instr.wf (.cAddi16sp 8) = false := by decide
theorem test_wf_clui_sp : Instr.wf (.cLui 2 1) = false := by decide
theorem test_wf_clui_zero : Instr.wf (.cLui 3 0) = false := by decide
theorem test_wf_cbeqz_odd : Instr.wf (.cBeqz 0 1) = false := by decide
theorem test_wf_cbnez_odd : Instr.wf (.cBnez 0 3) = false := by decide
theorem test_wf_clwsp_x0 : Instr.wf (.cLwsp 0 4) = false := by decide
theorem test_wf_clwsp_unscaled : Instr.wf (.cLwsp 1 2) = false := by decide
theorem test_wf_cjr_x0 : Instr.wf (.cJr 0) = false := by decide
theorem test_wf_cjalr_x0 : Instr.wf (.cJalr 0) = false := by decide
theorem test_wf_cmv_x0 : Instr.wf (.cMv 1 0) = false := by decide
theorem test_wf_cadd_x0 : Instr.wf (.cAdd 1 0) = false := by decide
theorem test_wf_cswsp_unscaled : Instr.wf (.cSwsp 1 1) = false := by decide

/-! ## Decoding: a word for every constructor, written from the spec's encoding (the examples of the rules) -/

/-- The decoder reads every listed instruction from its word, and the encoder gives the word back. -/
def reads (l : List (Nat × Nat × Instr)) : Bool :=
  l.all fun r => decodeTableWord r.1 r.2.1 == some r.2.2 && (encode r.2.2).toWord.toNat == r.2.1 && r.2.2.wf

theorem test_decode_integer_1 : reads
    [(32, 0x123452B7, .lui 5 0x12345), (32, 0x00001297, .auipc 5 1), (32, 0x00308093, .addi 1 1 3),
      (32, 0xFFF32293, .slti 5 6 0xFFF), (32, 0xFFF33293, .sltiu 5 6 0xFFF), (32, 0xFFF34293, .xori 5 6 0xFFF),
      (32, 0x0F036293, .ori 5 6 0x0F0), (32, 0x0FF37293, .andi 5 6 0x0FF)] = true := by decide

theorem test_decode_integer_2 : reads
    [(32, 0x01F31293, .slli 5 6 31), (32, 0x00435293, .srli 5 6 4), (32, 0x40435293, .srai 5 6 4),
      (32, 0x007302B3, .add 5 6 7), (32, 0x407302B3, .sub 5 6 7), (32, 0x007312B3, .sll 5 6 7),
      (32, 0x007322B3, .slt 5 6 7), (32, 0x007332B3, .sltu 5 6 7)] = true := by decide

theorem test_decode_integer_3 : reads
    [(32, 0x007342B3, .xor 5 6 7), (32, 0x007352B3, .srl 5 6 7), (32, 0x407352B3, .sra 5 6 7),
      (32, 0x007362B3, .or 5 6 7), (32, 0x007372B3, .and 5 6 7)] = true := by decide

theorem test_decode_control_1 : reads
    [(32, 0x008000EF, .jal 1 8), (32, 0xFFDFF06F, .jal 0 0x1FFFFC), (32, 0x004280E7, .jalr 1 5 4),
      (32, 0x00628863, .beq 5 6 16), (32, 0xFE029CE3, .bne 5 0 0x1FF8), (32, 0x0062C863, .blt 5 6 16),
      (32, 0x0062D863, .bge 5 6 16), (32, 0x0062E863, .bltu 5 6 16)] = true := by decide

theorem test_decode_control_2 : reads
    [(32, 0x0062F863, .bgeu 5 6 16)] = true := by decide

theorem test_decode_memory_1 : reads
    [(32, 0xFFC30283, .lb 5 6 0xFFC), (32, 0xFFC31283, .lh 5 6 0xFFC), (32, 0xFFC32283, .lw 5 6 0xFFC),
      (32, 0xFFC34283, .lbu 5 6 0xFFC), (32, 0xFFC35283, .lhu 5 6 0xFFC), (32, 0x00730423, .sb 7 6 8),
      (32, 0x00731423, .sh 7 6 8), (32, 0xFE732E23, .sw 7 6 0xFFC)] = true := by decide

theorem test_decode_memory_2 : reads
    [(32, 0x8330000F, .fence 8 3 3 0 0), (32, 0x0FF0000F, .fence 0 15 15 0 0), (32, 0x0000100F, .fenceI 0 0 0)] = true := by decide

theorem test_decode_multiply : reads
    [(32, 0x027302B3, .mul 5 6 7), (32, 0x027312B3, .mulh 5 6 7), (32, 0x027322B3, .mulhsu 5 6 7),
      (32, 0x027332B3, .mulhu 5 6 7), (32, 0x027342B3, .div 5 6 7), (32, 0x027352B3, .divu 5 6 7),
      (32, 0x027362B3, .rem 5 6 7), (32, 0x027372B3, .remu 5 6 7)] = true := by decide

theorem test_decode_atomic_1 : reads
    [(32, 0x140322AF, .lrW true false 5 6), (32, 0x1A7322AF, .scW false true 5 6 7),
      (32, 0x087322AF, .amoswapW false false 5 6 7), (32, 0x067322AF, .amoaddW true true 5 6 7),
      (32, 0x207322AF, .amoxorW false false 5 6 7), (32, 0x607322AF, .amoandW false false 5 6 7),
      (32, 0x407322AF, .amoorW false false 5 6 7), (32, 0x807322AF, .amominW false false 5 6 7)] = true := by decide

theorem test_decode_atomic_2 : reads
    [(32, 0xA07322AF, .amomaxW false false 5 6 7), (32, 0xC07322AF, .amominuW false false 5 6 7),
      (32, 0xE07322AF, .amomaxuW false false 5 6 7)] = true := by decide

theorem test_decode_system_1 : reads
    [(32, 0x340312F3, .csrrw 5 6 0x340), (32, 0xC00322F3, .csrrs 5 6 0xC00), (32, 0x304332F3, .csrrc 5 6 0x304),
      (32, 0x340FD2F3, .csrrwi 5 31 0x340), (32, 0x30046073, .csrrsi 0 8 0x300),
      (32, 0x30047073, .csrrci 0 8 0x300), (32, 0x00000073, .ecall), (32, 0x00100073, .ebreak)] = true := by decide

theorem test_decode_system_2 : reads
    [(32, 0x30200073, .mret), (32, 0x10200073, .sret), (32, 0x10500073, .wfi), (32, 0x12628073, .sfenceVma 5 6)] = true := by decide

theorem test_decode_quadrant0 : reads
    [(16, 0x0808, .cAddi4spn 2 16), (16, 0x1FE0, .cAddi4spn 0 1020), (16, 0x005C, .cAddi4spn 7 4),
      (16, 0x4588, .cLw 2 3 8), (16, 0x5CE0, .cLw 0 1 124), (16, 0xC588, .cSw 2 3 8), (16, 0xC03C, .cSw 7 0 64)] = true := by decide

theorem test_decode_quadrant1_1 : reads
    [(16, 0x0001, .cNop 0), (16, 0x157D, .cAddi 10 0x3F), (16, 0x1501, .cAddi 10 0x20), (16, 0x2021, .cJal 8),
      (16, 0x3001, .cJal 0x800), (16, 0x2FFD, .cJal 0x7FE), (16, 0x557D, .cLi 10 0x3F),
      (16, 0x7139, .cAddi16sp 0x3C0)] = true := by decide

theorem test_decode_quadrant1_2 : reads
    [(16, 0x617D, .cAddi16sp 0x1F0), (16, 0x7101, .cAddi16sp 0x200), (16, 0x6505, .cLui 10 1),
      (16, 0x7181, .cLui 3 0x20), (16, 0x8111, .cSrli 2 4), (16, 0x8511, .cSrai 2 4), (16, 0x9941, .cAndi 2 0x30),
      (16, 0x8D0D, .cSub 2 3)] = true := by decide

theorem test_decode_quadrant1_3 : reads
    [(16, 0x8D2D, .cXor 2 3), (16, 0x8D4D, .cOr 2 3), (16, 0x8D6D, .cAnd 2 3), (16, 0xBFF5, .cJ 0xFFC),
      (16, 0xAFFD, .cJ 0x7FE), (16, 0xC501, .cBeqz 2 8), (16, 0xD001, .cBeqz 0 0x100), (16, 0xCC7D, .cBeqz 0 0xFE)] = true := by decide

theorem test_decode_quadrant1_4 : reads
    [(16, 0xFD6D, .cBnez 2 0x1FA)] = true := by decide

theorem test_decode_quadrant2_1 : reads
    [(16, 0x0512, .cSlli 10 4), (16, 0x4532, .cLwsp 10 12), (16, 0x50FE, .cLwsp 1 252), (16, 0x8082, .cJr 1),
      (16, 0x852E, .cMv 10 11), (16, 0x9002, .cEbreak), (16, 0x9282, .cJalr 5), (16, 0x952E, .cAdd 10 11)] = true := by decide

theorem test_decode_quadrant2_2 : reads
    [(16, 0xC62A, .cSwsp 10 12), (16, 0xDF86, .cSwsp 1 252)] = true := by decide

/-- Undefined words (30_encoding.md R177, R183). -/
theorem test_decode_illegal :
    [0x00000007, 0x02001013, 0x1010202F, 0x00200073, 0x00004073, 0x0000707F].all
      (fun w => (decodeWord (BitVec.ofNat 32 w)).isNone) = true := by decide

theorem test_decode_illegal_half :
    [0x0000, 0x0004, 0x2000, 0x6001, 0x9001, 0x1002, 0x4002, 0x8002].all
      (fun c => (decodeHalf (BitVec.ofNat 16 c)).isNone) = true := by decide

/-! ## One instruction on a small state -/

/-- The reset state with registers set. -/
def st (l : List (Reg × Word)) : State := l.foldl (fun s p => s.setX p.1 p.2) State.reset

/-- `s` with a word stored at a physical address. -/
def put (s : State) (pa w : Word) : State := { s with mem := s.mem.store pa .word w }

/-- The next state of an instruction meets `f`. -/
def after (i : Instr) (s : State) (f : State → Bool) : Bool :=
  match exec i s with
  | .next t => f t
  | .fault _ => false
  | .refused _ => false

/-- The next state of a step meets `f`. -/
def stepped (s : State) (f : State → Bool) : Bool :=
  match step s with
  | .next t => f t
  | .fault _ => false
  | .refused _ => false

/-- R200. -/
theorem test_lui : after (.lui 5 0x12345) (st []) (fun t => t.x 5 == 0x12345000#32 && t.mcycle == 1#64) = true := by decide

/-- R201. -/
theorem test_auipc : after (.auipc 5 1) ({ st [] with pc := 0x80000010#32 }) (fun t => t.x 5 == 0x80001010#32) = true := by decide

/-- R202. -/
theorem test_addi_wraps : after (.addi 5 6 1) (st [(6, 0x7FFFFFFF#32)]) (fun t => t.x 5 == 0x80000000#32) = true := by decide

/-- R21. -/
theorem test_addi_x0 : after (.addi 0 6 1) (st [(6, 5#32)]) (fun t => t.regs == (st [(6, 5#32)]).regs && t.pc == 0x80000004#32) = true := by decide

/-- R203. -/
theorem test_slti : after (.slti 5 6 0xFFF) (st [(6, 0x80000000#32)]) (fun t => t.x 5 == 1#32) = true := by decide

/-- R204. -/
theorem test_sltiu : after (.sltiu 5 6 0xFFF) (st [(6, 5#32)]) (fun t => t.x 5 == 1#32) = true := by decide

/-- R205. -/
theorem test_xori : after (.xori 5 6 0xFFF) (st [(6, 0x0F0F0F0F#32)]) (fun t => t.x 5 == 0xF0F0F0F0#32) = true := by decide

/-- R206. -/
theorem test_ori : after (.ori 5 6 0x0F0) (st [(6, 0xF#32)]) (fun t => t.x 5 == 0xFF#32) = true := by decide

/-- R207. -/
theorem test_andi : after (.andi 5 6 0x0FF) (st [(6, 0x12345678#32)]) (fun t => t.x 5 == 0x78#32) = true := by decide

/-- R208. -/
theorem test_slli : after (.slli 5 6 31) (st [(6, 3#32)]) (fun t => t.x 5 == 0x80000000#32) = true := by decide

/-- R209. -/
theorem test_srli : after (.srli 5 6 4) (st [(6, 0x80000010#32)]) (fun t => t.x 5 == 0x08000001#32) = true := by decide

/-- R210. -/
theorem test_srai : after (.srai 5 6 4) (st [(6, 0x80000010#32)]) (fun t => t.x 5 == 0xF8000001#32) = true := by decide

/-- R211. -/
theorem test_add : after (.add 5 6 7) (st [(6, 0xFFFFFFFF#32), (7, 2#32)]) (fun t => t.x 5 == 1#32 && t.pc == 0x80000004#32) = true := by decide

/-- R212. -/
theorem test_sub : after (.sub 5 6 7) (st [(6, 0#32), (7, 1#32)]) (fun t => t.x 5 == 0xFFFFFFFF#32 && t.pc == 0x80000004#32) = true := by decide

/-- R213. -/
theorem test_sll : after (.sll 5 6 7) (st [(6, 1#32), (7, 0x21#32)]) (fun t => t.x 5 == 2#32 && t.pc == 0x80000004#32) = true := by decide

/-- R214. -/
theorem test_slt : after (.slt 5 6 7) (st [(6, 0xFFFFFFFF#32), (7, 1#32)]) (fun t => t.x 5 == 1#32 && t.pc == 0x80000004#32) = true := by decide

/-- R215. -/
theorem test_sltu : after (.sltu 5 6 7) (st [(6, 0xFFFFFFFF#32), (7, 1#32)]) (fun t => t.x 5 == 0#32 && t.pc == 0x80000004#32) = true := by decide

/-- R216. -/
theorem test_xor : after (.xor 5 6 7) (st [(6, 0xFF00FF00#32), (7, 0x0FF00FF0#32)]) (fun t => t.x 5 == 0xF0F0F0F0#32 && t.pc == 0x80000004#32) = true := by decide

/-- R217. -/
theorem test_srl : after (.srl 5 6 7) (st [(6, 0x80000000#32), (7, 31#32)]) (fun t => t.x 5 == 1#32 && t.pc == 0x80000004#32) = true := by decide

/-- R218. -/
theorem test_sra : after (.sra 5 6 7) (st [(6, 0x80000000#32), (7, 31#32)]) (fun t => t.x 5 == 0xFFFFFFFF#32 && t.pc == 0x80000004#32) = true := by decide

/-- R219. -/
theorem test_or : after (.or 5 6 7) (st [(6, 0xF0000000#32), (7, 0xF#32)]) (fun t => t.x 5 == 0xF000000F#32 && t.pc == 0x80000004#32) = true := by decide

/-- R220. -/
theorem test_and : after (.and 5 6 7) (st [(6, 0xFF00FF00#32), (7, 0x0FF00FF0#32)]) (fun t => t.x 5 == 0x0F000F00#32 && t.pc == 0x80000004#32) = true := by decide

/-- R280. -/
theorem test_mul : after (.mul 5 6 7) (st [(6, 7#32), (7, 0xFFFFFFFD#32)]) (fun t => t.x 5 == 0xFFFFFFEB#32 && t.pc == 0x80000004#32) = true := by decide

/-- R281. -/
theorem test_mulh : after (.mulh 5 6 7) (st [(6, 0x12345678#32), (7, 0x9ABCDEF0#32)]) (fun t => t.x 5 == 0xF8CC93D6#32 && t.pc == 0x80000004#32) = true := by decide

/-- R282. -/
theorem test_mulhsu : after (.mulhsu 5 6 7) (st [(6, 0x80000000#32), (7, 0x80000000#32)]) (fun t => t.x 5 == 0xC0000000#32 && t.pc == 0x80000004#32) = true := by decide

/-- R283. -/
theorem test_mulhu : after (.mulhu 5 6 7) (st [(6, 0x12345678#32), (7, 0x9ABCDEF0#32)]) (fun t => t.x 5 == 0x0B00EA4E#32 && t.pc == 0x80000004#32) = true := by decide

/-- R284. -/
theorem test_div : after (.div 5 6 7) (st [(6, 0xFFFFFFF9#32), (7, 2#32)]) (fun t => t.x 5 == 0xFFFFFFFD#32 && t.pc == 0x80000004#32) = true := by decide

/-- R285. -/
theorem test_divu : after (.divu 5 6 7) (st [(6, 0xFFFFFFF9#32), (7, 2#32)]) (fun t => t.x 5 == 0x7FFFFFFC#32 && t.pc == 0x80000004#32) = true := by decide

/-- R286. -/
theorem test_rem : after (.rem 5 6 7) (st [(6, 0xFFFFFFF9#32), (7, 2#32)]) (fun t => t.x 5 == 0xFFFFFFFF#32 && t.pc == 0x80000004#32) = true := by decide

/-- R287. -/
theorem test_remu : after (.remu 5 6 7) (st [(6, 7#32), (7, 0xFFFFFFFE#32)]) (fun t => t.x 5 == 7#32 && t.pc == 0x80000004#32) = true := by decide

/-- R284. -/
theorem test_div_overflow : after (.div 5 6 7) (st [(6, 0x80000000#32), (7, 0xFFFFFFFF#32)]) (fun t => t.x 5 == 0x80000000#32 && t.pc == 0x80000004#32) = true := by decide

/-- R285. -/
theorem test_divu_zero : after (.divu 5 6 7) (st [(6, 5#32), (7, 0#32)]) (fun t => t.x 5 == 0xFFFFFFFF#32 && t.pc == 0x80000004#32) = true := by decide

/-- R286. -/
theorem test_rem_overflow : after (.rem 5 6 7) (st [(6, 0x80000000#32), (7, 0xFFFFFFFF#32)]) (fun t => t.x 5 == 0#32 && t.pc == 0x80000004#32) = true := by decide

/-- R287. -/
theorem test_remu_zero : after (.remu 5 6 7) (st [(6, 5#32), (7, 0#32)]) (fun t => t.x 5 == 5#32 && t.pc == 0x80000004#32) = true := by decide

/-- R230. -/
theorem test_jal : after (.jal 1 0x1FFFFC) ({ st [] with pc := 0x80000010#32 }) (fun t => t.pc == 0x8000000C#32 && t.x 1 == 0x80000014#32) = true := by decide

/-- R231. -/
theorem test_jalr : after (.jalr 5 5 3) ({ st [(5, 0x80000200#32)] with pc := 0x80000020#32 }) (fun t => t.pc == 0x80000202#32 && t.x 5 == 0x80000024#32) = true := by decide

/-- R232. -/
theorem test_beq : after (.beq 5 6 16) ({ st [(5, 7#32), (6, 7#32)] with pc := 0x100#32 }) (fun t => t.pc == 0x110#32) = true := by decide

/-- R233. -/
theorem test_bne : after (.bne 5 6 16) ({ st [(5, 1#32), (6, 0#32)] with pc := 0x100#32 }) (fun t => t.pc == 0x110#32) = true := by decide

/-- R234. -/
theorem test_blt : after (.blt 5 6 16) ({ st [(5, 0xFFFFFFFF#32), (6, 0#32)] with pc := 0x100#32 }) (fun t => t.pc == 0x110#32) = true := by decide

/-- R235. -/
theorem test_bge : after (.bge 5 6 16) ({ st [(5, 0xFFFFFFFF#32), (6, 0#32)] with pc := 0x100#32 }) (fun t => t.pc == 0x104#32) = true := by decide

/-- R236. -/
theorem test_bltu : after (.bltu 5 6 16) ({ st [(5, 0xFFFFFFFF#32), (6, 0#32)] with pc := 0x100#32 }) (fun t => t.pc == 0x104#32) = true := by decide

/-- R237. -/
theorem test_bgeu : after (.bgeu 5 6 16) ({ st [(5, 0xFFFFFFFF#32), (6, 0#32)] with pc := 0x100#32 }) (fun t => t.pc == 0x110#32) = true := by decide

/-- R250. -/
theorem test_lb : after (.lb 5 6 0xFFC) (put (st [(6, 0x80001004#32)]) 0x80001000#32 0xFE#32) (fun t => t.x 5 == 0xFFFFFFFE#32) = true := by decide

/-- R251. -/
theorem test_lh : after (.lh 5 6 0xFFC) (put (st [(6, 0x80001004#32)]) 0x80001000#32 0xF234#32) (fun t => t.x 5 == 0xFFFFF234#32) = true := by decide

/-- R252. -/
theorem test_lw : after (.lw 5 6 0xFFC) (put (st [(6, 0x80001004#32)]) 0x80001000#32 0x12345678#32) (fun t => t.x 5 == 0x12345678#32) = true := by decide

/-- R253. -/
theorem test_lbu : after (.lbu 5 6 0xFFC) (put (st [(6, 0x80001004#32)]) 0x80001000#32 0xFE#32) (fun t => t.x 5 == 0xFE#32) = true := by decide

/-- R254. -/
theorem test_lhu : after (.lhu 5 6 0xFFC) (put (st [(6, 0x80001004#32)]) 0x80001000#32 0xF234#32) (fun t => t.x 5 == 0xF234#32) = true := by decide

/-- R251. -/
theorem test_lh_misaligned : after (.lh 5 6 1) (st [(6, 0x80001000#32)]) (fun t => t.mcause == 4#32 && t.mtval == 0x80001001#32 && t.mepc == 0x80000000#32 && t.x 5 == 0#32) = true := by decide

/-- R259. -/
theorem test_lw_unmapped : after (.lw 5 6 0) (st [(5, 1#32), (6, 0x40000000#32)]) (fun t => t.x 5 == 0#32 && t.pc == 0x80000004#32) = true := by decide

/-- R255. -/
theorem test_sb : after (.sb 7 6 8) (st [(6, 0x80001000#32), (7, 0x123456AB#32)]) (fun t => t.mem == [(0x80001008, 0xAB#8)]) = true := by decide

/-- R256. -/
theorem test_sh : after (.sh 7 6 8) (st [(6, 0x80001000#32), (7, 0x123456AB#32)]) (fun t => t.mem == [(0x80001008, 0xAB#8), (0x80001009, 0x56#8)]) = true := by decide

/-- R257. -/
theorem test_sw : after (.sw 7 6 0xFFC) (st [(6, 0x80001000#32), (7, 0x123456AB#32)]) (fun t => t.mem == [(0x80000FFC, 0xAB#8), (0x80000FFD, 0x56#8), (0x80000FFE, 0x34#8), (0x80000FFF, 0x12#8)]) = true := by decide

/-- R270. -/
theorem test_fence : after (.fence 0 15 15 0 0) (st []) (fun t => t == { st [] with pc := 0x80000004#32, mcycle := 1#64 }) = true := by decide

/-- R271. -/
theorem test_fenceI : after (.fenceI 0 0 0) (st []) (fun t => t == { st [] with pc := 0x80000004#32, mcycle := 1#64 }) = true := by decide

/-- R305. -/
theorem test_amoswapW : after (.amoswapW false false 5 6 7) (put (st [(6, 0x80002000#32), (7, 3#32)]) 0x80002000#32 0xFFFFFFFE#32) (fun t => t.x 5 == 0xFFFFFFFE#32 && t.mem.load 0x80002000#32 .word == 3#32) = true := by decide

/-- R306. -/
theorem test_amoaddW : after (.amoaddW false false 5 6 7) (put (st [(6, 0x80002000#32), (7, 3#32)]) 0x80002000#32 0xFFFFFFFE#32) (fun t => t.x 5 == 0xFFFFFFFE#32 && t.mem.load 0x80002000#32 .word == 1#32) = true := by decide

/-- R307. -/
theorem test_amoxorW : after (.amoxorW false false 5 6 7) (put (st [(6, 0x80002000#32), (7, 3#32)]) 0x80002000#32 0xFFFFFFFE#32) (fun t => t.x 5 == 0xFFFFFFFE#32 && t.mem.load 0x80002000#32 .word == 0xFFFFFFFD#32) = true := by decide

/-- R308. -/
theorem test_amoandW : after (.amoandW false false 5 6 7) (put (st [(6, 0x80002000#32), (7, 3#32)]) 0x80002000#32 0xFFFFFFFE#32) (fun t => t.x 5 == 0xFFFFFFFE#32 && t.mem.load 0x80002000#32 .word == 2#32) = true := by decide

/-- R309. -/
theorem test_amoorW : after (.amoorW false false 5 6 7) (put (st [(6, 0x80002000#32), (7, 3#32)]) 0x80002000#32 0xFFFFFFFE#32) (fun t => t.x 5 == 0xFFFFFFFE#32 && t.mem.load 0x80002000#32 .word == 0xFFFFFFFF#32) = true := by decide

/-- R310. -/
theorem test_amominW : after (.amominW false false 5 6 7) (put (st [(6, 0x80002000#32), (7, 3#32)]) 0x80002000#32 0xFFFFFFFE#32) (fun t => t.x 5 == 0xFFFFFFFE#32 && t.mem.load 0x80002000#32 .word == 0xFFFFFFFE#32) = true := by decide

/-- R311. -/
theorem test_amomaxW : after (.amomaxW false false 5 6 7) (put (st [(6, 0x80002000#32), (7, 3#32)]) 0x80002000#32 0xFFFFFFFE#32) (fun t => t.x 5 == 0xFFFFFFFE#32 && t.mem.load 0x80002000#32 .word == 3#32) = true := by decide

/-- R312. -/
theorem test_amominuW : after (.amominuW false false 5 6 7) (put (st [(6, 0x80002000#32), (7, 3#32)]) 0x80002000#32 0xFFFFFFFE#32) (fun t => t.x 5 == 0xFFFFFFFE#32 && t.mem.load 0x80002000#32 .word == 3#32) = true := by decide

/-- R313. -/
theorem test_amomaxuW : after (.amomaxuW false false 5 6 7) (put (st [(6, 0x80002000#32), (7, 3#32)]) 0x80002000#32 0xFFFFFFFE#32) (fun t => t.x 5 == 0xFFFFFFFE#32 && t.mem.load 0x80002000#32 .word == 0xFFFFFFFE#32) = true := by decide

/-- R301. -/
theorem test_lrW : after (.lrW true false 5 6) (put (st [(6, 0x80002000#32)]) 0x80002000#32 7#32) (fun t => t.x 5 == 7#32 && t.reservation == some 0x80002000#32) = true := by decide

/-- R302. -/
theorem test_scW : after (.scW false true 5 6 7) ({ st [(6, 0x80002000#32), (7, 8#32)] with reservation := some 0x80002000#32 }) (fun t => t.x 5 == 0#32 && t.reservation == none && t.mem.load 0x80002000#32 .word == 8#32) = true := by decide

/-- R302. -/
theorem test_scW_fails : after (.scW false false 5 6 7) (st [(6, 0x80002000#32), (7, 8#32)]) (fun t => t.x 5 == 1#32 && t.mem == []) = true := by decide

/-- R331. -/
theorem test_csrrw : after (.csrrw 5 6 0x340) ({ st [(6, 0x22#32)] with mscratch := 0x11#32 }) (fun t => t.x 5 == 0x11#32 && t.mscratch == 0x22#32) = true := by decide

/-- R331. -/
theorem test_csrrw_readonly : after (.csrrw 5 0 0xF14) (st []) (fun t => t.mcause == 2#32 && t.mtval == 0xF14012F3#32) = true := by decide

/-- R332. -/
theorem test_csrrs : after (.csrrs 5 0 0xC00) ({ st [] with mcycle := 9#64 }) (fun t => t.x 5 == 9#32 && t.mcycle == 10#64) = true := by decide

/-- R332. -/
theorem test_csrrs_readonly : after (.csrrs 5 6 0xC00) (st []) (fun t => t.mcause == 2#32 && t.mtval == 0xC00322F3#32) = true := by decide

/-- R333. -/
theorem test_csrrc : after (.csrrc 5 6 0x304) ({ st [(6, 0x80#32)] with mie := 0xAAA#32 }) (fun t => t.x 5 == 0xAAA#32 && t.mie == 0xA2A#32) = true := by decide

/-- R334. -/
theorem test_csrrwi : after (.csrrwi 5 31 0x340) ({ st [] with mscratch := 0x11#32 }) (fun t => t.x 5 == 0x11#32 && t.mscratch == 0x1F#32) = true := by decide

/-- R335. -/
theorem test_csrrsi : after (.csrrsi 0 8 0x300) (st []) (fun t => t.mstatus == 8#32) = true := by decide

/-- R336. -/
theorem test_csrrci : after (.csrrci 0 8 0x300) ({ st [] with mstatus := 8#32 }) (fun t => t.mstatus == 0#32) = true := by decide

/-- R350. -/
theorem test_ecall : after (.ecall) ({ st [] with pc := 0x80000100#32, priv := .u, mtvec := 0x80000400#32 }) (fun t => t.mcause == 8#32 && t.mepc == 0x80000100#32 && t.mtval == 0#32 && t.priv == .m && t.pc == 0x80000400#32) = true := by decide

/-- R351. -/
theorem test_ebreak : after (.ebreak) ({ st [] with pc := 0x80000104#32, mtvec := 0x80000400#32 }) (fun t => t.mcause == 3#32 && t.mepc == 0x80000104#32 && mstatusMpp t.mstatus == 3#2 && t.pc == 0x80000400#32) = true := by decide

/-- R352. -/
theorem test_mret : after (.mret) ({ st [] with mstatus := 0x880#32, mepc := 0x80001000#32 }) (fun t => t.mstatus == 0x82#32 && t.priv == .s && t.pc == 0x80001000#32) = true := by decide

/-- R352. -/
theorem test_mret_to_m : after (.mret) ({ st [] with mstatus := 0x1880#32 }) (fun t => t.mstatus == 0x88#32 && t.priv == .m) = true := by decide

/-- R353. -/
theorem test_sret : after (.sret) ({ st [] with mstatus := 0x120#32, sepc := 0xC0000010#32, priv := .s }) (fun t => t.mstatus == 0x22#32 && t.priv == .s && t.pc == 0xC0000010#32) = true := by decide

/-- R353. -/
theorem test_sret_to_u : after (.sret) ({ st [] with mstatus := 0x20#32, priv := .s }) (fun t => t.mstatus == 0x21#32 && t.priv == .u) = true := by decide

/-- R354. -/
theorem test_wfi : after (.wfi) ({ st [] with pc := 0x80000200#32, mie := 0x80#32 }) (fun t => t.halted && t.pc == 0x80000204#32 && (raiseInterrupts 0x80#32 t).halted == false) = true := by decide

/-- R354. -/
theorem test_wfi_in_u : after (.wfi) ({ st [] with priv := .u }) (fun t => t.mcause == 2#32 && t.mtval == 0x10500073#32) = true := by decide

/-- R355. -/
theorem test_sfenceVma : after (.sfenceVma 5 6) ({ st [] with readTlb := [{ page := 0#20, delta := 0#32, region := { base := 0, size := 0, kind := .ram } }] }) (fun t => t.readTlb == [] && t.pc == 0x80000004#32) = true := by decide

/-- R372. -/
theorem test_cAddi4spn : after (.cAddi4spn 2 16) (st [(2, 0x80010000#32)]) (fun t => t.x 10 == 0x80010010#32 && t.pc == 0x80000002#32) = true := by decide

/-- R373. -/
theorem test_cLw : after (.cLw 2 3 8) (put (st [(11, 0x80001000#32)]) 0x80001008#32 0x12345678#32) (fun t => t.x 10 == 0x12345678#32 && t.pc == 0x80000002#32) = true := by decide

/-- R374. -/
theorem test_cSw : after (.cSw 2 3 8) (st [(11, 0x80001000#32), (10, 7#32)]) (fun t => t.mem == [(0x80001008, 7#8)] && t.pc == 0x80000002#32) = true := by decide

/-- R375. -/
theorem test_cNop : after (.cNop 0) (st []) (fun t => t == { st [] with pc := 0x80000002#32, mcycle := 1#64 }) = true := by decide

/-- R376. -/
theorem test_cAddi : after (.cAddi 10 0x3F) (st []) (fun t => t.x 10 == 0xFFFFFFFF#32) = true := by decide

/-- R377. -/
theorem test_cJal : after (.cJal 8) ({ st [] with pc := 0x80000002#32 }) (fun t => t.x 1 == 0x80000004#32 && t.pc == 0x8000000A#32) = true := by decide

/-- R378. -/
theorem test_cLi : after (.cLi 10 0x3F) (st []) (fun t => t.x 10 == 0xFFFFFFFF#32) = true := by decide

/-- R379. -/
theorem test_cAddi16sp : after (.cAddi16sp 0x3C0) (st [(2, 0x80010000#32)]) (fun t => t.x 2 == 0x8000FFC0#32) = true := by decide

/-- R380. -/
theorem test_cLui : after (.cLui 3 0x20) (st []) (fun t => t.x 3 == 0xFFFE0000#32) = true := by decide

/-- R381. -/
theorem test_cSrli : after (.cSrli 2 4) (st [(10, 0x80000010#32)]) (fun t => t.x 10 == 0x08000001#32) = true := by decide

/-- R382. -/
theorem test_cSrai : after (.cSrai 2 4) (st [(10, 0x80000010#32)]) (fun t => t.x 10 == 0xF8000001#32) = true := by decide

/-- R383. -/
theorem test_cAndi : after (.cAndi 2 0x30) (st [(10, 0x12345678#32)]) (fun t => t.x 10 == 0x12345670#32) = true := by decide

/-- R384. -/
theorem test_cSub : after (.cSub 2 3) (st [(10, 5#32), (11, 7#32)]) (fun t => t.x 10 == 0xFFFFFFFE#32) = true := by decide

/-- R385. -/
theorem test_cXor : after (.cXor 2 3) (st [(10, 5#32), (11, 7#32)]) (fun t => t.x 10 == 2#32) = true := by decide

/-- R386. -/
theorem test_cOr : after (.cOr 2 3) (st [(10, 5#32), (11, 7#32)]) (fun t => t.x 10 == 7#32) = true := by decide

/-- R387. -/
theorem test_cAnd : after (.cAnd 2 3) (st [(10, 5#32), (11, 6#32)]) (fun t => t.x 10 == 4#32) = true := by decide

/-- R388. -/
theorem test_cJ : after (.cJ 0xFFC) ({ st [] with pc := 0x80000010#32 }) (fun t => t.pc == 0x8000000C#32) = true := by decide

/-- R389. -/
theorem test_cBeqz : after (.cBeqz 2 8) ({ st [(10, 1#32)] with pc := 0x80000020#32 }) (fun t => t.pc == 0x80000022#32) = true := by decide

/-- R390. -/
theorem test_cBnez : after (.cBnez 2 0x1FA) ({ st [(10, 3#32)] with pc := 0x80000026#32 }) (fun t => t.pc == 0x80000020#32) = true := by decide

/-- R391. -/
theorem test_cSlli : after (.cSlli 10 4) (st [(10, 0x80000011#32)]) (fun t => t.x 10 == 0x110#32) = true := by decide

/-- R392. -/
theorem test_cLwsp : after (.cLwsp 10 12) (put (st [(2, 0x80010000#32)]) 0x8001000C#32 0xCAFEF00D#32) (fun t => t.x 10 == 0xCAFEF00D#32) = true := by decide

/-- R393. -/
theorem test_cJr : after (.cJr 1) (st [(1, 0x80000123#32)]) (fun t => t.pc == 0x80000122#32) = true := by decide

/-- R394. -/
theorem test_cMv : after (.cMv 10 11) (st [(11, 0xDEADBEEF#32)]) (fun t => t.x 10 == 0xDEADBEEF#32) = true := by decide

/-- R395. -/
theorem test_cEbreak : after (.cEbreak) ({ st [] with pc := 0x80000030#32, mtvec := 0x80000400#32 }) (fun t => t.mcause == 3#32 && t.mepc == 0x80000030#32 && t.pc == 0x80000400#32) = true := by decide

/-- R396. -/
theorem test_cJalr : after (.cJalr 1) ({ st [(1, 0x80002000#32)] with pc := 0x80000040#32 }) (fun t => t.pc == 0x80002000#32 && t.x 1 == 0x80000042#32) = true := by decide

/-- R397. -/
theorem test_cAdd : after (.cAdd 10 11) (st [(10, 5#32), (11, 0xFFFFFFFF#32)]) (fun t => t.x 10 == 4#32) = true := by decide

/-- R398. -/
theorem test_cSwsp : after (.cSwsp 10 12) (st [(2, 0x80010000#32), (10, 0xCAFEF00D#32)]) (fun t => t.mem.load 0x8001000C#32 .word == 0xCAFEF00D#32 && t.mem.byteAt 0x8001000C#32 == 0x0D#8) = true := by decide

/-! ## One step -/

/-- 10_state.md R72: the source's own example, its first instruction, fetched and run. -/
theorem test_step_addi : stepped (State.reset.withFetchWord 32 0x00500093)
    (fun t => t.x 1 == 5#32 && t.pc == 0x80000004#32 && t.mcycle == 1#64) = true := by decide

/-- A 16-bit word. -/
theorem test_step_compressed : stepped (State.reset.withFetchWord 16 0x557D)
    (fun t => t.x 10 == 0xFFFFFFFF#32 && t.pc == 0x80000002#32) = true := by decide

/-- The example platform with `BOOT_PC` at the last halfword of its RAM. -/
def lastHalfword : Platform := { Config.platform with bootPc := 0x800FFFFE#32 }

/-- 93_implementation_defined.md 1b, R490: the RAM range covers `BOOT_PC`. -/
theorem test_powerOn_last_halfword : powerOnChecked lastHalfword = .next (State.powerOn lastHalfword) := by rfl

/-- R122, R123: one 16-bit fetch is all that a 16-bit instruction needs. -/
theorem test_step_last_halfword : stepped ((State.powerOn lastHalfword).withFetchWord 16 0x557D)
    (fun t => t.x 10 == 0xFFFFFFFF#32 && t.pc == 0x80100000#32 && t.priv == .m && t.mcycle == 1#64) = true := by decide

/-- 93_implementation_defined.md 1b: no RAM range covers `BOOT_PC`. -/
theorem test_powerOn_past_ram :
    powerOnChecked { Config.platform with bootPc := 0x80100000#32 } = .refused .illFormedPlatform := by rfl

/-- 60_exceptions.md R424: the all-zero halfword; nothing is placed, so reset memory is empty (log 2). -/
theorem test_step_empty_memory : stepped State.reset
    (fun t => t.mcause == 2#32 && t.mtval == 0#32 && t.mepc == 0x80000000#32 && t.pc == 0#32) = true := by decide

/-- 60_exceptions.md R450, worked example 1. -/
theorem test_step_machine_timer :
    stepped { State.reset with
        mstatus := 8#32, mie := 0x80#32, mip := 0x80#32, mtvec := 0x80000401#32, pc := 0x80000010#32 }
      (fun t => t.mcause == 0x80000007#32 && t.mepc == 0x80000010#32 && t.mstatus == 0x1880#32 &&
        t.pc == 0x8000041C#32) = true := by decide

/-- 60_exceptions.md R450, worked example 2. -/
theorem test_step_supervisor_external :
    stepped { State.reset with
        priv := .s, mstatus := 2#32, mideleg := 0x222#32, mie := 0x200#32, mip := 0x200#32, stvec := 0x80000801#32
        pc := 0xC0001234#32 }
      (fun t => t.scause == 0x80000009#32 && t.sepc == 0xC0001234#32 && t.mstatus == 0x120#32 && t.priv == .s &&
        t.pc == 0x80000824#32) = true := by decide

/-! ## Witnesses: for each statement with hypotheses, a state and operands that meet them -/

/-- A program of one word at the reset address. -/
def prog (w : Nat) : State := State.reset.withFetchWord 32 w

/-- A state with Sv32 tables in RAM: virtual page 0x00400 maps to physical page 0x80004, and the 4 MiB at 0x00800000 to
the 4 MiB at 0x80000000; Supervisor level. -/
def paged : State :=
  { put (put (put State.reset 0x80002004#32 0x20000C01#32) 0x80002008#32 0x2000000F#32) 0x80003000#32 0x2000100F#32 with
    satp := 0x80080002#32
    priv := .s }

theorem storage_reset : State.reset.StorageInv := ⟨by decide, by decide, by decide, by decide, by decide, by decide⟩
theorem storage_paged : paged.StorageInv := ⟨by decide, by decide, by decide, by decide, by decide, by decide⟩
theorem storage_prog : (prog 0x00500093).StorageInv := ⟨by decide, by decide, by decide, by decide, by decide, by decide⟩
theorem inv_reset : State.reset.Inv := ⟨by decide, by unfold State.CsrInv; decide, storage_reset⟩
theorem inv_paged : paged.Inv := ⟨by decide, by unfold State.CsrInv; decide, storage_paged⟩

theorem witness_DecodeOfEncode : Instr.wf (.beq 31 0 0x1FFE#13) = true ∧ Instr.wf (.cAddi16sp 0x3F0#10) = true := by decide

theorem witness_EncodeOfDecode :
    decodeRaw (.full 0x123452B7#32) = .ok (.lui 5 0x12345) ∧ decodeRaw (.half 0x8082#16) = .ok (.cJr 1) := by
  constructor <;> rfl

theorem witness_WordDecodesToItsRow_match : Instr.isCompressed (.addi 0 0 0) = false ∧
    0x00308093#32 &&& Instr.rowMask (.addi 0 0 0) = Instr.rowMatch (.addi 0 0 0) ∧
    decodeWord 0x00308093#32 = some (.addi 1 1 3) := by decide

theorem witness_WordDecodesToItsRow_none (i : Instr) : 0xFFFFFFFF#32 &&& i.rowMask ≠ i.rowMatch := by
  cases i <;> (simp only [Instr.rowMask, Instr.rowMatch]; decide)

theorem witness_UndefinedEncodings : (0x00000007#32).extractLsb' 0 2 = 3#2 ∧ decodeWord 0x00000007#32 = none ∧
    (0x00000013#32).extractLsb' 0 2 = 3#2 ∧ (decodeWord 0x00000013#32).isSome = true ∧
    (0x0000#16).extractLsb' 0 2 ≠ 3#2 ∧ decodeHalf 0x0000#16 = none ∧ (0x0001#16).extractLsb' 0 2 ≠ 3#2 ∧
    decodeHalf 0x0001#16 = some (.cNop 0) := by decide

theorem witness_StepRunsDecodedInstruction : (prog 0x00500093).halted = false ∧
    pendingInterrupt (prog 0x00500093) = none ∧
    ∃ raw t, fetchInstr (prog 0x00500093) = .ok raw t ∧ decodeRaw raw = .ok (.addi 1 0 5) :=
  ⟨rfl, by decide, _, _, rfl, rfl⟩

theorem witness_StepRunsBytesAtPc : (prog 0x00500093).StorageInv ∧ (prog 0x00500093).halted = false ∧
    pendingInterrupt (prog 0x00500093) = none ∧
    (∃ r, PlainAccess (prog 0x00500093) .fetch .half (prog 0x00500093).pc (.ram r)) ∧
    (∃ r, PlainAccess (prog 0x00500093) .fetch .half ((prog 0x00500093).pc + 2) (.ram r)) ∧
    ∃ rest, decodeBytes [(prog 0x00500093).mem.byteAt 0x80000000#32, (prog 0x00500093).mem.byteAt 0x80000001#32,
      (prog 0x00500093).mem.byteAt 0x80000002#32, (prog 0x00500093).mem.byteAt 0x80000003#32] =
        .ok (.addi 1 0 5, rest) :=
  ⟨storage_prog, rfl, by decide, ⟨⟨0x80000000, 0x100000, .ram⟩, by unfold PlainAccess; decide⟩,
    ⟨⟨0x80000000, 0x100000, .ram⟩, by unfold PlainAccess; decide⟩, _, rfl⟩

theorem witness_StepWithoutInstruction_interrupt :
    pendingInterrupt { State.reset with mie := 0x800#32, mip := 0x800#32 } = some 11 ∧
    ({ State.reset with halted := true } : State).halted = true := by decide

theorem witness_StepWithoutInstruction_fetch : pendingInterrupt { State.reset with pc := 0x2#32 } = none ∧
    (∃ t, fetchInstr { State.reset with pc := 0x2#32 } = .raise (.instrAccessFault 0x2#32) t) ∧
    PlainAccess { State.reset with pc := 0x2#32 } .fetch .half 0x2#32 .unmapped ∧
    (∀ r, Backing.unmapped ≠ .ram r) ∧ (0x80000001#32).getLsbD 0 = true ∧
    ∃ raw d t, fetchInstr State.reset = .ok raw t ∧ decodeRaw raw = .error d :=
  ⟨by decide, ⟨_, rfl⟩, by unfold PlainAccess; decide, (fun _ h => nomatch h), by decide, _, _, _, rfl, rfl⟩

theorem witness_ResetMeetsInvariant : platformWf lastHalfword = true ∧
    classify lastHalfword lastHalfword.bootPc = .ram ⟨0x80000000, 0x100000, .ram⟩ ∧
    platformWf { Config.platform with ranges := [⟨0x80000000, 0x2000, .ram⟩, ⟨0x80001000, 0x1000, .ram⟩] } = false ∧
    classify { Config.platform with bootPc := 0x80100000#32 } 0x80100000#32 = .unmapped := by decide

theorem witness_StepKeepsInvariant : State.reset.Inv ∧ ∃ t, step State.reset = .next t := ⟨inv_reset, _, rfl⟩

theorem witness_HostOperationsKeepInvariant : paged.Inv ∧ (∃ t, hostApply .reset paged = .next t) ∧
    (∃ t, hostApply (.restore (getState paged)) paged = .next t) ∧ ∃ t, hostApply (.stepBudget 1) paged = .next t :=
  ⟨inv_paged, ⟨_, rfl⟩, ⟨_, rfl⟩, ⟨_, rfl⟩⟩

theorem witness_PcStaysEven : Instr.wf (.jal 1 0x1FFFFE) = true ∧ State.reset.pc.getLsbD 0 = false ∧
    ∃ t, exec (.jal 1 0x1FFFFE) State.reset = .next t := ⟨by decide, by decide, _, rfl⟩

theorem witness_InterruptPriority :
    admittedSet State.reset &&& 0xAAA#32 = 0#32 ∧
    pendingInterrupt { State.reset with mie := 0xAAA#32, mip := 0xAAA#32 } = some 11 ∧
    pendingInterrupt { State.reset with mie := 0x20#32, mip := 0xFFFFFFFF#32 } = some 5 := by decide

theorem witness_DocumentHandlerNeverRuns : HandlerStarved { State.reset with mie := 0x80#32, mip := 0x80#32 } := by
  unfold HandlerStarved; decide

def stateTrapEntry1 : State := { State.reset with priv := .u, medeleg := 0x80000000#32 }

def stateTrapEntry2 : State := { State.reset with priv := .s, mideleg := 0x222#32 }

theorem witness_TrapEntry :
    (stateTrapEntry1.priv ≠ .m ∧ stateTrapEntry1.medeleg.getLsbD 31 = true) ∧
    (stateTrapEntry2.priv ≠ .m ∧ stateTrapEntry2.mideleg.getLsbD 9 = true ∧ stateTrapEntry2.mideleg.getLsbD 0 = false) := by decide

theorem witness_TrapVector : (0x80000400#32).getLsbD 0 = false ∧ (0x80000401#32).getLsbD 0 = true := by decide

def stateEnvironmentTraps : State := { State.reset with priv := .u, medeleg := 0x108#32 }

theorem witness_EnvironmentTraps :
    (stateEnvironmentTraps.priv ≠ .m ∧ stateEnvironmentTraps.medeleg.getLsbD 8 = true ∧ stateEnvironmentTraps.medeleg.getLsbD 3 = true) ∧ State.reset.priv = .m := by decide

def stateTrapReturns1 : State := { State.reset with mstatus := 0x1880#32 }

def stateTrapReturns2 : State := { State.reset with priv := .s }

theorem witness_TrapReturns :
    (stateTrapReturns1.priv = .m ∧ stateTrapReturns1.mstatus.extractLsb' 11 2 ≠ 2#2) ∧
    (stateTrapReturns2.priv = .s ∧ stateTrapReturns2.mstatus.getLsbD 22 = false) := by decide

def statePrivilegedInstructionsTrap : State := { State.reset with priv := .s, mstatus := 0x700000#32 }

theorem witness_PrivilegedInstructionsTrap :
    (statePrivilegedInstructionsTrap.priv = .s ∧ statePrivilegedInstructionsTrap.mstatus.getLsbD 20 = true ∧ statePrivilegedInstructionsTrap.mstatus.getLsbD 21 = true ∧ statePrivilegedInstructionsTrap.mstatus.getLsbD 22 = true) := by
  decide

def stateReturnUndoesTrap : State := { State.reset with priv := .u, medeleg := 4#32 }

theorem witness_ReturnUndoesTrap :
    (trapEntry 2 false 0#32 { State.reset with priv := .u }).priv = .m ∧
    ((trapEntry 2 false 0#32 stateReturnUndoesTrap).priv = .s ∧ stateReturnUndoesTrap.mstatus.getLsbD 22 = false) := by decide

def stateWfiCompletes : State := { State.reset with priv := .s }

theorem witness_WfiCompletes : State.reset.priv = .m ∧
    (stateWfiCompletes.priv = .s ∧ stateWfiCompletes.mstatus.getLsbD 21 = false) := by decide

def stateFencesComplete : State := { State.reset with priv := .s }

theorem witness_FencesComplete :
    (stateFencesComplete.priv = .s ∧ stateFencesComplete.mstatus.getLsbD 20 = false) := by decide

theorem witness_LowerLevelsCannotWriteMachineState : ({ State.reset with priv := .s } : State).priv ≠ .m ∧
    ∃ t, exec (.csrrw 0 1 0x100#12) { State.reset with priv := .s } = .next t := ⟨by decide, _, rfl⟩

/-- The reset state at another level, with the given `mstatus` and counter enables. -/
def atLevel (p : Priv) (mstatus mcen scen : Word) : State :=
  { State.reset with priv := p, mstatus := mstatus, mcounteren := mcen, scounteren := scen }

theorem witness_CsrAccessRefused_write : CsrRefused 0xF14#12 true State.reset := by unfold CsrRefused; decide
theorem witness_CsrAccessRefused_level : CsrRefused 0x300#12 false (atLevel .s 0#32 0#32 0#32) := by
  unfold CsrRefused; decide
theorem witness_CsrAccessRefused_absent : CsrRefused 0x7A0#12 false State.reset := by unfold CsrRefused; decide
theorem witness_CsrAccessRefused_satp : CsrRefused 0x180#12 false (atLevel .s 0x100000#32 0#32 0#32) := by
  unfold CsrRefused; decide
theorem witness_CsrAccessRefused_counter : CsrRefused 0xC1F#12 false (atLevel .s 0#32 0#32 0#32) := by
  unfold CsrRefused; decide
theorem witness_CsrAccessRefused_high : CsrRefused 0xC80#12 false (atLevel .u 0#32 0xFFFFFFFF#32 0#32) := by
  unfold CsrRefused; decide

theorem witness_CsrInstructionsComplete_machine :
    csrOf 0x340#12 = some .mscratch ∧ ¬ CsrRefused 0x340#12 true State.reset := by unfold CsrRefused; decide
theorem witness_CsrInstructionsComplete_supervisor : ¬ CsrRefused 0x100#12 true (atLevel .s 0#32 0#32 0#32) := by
  unfold CsrRefused; decide
theorem witness_CsrInstructionsComplete_user : ¬ CsrRefused 0xC00#12 false (atLevel .u 0#32 1#32 1#32) := by
  unfold CsrRefused; decide

theorem witness_MstatusReadAndWrite :
    (csrWrite .mstatus 0x40000#32 State.reset).mstatus.getLsbD 18 ≠ State.reset.mstatus.getLsbD 18 ∧
    (csrWrite .mstatus 8#32 State.reset).mstatus = 8#32 ∧ (0x1000#32).extractLsb' 11 2 = 2#2 := by decide

theorem witness_SstatusReadAndWrite :
    (csrWrite .sstatus 0x80000#32 State.reset).mstatus.getLsbD 19 ≠ State.reset.mstatus.getLsbD 19 ∧
    (csrWrite .sstatus 2#32 State.reset).mstatus = 2#32 := by decide

theorem witness_SatpReadAndWrite : (csrWrite .satp 0xFFFFFFFF#32 State.reset).satp ≠ State.reset.satp ∧
    (csrWrite .satp 0x7FC00000#32 State.reset).satp = State.reset.satp := by decide

theorem witness_CountersAndTime : State.reset.priv = .m := rfl

/-- The RAM of the example platform. -/
def ram : Range := { base := 0x80000000, size := 0x100000, kind := .ram }

theorem witness_RamLoadsComplete :
    PlainAccess State.reset .read .byte 0x800FFFFF#32 (.ram ram) ∧
    PlainAccess State.reset .read .half 0x800FFFFE#32 (.ram ram) ∧
    PlainAccess State.reset .read .word 0x80000000#32 (.ram ram) ∧
    PlainAccess { State.reset with priv := .u, readTlb := [⟨0x80000#20, 0#32, ram⟩] } .read .word 0x80000FFC#32
      (.ram ram) := by
  unfold PlainAccess; decide

theorem witness_RamStoresComplete : State.reset.mem.wf = true ∧
    PlainAccess State.reset .write .byte 0x800FFFFF#32 (.ram ram) ∧
    PlainAccess State.reset .write .half 0x80000000#32 (.ram ram) ∧
    PlainAccess State.reset .write .word 0x800FFFFC#32 (.ram ram) := by
  unfold PlainAccess; decide

theorem witness_LoadsAndStoresThroughTranslation :
    (∃ v u, memRead 0x00400010#32 .word paged = .ok v u) ∧
    (∃ u, memRead 0x00C00000#32 .word paged = .raise (.loadPageFault 0x00C00000#32) u) ∧
    (∃ u, memWrite 0x00400010#32 .word 5#32 paged = .ok () u) ∧
    ∃ u, memWrite 0x00400011#32 .half 5#32 paged = .raise (.storeAddrMisaligned 0x00400011#32) u :=
  ⟨⟨_, _, rfl⟩, ⟨_, rfl⟩, ⟨_, rfl⟩, ⟨_, rfl⟩⟩

theorem witness_AccessPaths : paged.StorageInv ∧
    (∃ g u, dataTarget 0x00400010#32 .word .read paged = .ok g u ∧ g.backing = .ram ram) ∧
    (∃ g u, dataTarget 0x00400010#32 .word .write paged = .ok g u ∧ g.backing = .ram ram) ∧
    (∃ g u, dataTarget 0x00000010#32 .word .write State.reset = .ok g u ∧ g.backing = .unmapped) ∧
    (∃ e u, dataTarget 0x00C00000#32 .word .read paged = .raise e u) ∧
    ∃ e u, dataTarget 0x00C00000#32 .word .write paged = .raise e u :=
  ⟨storage_paged, ⟨_, _, rfl, rfl⟩, ⟨_, _, rfl, rfl⟩, ⟨_, _, rfl, rfl⟩, ⟨_, _, rfl⟩, ⟨_, _, rfl⟩⟩

/-- The reset state with a device at 0x10000000 beside the RAM. -/
def withDevice : State :=
  { State.reset with plat := { Config.platform with ranges := [ram, { base := 0x10000000, size := 0x1000, kind := .mmio 0 }] } }

theorem witness_AccessPaths_device : withDevice.StorageInv ∧
    (∃ g u, dataTarget 0x10000000#32 .word .read withDevice = .ok g u ∧ g.backing = .mmio 0) ∧
    ∃ g u, dataTarget 0x10000FFF#32 .byte .write withDevice = .ok g u ∧ g.backing = .mmio 0 :=
  ⟨⟨by decide, by decide, by decide, by decide, by decide, by decide⟩, ⟨_, _, rfl, rfl⟩, ⟨_, _, rfl, rfl⟩⟩

theorem witness_MisalignedAccessesTrap :
    (st [(6, 0x80000001#32)]).x 6 + (0#12).signExtend 32 = 0x80000001#32 ∧ (0x80000001#32).toNat % 2 ≠ 0 ∧
    (0x80000002#32).toNat % 4 ≠ 0 := by decide

theorem witness_TranslationChangesOnlyAccessedDirty : paged.StorageInv ∧
    (∃ g u, translateCached 0x00400010#32 .write paged = .ok g u) ∧
    ∃ e u, translateCached 0x00C00000#32 .fetch paged = .raise e u := ⟨storage_paged, ⟨_, _, rfl⟩, ⟨_, _, rfl⟩⟩

theorem witness_LoadReservedStoreConditional :
    (∃ g u v w, dataTarget ((st [(6, 0x80002000#32)]).x 6) .word .read (st [(6, 0x80002000#32)]) = .ok g u ∧
      memRead ((st [(6, 0x80002000#32)]).x 6) .word (st [(6, 0x80002000#32)]) = .ok v w) ∧
    (∃ e u, memRead ((st [(6, 0x80002001#32)]).x 6) .word (st [(6, 0x80002001#32)]) = .raise e u) ∧
    (∃ g u w, dataTarget 0x80002000#32 .word .write { State.reset with reservation := some 0x80002000#32 } = .ok g u ∧
      some g.pa = some 0x80002000#32 ∧
      memWrite 0x80002000#32 .word 8#32 { State.reset with reservation := some 0x80002000#32 } = .ok () w) ∧
    (∃ g u, dataTarget 0x80002004#32 .word .write { State.reset with reservation := some 0x80002000#32 } = .ok g u ∧
      some g.pa ≠ some 0x80002000#32) ∧
    ∃ e u, dataTarget 0x80002002#32 .word .write State.reset = .raise e u :=
  ⟨⟨_, _, _, _, rfl, rfl⟩, ⟨_, _, rfl⟩, ⟨_, _, _, rfl, rfl, rfl⟩, ⟨_, _, rfl, by decide⟩, ⟨_, _, rfl⟩⟩

theorem witness_LoadReservedStoreConditional_plain :
    PlainAccess (st [(6, 0x80002000#32)]) .read .word ((st [(6, 0x80002000#32)]).x 6) (.ram ram) ∧
    PlainAccess State.reset .write .word 0x800FFFFC#32 (.ram ram) ∧ State.reset.mem.wf = true ∧
    State.reset.reservation ≠ some 0x800FFFFC#32 := by
  unfold PlainAccess; decide

theorem witness_AmosComplete : State.reset.StorageInv ∧ (st [(6, 0x80002000#32)]).x 6 = 0x80002000#32 ∧
    ∃ g u, dataTarget 0x80002000#32 .word .write State.reset = .ok g u ∧ g.backing = .ram ram :=
  ⟨storage_reset, by decide, _, _, rfl, rfl⟩

theorem witness_AmosOutsideRam :
    (∃ g u, dataTarget 0x00000010#32 .word .write State.reset = .ok g u ∧ g.backing = .unmapped) ∧
    (∃ g u, dataTarget 0x10000FFC#32 .word .write withDevice = .ok g u ∧ g.backing = .mmio 0) ∧
    ∃ e u, dataTarget 0x00C00000#32 .word .write paged = .raise e u :=
  ⟨⟨_, _, rfl, rfl⟩, ⟨_, _, rfl, rfl⟩, ⟨_, _, rfl⟩⟩

theorem witness_OnlyLrScChangeReservation : ∃ t, exec (.sw 7 6 0) State.reset = .next t := ⟨_, rfl⟩

def stateIdentityTranslation : State := { State.reset with mstatus := 0x20800#32 }

theorem witness_IdentityTranslation :
    (AccessKind.read ≠ .fetch ∧ stateIdentityTranslation.mstatus.getLsbD 17 = true ∧ stateIdentityTranslation.mstatus.extractLsb' 11 2 ≠ 2#2) ∧
    State.reset.mstatus.getLsbD 17 = false ∧ State.reset.effectivePriv .write = .m ∧
    State.reset.satp.getLsbD 31 = false ∧ PlainAccess State.reset .write .half 0x80000002#32 (.ram ram) ∧
    PlainAccess State.reset .read .word 0x4#32 .unmapped := by
  unfold PlainAccess; decide

theorem witness_LeafCheck : Priv.s ≠ .m ∧ Priv.u ≠ .m ∧
    (0x1F#32).getLsbD 4 = true ∧ paged.mstatus.getLsbD 18 = false := by decide

theorem witness_PageTableWalk : paged.mem.wf = true ∧ paged.effectivePriv .write ≠ .m ∧ paged.satp.getLsbD 31 = true ∧
    RamWord paged 0x80002008#32 0x2000000F#32 ∧
    (paged.satp.extractLsb' 0 20 ++ 0#12) + BitVec.ofNat 32 ((0x00800000#32).toNat / 2 ^ 22 * 4) = 0x80002008#32 ∧
    leafPermits paged.mstatus 0x2000000F#32 .write (paged.effectivePriv .write) = true ∧
    RamWord paged 0x80002004#32 0x20000C01#32 ∧ (0x20000C01#32).extractLsb' 0 4 = 1#4 ∧
    RamWord paged 0x80003000#32 0x2000100F#32 ∧
    ((0x20000C01#32).extractLsb' 10 20 ++ 0#12) + BitVec.ofNat 32 ((0x00400010#32).toNat / 2 ^ 12 % 2 ^ 10 * 4) =
      0x80003000#32 ∧
    leafPermits paged.mstatus 0x2000100F#32 .write (paged.effectivePriv .write) = true :=
  ⟨by decide, by decide, by decide, ⟨⟨ram, by decide⟩, by decide⟩, by decide, by decide,
    ⟨⟨ram, by decide⟩, by decide⟩, by decide, ⟨⟨ram, by decide⟩, by decide⟩, by decide, by decide⟩

def statePageFaults1 : State := { paged with priv := .u }

def statePageFaults2 : State := { paged with satp := 0x80000001#32 }

def statePageFaults3 : State := put paged 0x80002010#32 0x00000401#32

theorem witness_PageFaults : paged.effectivePriv .read ≠ .m ∧ paged.satp.getLsbD 31 = true ∧
    RamWord paged 0x8000200C#32 0#32 ∧ (0#32).getLsbD 0 = false ∧
    (statePageFaults1.effectivePriv .read ≠ .m ∧ RamWord statePageFaults1 0x80002008#32 0x2000000F#32 ∧
        leafPermits statePageFaults1.mstatus 0x2000000F#32 .read (statePageFaults1.effectivePriv .read) = false ∧
        RamWord statePageFaults1 0x80002004#32 0x20000C01#32 ∧ (0x20000C01#32).extractLsb' 0 4 = 1#4 ∧
        RamWord statePageFaults1 0x80003000#32 0x2000100F#32 ∧
        leafPermits statePageFaults1.mstatus 0x2000100F#32 .read (statePageFaults1.effectivePriv .read) = false) ∧
    (classify statePageFaults2.plat ((statePageFaults2.satp.extractLsb' 0 20 ++ 0#12) + 4#32) = .unmapped) ∧
    (RamWord statePageFaults3 0x80002010#32 0x00000401#32 ∧ classify statePageFaults3.plat ((0x00000401#32).extractLsb' 10 20 ++ 0#12) = .unmapped) :=
  ⟨by decide, by decide, ⟨⟨ram, by decide⟩, by decide⟩, by decide,
    ⟨by decide, ⟨⟨ram, by decide⟩, by decide⟩, by decide, ⟨⟨ram, by decide⟩, by decide⟩, by decide,
      ⟨⟨ram, by decide⟩, by decide⟩, by decide⟩,
    by decide, ⟨⟨ram, by decide⟩, by decide⟩, by decide⟩

theorem witness_CachedTranslationHits : paged.StorageInv ∧
    (∃ g t, translateCached 0x00400010#32 .read paged = .ok g t ∧ g.backing = .ram ram) ∧
    (0x00400FFF#32).toNat / 4096 = (0x00400010#32).toNat / 4096 ∧
    ∃ g t, translateCached 0x00000010#32 .read State.reset = .ok g t ∧ g.backing = .unmapped :=
  ⟨storage_paged, ⟨_, _, rfl, rfl⟩, by decide, ⟨_, _, rfl, rfl⟩⟩

theorem witness_MultiplyDivideLaws : (0xFFFFFFFF#32) ≠ 0#32 ∧ 0 ≤ (7#32).toInt ∧ (0x80000000#32).toInt ≤ 0 := by decide

theorem witness_LoweringInterrupts : State.reset.CsrInv ∧ ∃ t, exec (.csrrw 0 6 0x344#12) State.reset = .next t :=
  ⟨by unfold State.CsrInv; decide, _, rfl⟩

theorem witness_SnapshotRoundTrip : paged.Inv ∧ (getState paged).wf = true ∧
    Snapshot.wf { getState paged with satp := 0x7FC00000#32 } = false := ⟨inv_paged, by decide, by decide⟩

theorem witness_StepBudgetsCompose : (hostStep 1 { State.reset with halted := true }).1 < 1 ∧
    ({ State.reset with halted := true } : State).halted = true := by decide


end Sys2Proof.Tests
end

section
/-! PROOFS. What an instruction, and a step, can do, in one inversion lemma each (`exec_form`, `step_form`): the lemmas
from which every statement about all instructions is derived. -/

namespace Sys2Proof.Machine

open Sys2Proof

/-! ## Even addresses (10_state.md R24, 41_control_transfer.md R238) -/

theorem add_even {a b : Word} (ha : a.getLsbD 0 = false) (hb : b.getLsbD 0 = false) : (a + b).getLsbD 0 = false := by
  rw [BitVec.getLsbD_add (by decide), ha, hb]
  simp

/-- A scaled offset stays even when it is extended. -/
theorem offset_even {w : Nat} {off : BitVec w} (h : lowZero 1 off = true) : (off.signExtend 32).getLsbD 0 = false := by
  have hoff : off.getLsbD 0 = false := by
    simpa [lowZero, BitVec.getLsbD, Nat.testBit_zero] using h
  rw [BitVec.getLsbD_signExtend]
  split
  · simpa using hoff
  · obtain rfl : w = 0 := by omega
    simp [BitVec.msb_eq_getLsbD_last]

theorem clearBit0_even (w : Word) : (clearBit0 w).getLsbD 0 = false := by simp [clearBit0]

/-- The handler of an exception is at an even address (60_exceptions.md R453). -/
theorem takeException_even (e : Exc) (s : State) : (takeException e s).pc.getLsbD 0 = false := by
  unfold takeException trapEntry
  split <;> simp [State.saveM, State.saveS, trapVector]

/-! ## States after accesses -/

/-- `u` is `s` after some accesses: only storage differs, and soundly. -/
structure Accessed (s u : State) : Prop where
  only : OnlyStorage s u
  storage : s.StorageInv → u.StorageInv

theorem Accessed.refl (s : State) : Accessed s s := ⟨.refl s, id⟩

theorem Accessed.trans {s u w : State} (h : Accessed s u) (h' : Accessed u w) : Accessed s w :=
  ⟨h.only.trans h'.only, h'.storage ∘ h.storage⟩

theorem memRead_accessed (va : Word) (n : AccessSize) (s : State) : Accessed s (memRead va n s).state :=
  ⟨memRead_only va n s, memRead_storage⟩

theorem memWrite_accessed (va : Word) (n : AccessSize) (v : Word) (s : State) : Accessed s (memWrite va n v s).state :=
  ⟨memWrite_only va n v s, memWrite_storage⟩

theorem fetchInstr_accessed (s : State) : Accessed s (fetchInstr s).state := ⟨fetchInstr_only s, fetchInstr_storage⟩

theorem dataTarget_accessed (va : Word) (n : AccessSize) (k : AccessKind) (s : State) :
    Accessed s (dataTarget va n k s).state := ⟨dataTarget_only va n k s, dataTarget_storage⟩

theorem readTarget_accessed (g : Target) (n : AccessSize) (k : AccessKind) (va : Word) (s : State) :
    Accessed s (readTarget g n k va s).state := ⟨readTarget_only g n k va s, readTarget_storage⟩

/-- A write at a target is sound wherever the target came from a translation. -/
theorem writeTarget_accessed {va : Word} {n : AccessSize} {k : AccessKind} {s u w : State} {g : Target}
    (hg : dataTarget va n k s = .ok g u) (hw : Accessed u w) (v : Word) : Accessed s (writeTarget g n va v w).state := by
  have hu := dataTarget_accessed va n k s
  rw [hg] at hu
  refine ⟨(hu.trans hw).only.trans (writeTarget_only g n va v w), fun hs => ?_⟩
  refine writeTarget_storage ((hu.trans hw).storage hs) (fun r hr => ?_) (dataTarget_aligned hs hg)
  rw [hw.only.plat, ← dataTarget_target hs hg, hr]

/-! ## Sequences of accesses -/

@[simp] theorem Access.conclude_ok {α : Type} (v : α) (s : State) (f : α → State → Result) :
    (Access.ok v s).conclude f = f v s := rfl

@[simp] theorem Access.conclude_raise {α : Type} (e : Exc) (s : State) (f : α → State → Result) :
    (Access.raise e s : Access α).conclude f = .next (takeException e s) := rfl

theorem Access.bind_conclude {α β : Type} (a : Access α) (f : α → State → Access β) (g : β → State → Result) :
    (a.bind f).conclude g = a.conclude fun v s => (f v s).conclude g := by
  cases a <;> rfl

theorem execLrW_eq (aq rl : Bool) (rd rs1 : Reg) (s : State) : execLrW aq rl rd rs1 s =
    (dataTarget (s.x rs1) .word .read s).conclude fun g u =>
      (readTarget g .word .read (s.x rs1) u).conclude fun v w => retire rd v 4 { w with reservation := some g.pa } := by
  simp only [execLrW, Access.bind_conclude, Access.conclude_ok]

theorem execScW_eq (aq rl : Bool) (rd rs1 rs2 : Reg) (s : State) : execScW aq rl rd rs1 rs2 s =
    (dataTarget (s.x rs1) .word .write s).conclude fun g u =>
      if u.reservation = some g.pa then
        (writeTarget g .word (s.x rs1) (s.x rs2) u).conclude fun _ w => retire rd 0#32 4 { w with reservation := none }
      else retire rd 1#32 4 { u with reservation := none } := by
  simp only [execScW, amoAccess, Access.bind_conclude]
  congr
  funext g u
  split <;> simp only [Access.bind_conclude, Access.conclude_ok]

theorem amoOp_eq (f : Word → Word → Word) (rd rs1 rs2 : Reg) (s : State) : amoOp f rd rs1 rs2 s =
    (dataTarget (s.x rs1) .word .write s).conclude fun g u =>
      (readTarget g .word .write (s.x rs1) u).conclude fun old w =>
        (writeTarget g .word (s.x rs1) (f old (s.x rs2)) w).conclude fun _ w' => retire rd old 4 w' := by
  simp only [amoOp, amoAccess, Access.bind_conclude, readTarget]
  congr
  funext g u
  rcases readBacking g.backing g.pa .word u with ⟨_ | _, _⟩ <;>
    simp [Access.bind_conclude, accessFault]

/-! ## CSR accesses: the fields that none of them touches (46_zicsr.md R339) -/

/-- A CSR access moves `pc` past the instruction and keeps the level, the halt flag and the reservation. -/
theorem csrAccess_frame {c : Csr} {rd : Reg} {writes reads : Bool} {f : Word → Word} {s t : State}
    (ht : csrAccess c rd writes reads f s = .next t) :
    t.pc = s.pc + 4 ∧ t.priv = s.priv ∧ t.halted = s.halted ∧ t.reservation = s.reservation := by
  have read : (csrRead c s).2.pc = s.pc ∧ (csrRead c s).2.priv = s.priv ∧ (csrRead c s).2.halted = s.halted ∧
      (csrRead c s).2.reservation = s.reservation := by rw [csrRead_only]; exact ⟨rfl, rfl, rfl, rfl⟩
  have write : ∀ v u, (csrWrite c v u).pc = u.pc ∧ (csrWrite c v u).priv = u.priv ∧
      (csrWrite c v u).halted = u.halted ∧ (csrWrite c v u).reservation = u.reservation := fun v u =>
    have ⟨_, hpc, hpriv, hhalted, hres, _⟩ := csrWrite_only c v u
    ⟨hpc, hpriv, hhalted, hres⟩
  cases ht
  cases reads <;> cases writes <;> simp [read, write]

/-! ## The forms of a next state -/

/-- The next states of an instruction, by form: a trap; a completion that writes a register (`x[0]` where there is none)
and goes on at `pc'`; the same with a new reservation; a CSR access; the returns from a trap; WFI; SFENCE.VMA. -/
inductive ExecForm (i : Instr) (s : State) : State → Prop
  | traps (e : Exc) (u : State) (hu : Accessed s u) : ExecForm i s (takeException e u)
  | finishes (u : State) (rd : Reg) (v pc' : Word) (hu : Accessed s u)
      (hpc : i.wf = true → s.pc.getLsbD 0 = false → pc'.getLsbD 0 = false) : ExecForm i s ((u.setX rd v).jumpTo pc')
  | reserves (u : State) (q : Option Word) (rd : Reg) (v : Word) (hu : Accessed s u)
      (hi : (∃ aq rl rd rs1, i = .lrW aq rl rd rs1) ∨ ∃ aq rl rd rs1 rs2, i = .scW aq rl rd rs1 rs2 ∧ q = none) :
      ExecForm i s ((({ u with reservation := q } : State).setX rd v).advance 4)
  | csr (a : BitVec 12) (c : Csr) (rd : Reg) (writes reads : Bool) (f : Word → Word) (t : State)
      (hc : csrSelect a writes s = some c) (ht : csrAccess c rd writes reads f s = .next t) : ExecForm i s t
  | mret (hi : i = .mret) (hm : s.priv = .m) : ExecForm i s (trapReturnM s)
  | sret (hi : i = .sret) (hu : s.priv ≠ .u) : ExecForm i s (trapReturnS s)
  | wfi (b : Bool) (hu : s.priv ≠ .u) : ExecForm i s (({ s with halted := b } : State).advance 4)
  | sfence (hu : s.priv ≠ .u) : ExecForm i s (s.flushTlb.advance 4)

section Forms

variable {i : Instr} {s t u : State}

theorem ExecForm.of_trap {e : Exc} (h : (.next (takeException e s) : Result) = .next t) : ExecForm i s t := by
  cases h
  exact .traps e s (.refl s)

/-- An access that raises traps; otherwise the form is that of what follows. -/
theorem ExecForm.of_conclude {α : Type} {a : Access α} {f : α → State → Result} (ha : Accessed s a.state)
    (hf : ∀ v u, a = .ok v u → Accessed s u → f v u = .next t → ExecForm i s t) (h : a.conclude f = .next t) :
    ExecForm i s t := by
  cases a with
  | ok v u => exact hf v u rfl ha h
  | raise e u =>
    cases h
    exact .traps e u ha

theorem ExecForm.of_retire {rd : Reg} {v n : Word} (hu : Accessed s u) (hn : n.getLsbD 0 = false)
    (h : retire rd v n u = .next t) : ExecForm i s t := by
  cases h
  exact .finishes u rd v _ hu fun _ hpc => add_even (by simpa [hu.only.pc] using hpc) hn

theorem ExecForm.of_advance {n : Word} (hu : Accessed s u) (hn : n.getLsbD 0 = false)
    (h : (.next (u.advance n) : Result) = .next t) : ExecForm i s t :=
  .of_retire (rd := 0) (v := 0) hu hn h

theorem ExecForm.of_loadInto {n : AccessSize} {ext : Word → Word} {rd : Reg} {va ilen : Word}
    (hn : ilen.getLsbD 0 = false) (h : loadInto n ext rd va ilen s = .next t) : ExecForm i s t :=
  .of_conclude (memRead_accessed va n s) (fun _ _ _ hu => .of_retire hu hn) h

theorem ExecForm.of_storeFrom {n : AccessSize} {va v ilen : Word} (hn : ilen.getLsbD 0 = false)
    (h : storeFrom n va v ilen s = .next t) : ExecForm i s t :=
  .of_conclude (memWrite_accessed va n v s) (fun _ _ _ hu => .of_advance hu hn) h

theorem ExecForm.of_linkAndJump {rd : Reg} {target ilen : Word}
    (hpc : i.wf = true → s.pc.getLsbD 0 = false → target.getLsbD 0 = false)
    (h : linkAndJump rd target ilen s = .next t) : ExecForm i s t := by
  cases h
  exact .finishes s rd _ target (.refl s) hpc

theorem ExecForm.of_jumpTo {target : Word}
    (hpc : i.wf = true → s.pc.getLsbD 0 = false → target.getLsbD 0 = false)
    (h : (.next (s.jumpTo target) : Result) = .next t) : ExecForm i s t := by
  cases h
  exact .finishes s 0 0 target (.refl s) hpc

theorem ExecForm.of_branchIf {taken : Bool} {off ilen : Word} (hoff : i.wf = true → off.getLsbD 0 = false)
    (hn : ilen.getLsbD 0 = false) (h : branchIf taken off ilen s = .next t) : ExecForm i s t := by
  unfold branchIf at h
  split at h
  · exact .of_jumpTo (fun hw hpc => add_even hpc (hoff hw)) h
  · exact .of_advance (.refl s) hn h

theorem ExecForm.of_amoOp {f : Word → Word → Word} {rd rs1 rs2 : Reg} (h : amoOp f rd rs1 rs2 s = .next t) :
    ExecForm i s t := by
  rw [amoOp_eq] at h
  refine .of_conclude (dataTarget_accessed _ _ _ s) (fun g u hg hu h => ?_) h
  have hr := readTarget_accessed g .word .write (s.x rs1) u
  refine .of_conclude (hu.trans hr) (fun old w hw _ h => ?_) h
  rw [hw] at hr
  exact .of_conclude (writeTarget_accessed hg hr _) (fun _ _ _ hu => .of_retire hu (by decide)) h

theorem ExecForm.of_execLrW {aq rl : Bool} {rd rs1 : Reg} (h : execLrW aq rl rd rs1 s = .next t) :
    ExecForm (.lrW aq rl rd rs1) s t := by
  rw [execLrW_eq] at h
  refine .of_conclude (dataTarget_accessed _ _ _ s) (fun g u _ hu h => ?_) h
  refine .of_conclude (hu.trans (readTarget_accessed g _ _ _ u)) (fun v w _ hw h => ?_) h
  cases h
  exact .reserves w _ rd v hw (.inl ⟨aq, rl, rd, rs1, rfl⟩)

theorem ExecForm.of_execScW {aq rl : Bool} {rd rs1 rs2 : Reg} (h : execScW aq rl rd rs1 rs2 s = .next t) :
    ExecForm (.scW aq rl rd rs1 rs2) s t := by
  have done : ∀ {u v}, Accessed s u → retire rd v 4 { u with reservation := none } = .next t →
      ExecForm (.scW aq rl rd rs1 rs2) s t := fun {u v} hu h => by
    cases h
    exact .reserves u none rd v hu (.inr ⟨aq, rl, rd, rs1, rs2, rfl, rfl⟩)
  rw [execScW_eq] at h
  refine .of_conclude (dataTarget_accessed _ _ _ s) (fun g u hg hu h => ?_) h
  split at h
  · exact .of_conclude (writeTarget_accessed hg (.refl u) _) (fun _ _ _ => done) h
  · exact done hu h

theorem ExecForm.of_csrOp {j : Instr} {a : BitVec 12} {rd : Reg} {writes reads : Bool} {f : Word → Word}
    (h : csrOp j a rd writes reads f s = .next t) : ExecForm i s t := by
  unfold csrOp at h
  split at h
  · next c hc => exact .csr a c rd writes reads f t hc h
  · exact .of_trap h

end Forms

/-- What an instruction can do. -/
theorem exec_form {i : Instr} {s t : State} (h : exec i s = .next t) : ExecForm i s t := by
  cases i with
  | lui | auipc | addi | slti | sltiu | xori | ori | andi | slli | srli | srai
  | add | sub | sll | slt | sltu | xor | srl | sra | or | and
  | mul | mulh | mulhsu | mulhu | div | divu | rem | remu
  | cAddi4spn | cAddi | cLi | cAddi16sp | cLui | cSrli | cSrai | cAndi
  | cSub | cXor | cOr | cAnd | cSlli | cMv | cAdd => exact .of_retire (.refl s) (by decide) h
  | fence | fenceI | cNop => exact .of_advance (.refl s) (by decide) h
  | jal | cJal => exact .of_linkAndJump (fun hw hpc => add_even hpc (offset_even hw)) h
  | jalr | cJalr => exact .of_linkAndJump (fun _ _ => clearBit0_even _) h
  | cJ => exact .of_jumpTo (fun hw hpc => add_even hpc (offset_even hw)) h
  | cJr => exact .of_jumpTo (fun _ _ => clearBit0_even _) h
  | beq | bne | blt | bge | bltu | bgeu | cBeqz | cBnez =>
    exact .of_branchIf (fun hw => offset_even hw) (by decide) h
  | lb | lh | lw | lbu | lhu | cLw | cLwsp => exact .of_loadInto (by decide) h
  | sb | sh | sw | cSw | cSwsp => exact .of_storeFrom (by decide) h
  | lrW => exact .of_execLrW h
  | scW => exact .of_execScW h
  | amoswapW | amoaddW | amoxorW | amoandW | amoorW | amominW | amomaxW | amominuW | amomaxuW =>
    simp only [exec] at h
    exact .of_amoOp h
  | csrrw | csrrs | csrrc | csrrwi | csrrsi | csrrci => exact .of_csrOp h
  | ecall | ebreak | cEbreak => exact .of_trap h
  | mret =>
    simp only [exec, execMret] at h
    split at h
    · next hm => cases h; exact .mret rfl hm
    · exact .of_trap h
  | sret =>
    simp only [exec, execSret] at h
    split at h
    · exact .of_trap h
    · next hm => cases h; exact .sret rfl fun hu => hm (.inl hu)
  | wfi =>
    simp only [exec, execWfi] at h
    split at h
    · exact .of_trap h
    · next hm => cases h; exact .wfi _ fun hu => hm (.inl hu)
  | sfenceVma =>
    simp only [exec, execSfenceVma] at h
    split at h
    · exact .of_trap h
    · next hm => cases h; exact .sfence fun hu => hm (.inl hu)

/-- What a step can do: nothing, where the core is halted; an interrupt; an exception of the fetch or of the decoder; an
instruction, in the state that the fetch left (70_reset_and_hazards.md R482). -/
theorem step_form {s t : State} (h : step s = .next t) :
    t = s ∨ (∃ c, t = trapEntry c true 0 s) ∨ (∃ e u, Accessed s u ∧ t = takeException e u) ∨
      ∃ i u, Accessed s u ∧ exec i u = .next t := by
  unfold step at h
  split at h
  · cases h; exact .inl rfl
  · split at h
    · next c _ => cases h; exact .inr (.inl ⟨c, rfl⟩)
    · have hf := fetchInstr_accessed s
      unfold instrStep at h
      cases hraw : fetchInstr s with
      | raise e u =>
        rw [hraw] at h hf
        cases h
        exact .inr (.inr (.inl ⟨e, u, hf, rfl⟩))
      | ok raw u =>
        rw [hraw, Access.conclude_ok, runRaw] at h
        rw [hraw] at hf
        split at h
        · next i _ => exact .inr (.inr (.inr ⟨i, u, hf, h⟩))
        · cases h; exact .inr (.inr (.inl ⟨_, u, hf, rfl⟩))

end Sys2Proof.Machine
end

section
/-! PROOFS. The invariant of the machine (10_state.md R21, R80; 20_memory.md R105, R150): power-on meets it, every
instruction, step and host operation keeps it. -/

namespace Sys2Proof.Machine

open Sys2Proof

/-! ## How one operation keeps the invariant -/

theorem Accessed.inv {s u : State} (hu : Accessed s u) (h : s.Inv) : u.Inv :=
  ⟨hu.only.regs ▸ h.zeroReg, hu.only.csrInv h.csrs, hu.storage h.storage⟩

theorem inv_takeException {s : State} (h : s.Inv) (e : Exc) : (takeException e s).Inv := inv_trapEntry h _ _ _

/-- Completion counts and moves `pc`, neither of which the invariant speaks of. -/
theorem inv_jumpTo {s : State} (h : s.Inv) (target : Word) : (s.jumpTo target).Inv :=
  ⟨h.zeroReg, h.csrs, h.storage.congr rfl rfl rfl rfl rfl⟩

theorem inv_advance {s : State} (h : s.Inv) (n : Word) : (s.advance n).Inv := inv_jumpTo h (s.pc + n)

theorem inv_setX {s : State} (h : s.Inv) (r : Reg) (v : Word) : (s.setX r v).Inv :=
  ⟨by rw [setX_get_zero, h.zeroReg], h.csrs.congr (by simp) (by simp) (by simp) (by simp) (by simp) (by simp) (by simp),
    h.storage.congr (by simp) (by simp) (by simp) (by simp) (by simp)⟩

theorem inv_withReservation {s : State} (h : s.Inv) (q : Option Word) : ({ s with reservation := q } : State).Inv :=
  ⟨h.zeroReg, h.csrs, h.storage.congr rfl rfl rfl rfl rfl⟩

theorem inv_withHalted {s : State} (h : s.Inv) (b : Bool) : ({ s with halted := b } : State).Inv :=
  ⟨h.zeroReg, h.csrs, h.storage.congr rfl rfl rfl rfl rfl⟩

theorem inv_flushTlb {s : State} (h : s.Inv) : s.flushTlb.Inv :=
  ⟨h.zeroReg, h.csrs, h.storage.flushed rfl rfl rfl rfl rfl⟩

theorem inv_csrRead {s : State} (h : s.Inv) (c : Csr) : (csrRead c s).2.Inv := by
  rw [csrRead_only]
  exact ⟨h.zeroReg, h.csrs, h.storage.congr rfl rfl rfl rfl rfl⟩

theorem inv_csrWrite {s : State} (h : s.Inv) (c : Csr) (v : Word) : (csrWrite c v s).Inv := by
  obtain ⟨hregs, -, -, -, -, hmem, -, hplat⟩ := csrWrite_only c v s
  refine ⟨hregs ▸ h.zeroReg, csrInv_write h.csrs c v, ?_⟩
  rcases csrWrite_tlb c v s with ⟨hf, hr, hw⟩ | ⟨hf, hr, hw⟩
  · exact h.storage.congr hplat hmem hf hr hw
  · exact h.storage.flushed hplat hmem hf hr hw

theorem inv_csrAccess {s t : State} (h : s.Inv) {c : Csr} {rd : Reg} {writes reads : Bool} {f : Word → Word}
    (ht : csrAccess c rd writes reads f s = .next t) : t.Inv := by
  cases ht
  refine inv_advance ?_ 4
  cases reads <;> cases writes
  · exact h
  · exact inv_csrWrite h c _
  · exact inv_setX (inv_csrRead h c) rd _
  · exact inv_setX (inv_csrWrite (inv_csrRead h c) c _) rd _

/-! ## Instructions and steps -/

theorem exec_keeps_inv {i : Instr} {s t : State} (h : s.Inv) (ht : exec i s = .next t) : t.Inv := by
  cases exec_form ht with
  | traps e u hu => exact inv_takeException (hu.inv h) e
  | finishes u rd v pc' hu _ => exact inv_jumpTo (inv_setX (hu.inv h) rd v) pc'
  | reserves u q rd v hu _ => exact inv_advance (inv_setX (inv_withReservation (hu.inv h) q) rd v) 4
  | csr a c rd writes reads f t hc ht => exact inv_csrAccess h ht
  | mret => exact ⟨h.zeroReg, csrInv_trapReturnM h.csrs, h.storage.flushed rfl rfl rfl rfl rfl⟩
  | sret => exact ⟨h.zeroReg, csrInv_trapReturnS h.csrs, h.storage.flushed rfl rfl rfl rfl rfl⟩
  | wfi b => exact inv_advance (inv_withHalted h b) 4
  | sfence => exact inv_advance (inv_flushTlb h) 4

theorem step_keeps_inv {s t : State} (h : s.Inv) (ht : step s = .next t) : t.Inv := by
  rcases step_form ht with rfl | ⟨c, rfl⟩ | ⟨e, u, hu, rfl⟩ | ⟨i, u, hu, ht⟩
  · exact h
  · exact inv_trapEntry h c true 0
  · exact inv_takeException (hu.inv h) e
  · exact exec_keeps_inv (hu.inv h) ht

/-- Settles O11: `step_form` says what a step can do, and each of its operations keeps the invariant. -/
theorem stepKeepsInvariant : Obligations.StepKeepsInvariant := fun _ _ => step_keeps_inv

/-! ## Host operations (70_reset_and_hazards.md R480 to R489) -/

theorem hostStep_keeps_inv {n : Nat} {s t : State} (h : s.Inv) (ht : (hostStep n s).2 = .next t) : t.Inv := by
  induction n generalizing s with
  | zero => cases ht; exact h
  | succ n ih =>
    unfold hostStep at ht
    split at ht
    · cases ht; exact h
    · split at ht
      · next s' hs => exact ih (step_keeps_inv h hs) ht
      · cases ht
      · cases ht

theorem inv_hostReset {s : State} (h : s.Inv) : (hostReset s).Inv := by
  have hm : mstatusWf (setBit (setBit s.mstatus 3 false) 17 false) = true :=
    mstatusWf_setBit (mstatusWf_setBit ((csrInv_iff s).mp h.csrs).1 (by simp) _) (by simp) _
  exact ⟨h.zeroReg, h.csrs.with_mstatus hm rfl rfl rfl rfl rfl rfl, h.storage.flushed rfl rfl rfl rfl rfl⟩

theorem inv_loadSnapshot {s : State} (h : s.Inv) {p : Snapshot} (hp : p.wf = true) : (loadSnapshot p s).Inv := by
  simp only [Snapshot.wf, Bool.and_eq_true, beq_iff_eq] at hp
  exact ⟨hp.1, hp.2, h.storage.flushed rfl rfl rfl rfl rfl⟩

theorem inv_outsideWrite {s : State} (h : s.Inv) (pa : Word) (v : Byte) : (outsideWrite pa v s).Inv := by
  unfold outsideWrite
  split
  · next r hr =>
    have hs := h.storage
    exact ⟨h.zeroReg, h.csrs, hs.platform, Memory.wf_setByte hs.memory pa v, memoryInRam_setByte hs.inRam hr v,
      hs.fetchCache, hs.readCache, hs.writeCache⟩
  · exact h
  · exact h

/-- Settles O12, operation by operation; a call of `step` by induction on its budget. -/
theorem hostOperationsKeepInvariant : Obligations.HostOperationsKeepInvariant := by
  intro o s t h ht
  cases o with
  | stepBudget n => exact hostStep_keeps_inv h ht
  | reset => cases ht; exact inv_hostReset h
  | raise mask => cases ht; exact ⟨h.zeroReg, h.csrs, h.storage.congr rfl rfl rfl rfl rfl⟩
  | lower mask => cases ht; exact ⟨h.zeroReg, h.csrs, h.storage.congr rfl rfl rfl rfl rfl⟩
  | restore p =>
    simp only [hostApply, setState] at ht
    split at ht
    · next hp => cases ht; exact inv_loadSnapshot h hp
    · cases ht
  | writeByte pa v => cases ht; exact inv_outsideWrite h pa v

/-! ## Power-on (10_state.md R90; 70_reset_and_hazards.md R488, R490) -/

theorem inv_powerOn {p : Platform} (hp : platformWf p = true) : (State.powerOn p).Inv :=
  ⟨(by decide : (Vector.replicate 32 0#32).get 0 = 0#32), (by decide : csrWf 0#32 0#32 0#32 0#32 0#32 0#32 0#32 = true), hp, rfl, rfl, rfl, rfl, rfl⟩

/-- `reset()` writes only values that power-on left. -/
theorem hostReset_powerOn (p : Platform) : hostReset (State.powerOn p) = State.powerOn p := by
  have hm : setBit (setBit 0#32 3 false) 17 false = 0#32 := by decide
  simp only [hostReset, State.powerOn, hm]

/-- Settles O10: the reset state is `powerOn` over one good platform. -/
theorem resetMeetsInvariant : Obligations.ResetMeetsInvariant := by
  refine ⟨inv_powerOn (by decide), fun p => ⟨fun hp => ⟨inv_powerOn hp, fun hr => ?_⟩, ?_, fun hbad => ?_⟩⟩
  · simp [powerOnChecked, hp, (bootInRam_iff p).mpr hr]
  · simp only [hostApply, hostReset_powerOn]
  · have hno : (platformWf p && bootInRam p) = false := by
      rcases hbad with hp | hr
      · simp [hp]
      · rw [Bool.and_eq_false_iff, Bool.eq_false_iff, Bool.eq_false_iff]
        exact .inr fun hb => ((bootInRam_iff p).mp hb).elim hr
    simp [powerOnChecked, hno]

/-! ## `pc` and the reservation -/

/-- Settles O13: a trap goes to a handler's even address, a completion to an even target; the two returns take their
`pc` from a register. -/
theorem pcStaysEven : Obligations.PcStaysEven := by
  intro i s t hw hpc ht
  cases exec_form ht with
  | traps e u _ => exact .inl (takeException_even e u)
  | finishes u rd v pc' _ heven => exact .inl (heven hw hpc)
  | reserves u q rd v hu _ => exact .inl (add_even (by simpa [hu.only.pc] using hpc) (by decide))
  | csr a c rd writes reads f t _ ht =>
    obtain ⟨hnext, -⟩ := csrAccess_frame ht
    exact .inl (hnext ▸ add_even hpc (by decide))
  | mret hi => exact .inr (.inl ⟨hi, rfl⟩)
  | sret hi => exact .inr (.inr ⟨hi, rfl⟩)
  | wfi => exact .inl (add_even hpc (by decide))
  | sfence => exact .inl (add_even hpc (by decide))

/-- Settles O44: of the forms of a next state only the one of LR.W and SC.W has another reservation. -/
theorem onlyLrScChangeReservation : Obligations.OnlyLrScChangeReservation := by
  refine ⟨fun i s t ht => ?_, fun s code intr value => trapEntry_reservation code intr value s⟩
  cases exec_form ht with
  | traps e u hu => exact .inl (by simp [takeException, hu.only.reservation])
  | finishes u rd v pc' hu _ => exact .inl (by simp [hu.only.reservation])
  | reserves u q rd v _ hi =>
    rcases hi with hlr | ⟨aq, rl, rd', rs1, rs2, rfl, rfl⟩
    · exact .inr (.inl hlr)
    · exact .inr (.inr ⟨aq, rl, rd', rs1, rs2, rfl, by simp⟩)
  | csr a c rd writes reads f t _ ht =>
    obtain ⟨-, -, -, hres⟩ := csrAccess_frame ht
    exact .inl hres
  | mret | sret | wfi | sfence => exact .inl rfl

end Sys2Proof.Machine
end

section
/-! PROOFS. Which CSR an access reaches: the address map, the refused accesses, and what is within reach below Machine
level (10_state.md R40, R43, R63, R74, R79; 60_exceptions.md R460). -/

namespace Sys2Proof.Machine

open Sys2Proof

/-! ## The address map (10_state.md R43, R75, R78, R79) -/

/-- The addresses that name one register each. -/
def namedCsrs : List (Nat × Csr) :=
  [(0x100, .sstatus), (0x104, .sie), (0x105, .stvec), (0x106, .scounteren), (0x140, .sscratch), (0x141, .sepc),
    (0x142, .scause), (0x143, .stval), (0x144, .sip), (0x180, .satp), (0x300, .mstatus), (0x301, .misa),
    (0x302, .medeleg), (0x303, .mideleg), (0x304, .mie), (0x305, .mtvec), (0x306, .mcounteren), (0x340, .mscratch),
    (0x341, .mepc), (0x342, .mcause), (0x343, .mtval), (0x344, .mip), (0xB00, .mcycle), (0xB02, .minstret),
    (0xB80, .mcycleh), (0xB82, .minstreth), (0xC00, .cycle), (0xC01, .time), (0xC02, .instret), (0xC80, .cycleh),
    (0xC81, .timeh), (0xC82, .instreth), (0xF11, .mvendorid), (0xF12, .marchid), (0xF13, .mimpid), (0xF14, .mhartid)]

/-- The ranges of performance registers, with their first and last address. -/
def csrRanges : List (Nat × Nat × Csr) :=
  [(0x323, 0x33F, .mhpmevent), (0xB03, 0xB1F, .mhpmcounter), (0xB83, 0xB9F, .mhpmcounterh),
    (0xC03, 0xC1F, .hpmcounter), (0xC83, 0xC9F, .hpmcounterh)]

theorem csrOf_named : ∀ p ∈ namedCsrs, csrOf (BitVec.ofNat 12 p.1) = some p.2 := by decide

theorem csrOf_unnamed {a : BitVec 12} (h : ∀ p ∈ namedCsrs, p.1 ≠ a.toNat) : csrOf a = csrOfRange a := by
  simp only [namedCsrs, List.forall_mem_cons] at h
  unfold csrOf
  split
  case h_37 => rfl
  all_goals simp at h

theorem csrOfRange_eq_some_iff (a : BitVec 12) (c : Csr) :
    csrOfRange a = some c ↔ ∃ p ∈ csrRanges, p.1 ≤ a.toNat ∧ a.toNat ≤ p.2.1 ∧ c = p.2.2 := by
  simp only [csrOfRange, addrIn, csrRanges, Bool.and_eq_true, decide_eq_true_eq, List.exists_mem_cons_iff,
    List.not_mem_nil, false_and, exists_false, or_false]
  split_ifs <;> simp only [Option.some.injEq, false_iff] <;> grind

/-- The address map: one of the two lists names the register. -/
theorem csrOf_eq_some_iff (a : BitVec 12) (c : Csr) : csrOf a = some c ↔
    (a.toNat, c) ∈ namedCsrs ∨ ∃ p ∈ csrRanges, p.1 ≤ a.toNat ∧ a.toNat ≤ p.2.1 ∧ c = p.2.2 := by
  have apart : ∀ p ∈ namedCsrs, ∀ q ∈ csrRanges, ¬ (q.1 ≤ p.1 ∧ p.1 ≤ q.2.1) := by decide
  have named : ∀ {c}, (a.toNat, c) ∈ namedCsrs → csrOf a = some c := fun hc => by
    simpa using csrOf_named _ hc
  by_cases hn : ∃ c', (a.toNat, c') ∈ namedCsrs
  · obtain ⟨c', hc'⟩ := hn
    rw [named hc', Option.some.injEq]
    constructor
    · rintro rfl; exact .inl hc'
    · rintro (hc | ⟨q, hq, hlo, hhi, _⟩)
      · simpa using (named hc').symm.trans (named hc)
      · exact absurd ⟨hlo, hhi⟩ (apart _ hc' q hq)
  · have hne : ∀ p ∈ namedCsrs, p.1 ≠ a.toNat := fun p hp h => hn ⟨p.2, h ▸ hp⟩
    rw [csrOf_unnamed hne, csrOfRange_eq_some_iff]
    exact ⟨.inr, fun h => h.resolve_left fun hc => hn ⟨c, hc⟩⟩

/-- Settles O28, by `csrOf_eq_some_iff`, whose two lists are those of the statement. -/
theorem csrAddressMap : Obligations.CsrAddressMap := csrOf_eq_some_iff

/-! ## Refused accesses (10_state.md R40, R63, R74; 46_zicsr.md R330) -/

theorem csrSelect_eq_some_iff {a : BitVec 12} {w : Bool} {s : State} {c : Csr} : csrSelect a w s = some c ↔
    csrCheck a w s.priv = true ∧ csrOf a = some c ∧ csrCondition a c s = true := by
  unfold csrSelect
  constructor
  · intro h
    split at h
    · next hcheck =>
      split at h
      · next c' hof =>
        split at h
        · next hcond => cases h; exact ⟨hcheck, hof, hcond⟩
        · cases h
      · cases h
    · cases h
  · rintro ⟨hcheck, hof, hcond⟩
    simp only [hcheck, hof, hcond, if_true]

theorem isCounterAddr_iff (a : BitVec 12) : isCounterAddr a = true ↔
    (0xC00 ≤ a.toNat ∧ a.toNat ≤ 0xC1F) ∨ (0xC80 ≤ a.toNat ∧ a.toNat ≤ 0xC9F) := by
  simp [isCounterAddr, addrIn]

/-- Below Machine a counter is read only where its enable bits are set. -/
theorem counterEnabled_iff (a : BitVec 12) (s : State) : counterEnabled a s = true ↔ s.priv = .m ∨
    (s.mcounteren.getLsbD (a.toNat % 32) = true ∧ (s.priv = .u → s.scounteren.getLsbD (a.toNat % 32) = true)) := by
  have hbit : (a.extractLsb' 0 5).toNat = a.toNat % 32 := by simp
  unfold counterEnabled
  cases s.priv <;> simp [hbit]

theorem csrSelect_refused {a : BitVec 12} {w : Bool} {s : State} (h : CsrRefused a w s) : csrSelect a w s = none := by
  rw [Option.eq_none_iff_forall_ne_some]
  intro c hc
  obtain ⟨hcheck, hof, hcond⟩ := csrSelect_eq_some_iff.mp hc
  simp only [csrCheck, Bool.and_eq_true, Bool.not_eq_true', Bool.and_eq_false_iff, beq_eq_false_iff_ne,
    decide_eq_true_eq] at hcheck
  obtain ⟨⟨-, hreadOnly⟩, hlevel⟩ := hcheck
  simp only [csrCondition, Bool.and_eq_true, Bool.or_eq_true, Bool.not_eq_true'] at hcond
  obtain ⟨htvm, hcounter⟩ := hcond
  rcases h with ⟨rfl, hro⟩ | hlow | hnone | ⟨rfl, hs, hbit⟩ | ⟨haddr, hm, hdisabled⟩
  · exact hreadOnly.elim (by simp) (absurd hro)
  · omega
  · simp [hnone] at hof
  · obtain rfl : c = .satp := by simpa [csrOf] using hof.symm
    have hset : mstatusTvm s.mstatus = true := hbit
    simp [hs, hset] at htvm
  · rw [(isCounterAddr_iff a).mpr haddr] at hcounter
    exact hdisabled (((counterEnabled_iff a s).mp (hcounter.resolve_left (by simp))).resolve_left hm)

theorem csrOp_refused {i : Instr} {a : BitVec 12} {rd : Reg} {writes reads : Bool} {f : Word → Word} {s : State}
    (h : CsrRefused a writes s) : csrOp i a rd writes reads f s = illegal i s := by
  unfold csrOp
  rw [csrSelect_refused h]

/-- Settles O26: a refused access reaches no register, for each of the six instructions. -/
theorem csrAccessRefused : Obligations.CsrAccessRefused := by
  intro s rd rs1 uimm a
  have reg : decide (rs1 ≠ 0) = (rs1 != 0) := by by_cases h : rs1 = 0 <;> simp [h]
  have imm : decide (uimm ≠ 0#5) = (uimm != 0) := by by_cases h : uimm = 0#5 <;> simp [h]
  rw [reg, imm]
  exact ⟨fun h => ⟨csrOp_refused h, csrOp_refused h⟩, fun h => ⟨csrOp_refused h, csrOp_refused h⟩,
    fun h => ⟨csrOp_refused h, csrOp_refused h⟩⟩

/-! ## Within reach below Machine -/

/-- The registers that Supervisor level may write. -/
def supervisorCsrs : List Csr :=
  [.sstatus, .sie, .stvec, .scounteren, .sscratch, .sepc, .scause, .stval, .sip, .satp]

theorem level_below_m {p : Priv} (hm : p ≠ .m) : (p = .u ∧ p.level = 0) ∨ (p = .s ∧ p.level = 1) := by
  cases p with
  | u => exact .inl ⟨rfl, rfl⟩
  | s => exact .inr ⟨rfl, rfl⟩
  | m => exact absurd rfl hm

/-- Below Machine only Supervisor level writes a CSR, and only one of its own. -/
theorem csrSelect_write_below_m {a : BitVec 12} {s : State} {c : Csr} (hm : s.priv ≠ .m)
    (h : csrSelect a true s = some c) : s.priv = .s ∧ c ∈ supervisorCsrs := by
  obtain ⟨hcheck, hof, -⟩ := csrSelect_eq_some_iff.mp h
  simp only [csrCheck, Bool.and_eq_true, Bool.not_eq_true', Bool.true_and, beq_eq_false_iff_ne, decide_eq_true_eq,
    ne_eq, ← BitVec.toNat_inj, BitVec.extractLsb'_toNat, Nat.shiftRight_eq_div_pow] at hcheck
  obtain ⟨⟨-, hreadOnly⟩, hlevel⟩ := hcheck
  change a.toNat / 2 ^ 10 % 2 ^ 2 ≠ 3 at hreadOnly
  have named : ∀ p ∈ namedCsrs, p.1 / 2 ^ 10 % 2 ^ 2 ≠ 3 → p.1 / 2 ^ 8 % 2 ^ 2 ≤ 1 →
      p.1 / 2 ^ 8 % 2 ^ 2 = 1 ∧ p.2 ∈ supervisorCsrs := by decide
  have ranged : ∀ p ∈ csrRanges, p.1 / 2 ^ 8 = p.2.1 / 2 ^ 8 ∧
      (p.1 / 2 ^ 8 / 4 % 2 ^ 2 = 3 ∨ p.1 / 2 ^ 8 % 2 ^ 2 = 3) := by decide
  rcases (csrOf_eq_some_iff a c).mp hof with hc | ⟨p, hp, hlo, hhi, -⟩
  · rcases level_below_m hm with ⟨-, hu⟩ | ⟨hs, hs1⟩
    · have := named _ hc hreadOnly (by omega)
      omega
    · exact ⟨hs, (named _ hc hreadOnly (by omega)).2⟩
  · have := ranged p hp
    have := level_below_m hm
    omega

/-! ## Isolation (60_exceptions.md R425, R460) -/

/-- Two words agree outside a mask when their bits do. -/
theorem and_not_eq_iff (m a b : Word) :
    a &&& ~~~m = b &&& ~~~m ↔ ∀ i, i < 32 → m.getLsbD i = false → a.getLsbD i = b.getLsbD i := by
  constructor
  · intro h i hi hm
    have hbit := congrArg (·.getLsbD i) h
    simpa only [BitVec.getLsbD_and, BitVec.getLsbD_not, hi, hm, decide_true, Bool.not_false, Bool.and_true] using hbit
  · intro h
    refine word_ext fun i hi => ?_
    rw [BitVec.getLsbD_and, BitVec.getLsbD_and, BitVec.getLsbD_not]
    cases hm : m.getLsbD i with
    | false => rw [h i hi hm]
    | true => simp

/-- What an instruction that completes below Machine may change. -/
def Confined (s t : State) : Prop :=
  t.priv.level ≤ s.priv.level ∧ SameMachineCsrs s t ∧ t.mcycle = s.mcycle + 1 ∧
    t.mstatus &&& ~~~0x800DE133#32 = s.mstatus &&& ~~~0x800DE133#32 ∧
    t.mie &&& ~~~s.mideleg = s.mie &&& ~~~s.mideleg ∧ t.mip &&& ~~~s.mideleg = s.mip &&& ~~~s.mideleg ∧
    (s.priv = .u → t.priv = .u ∧ SameSupervisorCsrs s t ∧ t.mstatus = s.mstatus ∧ t.halted = s.halted)

theorem Computes.confined {s t : State} (h : Computes s t) : Confined s t := by
  obtain ⟨u, hu, ht⟩ := h
  unfold OnlyStorage at hu
  rw [ht, hu]
  simp [Confined, SameMachineCsrs, SameSupervisorCsrs]

theorem sstatusMask_le (i : Nat) (hi : i < 32) (h : (0x800DE133#32).getLsbD i = false) :
    sstatusWriteMask.getLsbD i = false ∧ i ≠ 31 := by
  revert h; revert i; decide

/-- A write of `sstatus` keeps the fields outside the view (10_state.md R47). -/
theorem sstatusAfterWrite_outside (w v : Word) :
    sstatusAfterWrite w v &&& ~~~0x800DE133#32 = w &&& ~~~0x800DE133#32 := by
  rw [and_not_eq_iff]
  intro i hi hm
  obtain ⟨hmask, h31⟩ := sstatusMask_le i hi hm
  unfold sstatusAfterWrite recomputeSd
  rw [getLsbD_setBit_ne _ _ h31, getLsbD_maskedWrite, hmask]
  rfl

/-- A masked write keeps the bits outside its mask. -/
theorem maskedWrite_outside (m w v : Word) : maskedWrite m w v &&& ~~~m = w &&& ~~~m := by
  rw [and_not_eq_iff]
  intro i _ hm
  rw [getLsbD_maskedWrite, hm]
  rfl

/-- Writes of the Supervisor registers reach no Machine register and no interrupt that is not delegated. -/
theorem csrWrite_supervisor {c : Csr} (hc : c ∈ supervisorCsrs) (v : Word) (s : State) :
    SameMachineCsrs s (csrWrite c v s) ∧ (csrWrite c v s).mcycle = s.mcycle ∧
      (csrWrite c v s).mstatus &&& ~~~0x800DE133#32 = s.mstatus &&& ~~~0x800DE133#32 ∧
      (csrWrite c v s).mie &&& ~~~s.mideleg = s.mie &&& ~~~s.mideleg ∧
      (csrWrite c v s).mip &&& ~~~s.mideleg = s.mip &&& ~~~s.mideleg := by
  simp only [supervisorCsrs, List.mem_cons, List.not_mem_nil, or_false] at hc
  rcases hc with rfl | rfl | rfl | rfl | rfl | rfl | rfl | rfl | rfl | rfl
  case inl => simpa [SameMachineCsrs, csrWrite, writeSstatus] using sstatusAfterWrite_outside s.mstatus v
  all_goals simp [SameMachineCsrs, csrWrite, writeSatp, maskedWrite_outside]

theorem CsrEffect.confined {s t : State} {a : BitVec 12} {writes : Bool} {c : Csr} (hm : s.priv ≠ .m)
    (hc : csrSelect a writes s = some c) (h : CsrEffect s t c writes) : Confined s t := by
  obtain ⟨u, v, hu, w, hw, ht⟩ := h
  have hus : u = { s with bus := u.bus } := by
    rcases hu with rfl | rfl
    · rfl
    · exact csrRead_only c s
  cases writes with
  | false =>
    simp only [Bool.false_eq_true, if_false] at hw
    rw [ht, hw, hus]
    simp [Confined, SameMachineCsrs, SameSupervisorCsrs]
  | true =>
    obtain ⟨hs, hsup⟩ := csrSelect_write_below_m hm hc
    simp only [if_true] at hw
    have hframe := csrWrite_supervisor hsup v u
    obtain ⟨-, -, hpriv, -⟩ := csrWrite_only c v u
    rw [← hw, hus] at hframe hpriv
    obtain ⟨hmach, hcyc, hmstatus, hmie, hmip⟩ := hframe
    rw [ht]
    exact ⟨by simp [hpriv], hmach, by simp [hcyc], hmstatus, hmie, hmip, by simp [hs]⟩

theorem mstatusAfterSret_outside (w : Word) :
    mstatusAfterSret w &&& ~~~0x800DE133#32 = w &&& ~~~0x800DE133#32 := by
  rw [and_not_eq_iff]
  intro i hi hm
  have hview : i ≠ 0 ∧ i ≠ 1 ∧ i ≠ 5 ∧ i ≠ 8 := by revert hm; revert i; decide
  have hlevel : (sretTarget w).level ≤ 1 := by unfold sretTarget Priv.ofSpp; split <;> simp [Priv.level]
  unfold mstatusAfterSret
  rw [getLsbD_setBit_ne _ _ (by omega), getLsbD_setBit_ne _ _ (by omega), getLsbD_setBit_ne _ _ (by omega)]

theorem SystemEffect.confined {i : Instr} {s t : State} (hm : s.priv ≠ .m) (h : SystemEffect i s t) : Confined s t := by
  have hs : s.priv ≠ .u → s.priv = .s := fun hu =>
    ((level_below_m hm).resolve_left fun h => hu h.1).1
  rcases h with ⟨-, hmm, -⟩ | ⟨-, hu, rfl⟩ | ⟨-, hu, ht⟩ | ⟨-, -, -, hu, rfl⟩
  · exact absurd hmm hm
  · have hlevel : (sretTarget s.mstatus).level ≤ s.priv.level := by
      rw [hs hu]; unfold sretTarget Priv.ofSpp; split <;> simp [Priv.level]
    exact ⟨hlevel, ⟨rfl, rfl, rfl, rfl, rfl, rfl, rfl, rfl⟩, rfl, mstatusAfterSret_outside _, rfl, rfl, by simp [hs hu]⟩
  · rw [ht]
    simp [Confined, SameMachineCsrs, hs hu]
  · simp [Confined, SameMachineCsrs, hs hu]

/-- Settles O25, over the forms of a next state that `exec_cases` gives. -/
theorem lowerLevelsCannotWriteMachineState : Obligations.LowerLevelsCannotWriteMachineState := by
  intro i s t hm ht
  rcases exec_cases ht with htrap | hcomp | ⟨a, writes, c, hc, heffect⟩ | hsys
  · exact .inl htrap
  · exact .inr hcomp.confined
  · exact .inr (heffect.confined hm hc)
  · exact .inr (hsys.confined hm)

end Sys2Proof.Machine
end

section
/-! PROOFS. Reads and writes of the CSRs, bit by bit (10_state.md R44 to R78). -/

namespace Sys2Proof.Machine

open Sys2Proof

/-! ## The translation caches after a conditional flush -/

/-- A flush on the condition `p` empties the caches where `p` holds and leaves them alone elsewhere. -/
theorem flushIf_caches (s : State) {b : Bool} {p : Prop} (hb : b = true ↔ p) :
    (p → CachesEmpty (s.flushIf b)) ∧ (¬ p → (s.flushIf b).fetchTlb = s.fetchTlb ∧
      (s.flushIf b).readTlb = s.readTlb ∧ (s.flushIf b).writeTlb = s.writeTlb) := by
  cases b with
  | false => exact ⟨fun hp => absurd (hb.mpr hp) (by simp), fun _ => ⟨rfl, rfl, rfl⟩⟩
  | true => exact ⟨fun _ => ⟨rfl, rfl, rfl⟩, fun hp => absurd (hb.mp rfl) hp⟩

/-- A conditional flush changes the caches alone. -/
theorem flushIf_eq (s : State) (b : Bool) : s.flushIf b = { s with
    fetchTlb := (s.flushIf b).fetchTlb, readTlb := (s.flushIf b).readTlb, writeTlb := (s.flushIf b).writeTlb } := by
  cases b <;> rfl

/-- One bit of a masked word. -/
theorem getLsbD_and_mask {m : Word} {b : Nat} {p : Prop} [Decidable p] (hm : m.getLsbD b = decide p) (w : Word) :
    (w &&& m).getLsbD b = if p then w.getLsbD b else false := by
  rw [BitVec.getLsbD_and, hm]
  by_cases hp : p <;> simp [hp]

/-! ## Fields of `mstatus` -/

theorem mstatusMpp_eq_iff (a b : Word) :
    mstatusMpp a = mstatusMpp b ↔ a.getLsbD 11 = b.getLsbD 11 ∧ a.getLsbD 12 = b.getLsbD 12 := by
  obtain ⟨ha0, ha1⟩ := mpp_bits a
  obtain ⟨hb0, hb1⟩ := mpp_bits b
  rw [← ha0, ← ha1, ← hb0, ← hb1]
  generalize mstatusMpp a = x, mstatusMpp b = y
  revert x y
  decide

/-- A field that the mask covers takes the new value's. -/
theorem extractLsb'_maskedWrite {m : Word} {lo n : Nat} (hm : ∀ i < n, m.getLsbD (lo + i) = true) (w v : Word) :
    (maskedWrite m w v).extractLsb' lo n = v.extractLsb' lo n := by
  refine BitVec.eq_of_getLsbD_eq fun i hi => ?_
  rw [BitVec.getLsbD_extractLsb', BitVec.getLsbD_extractLsb', getLsbD_maskedWrite, hm i hi]
  rfl

/-- A field away from `MPP` is not touched by its legalisation. -/
theorem extractLsb'_legalizeMpp {lo n : Nat} (h : lo + n ≤ 11 ∨ 13 ≤ lo) (old new : Word) :
    (legalizeMpp old new).extractLsb' lo n = new.extractLsb' lo n := by
  refine BitVec.eq_of_getLsbD_eq fun i hi => ?_
  unfold legalizeMpp
  split
  · rw [BitVec.getLsbD_extractLsb', BitVec.getLsbD_extractLsb', getLsbD_setMpp_ne _ _ (by omega) (by omega)]
  · rfl

theorem getLsbD_legalizeMpp (old new : Word) (b : Nat) : (legalizeMpp old new).getLsbD b =
    if (b = 11 ∨ b = 12) ∧ mstatusMpp new = 2#2 then old.getLsbD b else new.getLsbD b := by
  unfold legalizeMpp
  by_cases hmpp : mstatusMpp new = 2#2
  · rw [if_pos hmpp, getLsbD_setMpp, (mpp_bits old).1, (mpp_bits old).2]
    by_cases h12 : b = 12
    · simp [h12, hmpp]
    · by_cases h11 : b = 11 <;> simp [h11, h12, hmpp]
  · simp [hmpp]

theorem recomputeSd_bit31 (w : Word) :
    (recomputeSd w).getLsbD 31 = true ↔ mstatusFs w = 3#2 ∨ mstatusXs w = 3#2 := by
  unfold recomputeSd
  rw [getLsbD_setBit_eq _ _ (by decide)]
  simp

theorem getLsbD_recomputeSd (w : Word) {b : Nat} (hb : b < 31) : (recomputeSd w).getLsbD b = w.getLsbD b :=
  getLsbD_setBit_ne _ _ (by omega)

/-! ## `mstatus` (10_state.md R44 to R46) -/

theorem mstatusMpp_maskedWrite (w v : Word) : mstatusMpp (maskedWrite mstatusWriteMask w v) = mstatusMpp v :=
  extractLsb'_maskedWrite (by decide) w v

theorem mstatusWriteMask_mem (b : Nat) (hb : b < 31) : mstatusWriteMask.getLsbD b =
    decide (b = 11 ∨ b = 12 ∨ b ∈ [0, 1, 3, 4, 5, 7, 8, 13, 14, 15, 16, 17, 18, 19, 20, 21, 22]) := by
  revert b; decide

theorem getLsbD_mstatusAfterWrite (w v : Word) {b : Nat} (hb : b < 31) : (mstatusAfterWrite w v).getLsbD b =
    if b = 11 ∨ b = 12 then (if mstatusMpp v = 2#2 then w.getLsbD b else v.getLsbD b)
    else if b ∈ [0, 1, 3, 4, 5, 7, 8, 13, 14, 15, 16, 17, 18, 19, 20, 21, 22] then v.getLsbD b else w.getLsbD b := by
  unfold mstatusAfterWrite
  rw [getLsbD_recomputeSd _ hb, getLsbD_legalizeMpp, mstatusMpp_maskedWrite, getLsbD_maskedWrite,
    mstatusWriteMask_mem b hb]
  by_cases hmpp : b = 11 ∨ b = 12
  · rcases hmpp with rfl | rfl <;> simp
  · rw [not_or] at hmpp
    simp only [hmpp, false_or, false_and, if_false, decide_eq_true_eq]

theorem mstatusAfterWrite_sd (w v : Word) :
    (mstatusAfterWrite w v).getLsbD 31 = true ↔ mstatusFs v = 3#2 ∨ mstatusXs v = 3#2 := by
  unfold mstatusAfterWrite
  rw [recomputeSd_bit31]
  unfold mstatusFs mstatusXs
  rw [extractLsb'_legalizeMpp (.inr (by decide)), extractLsb'_legalizeMpp (.inr (by decide)),
    extractLsb'_maskedWrite (by decide), extractLsb'_maskedWrite (by decide)]

theorem mstatusWriteFlushes_iff (old new : Word) : mstatusWriteFlushes old new = true ↔
    new.getLsbD 17 ≠ old.getLsbD 17 ∨ new.getLsbD 18 ≠ old.getLsbD 18 ∨ new.getLsbD 19 ≠ old.getLsbD 19 ∨
      (old.getLsbD 17 = true ∧ (new.getLsbD 11 ≠ old.getLsbD 11 ∨ new.getLsbD 12 ≠ old.getLsbD 12)) := by
  have hmpp : mstatusMpp old ≠ mstatusMpp new ↔
      new.getLsbD 11 ≠ old.getLsbD 11 ∨ new.getLsbD 12 ≠ old.getLsbD 12 := by
    rw [ne_eq, mstatusMpp_eq_iff, not_and_or, eq_comm, @eq_comm _ (old.getLsbD 12)]
  simp only [mstatusWriteFlushes, Bool.or_eq_true, Bool.and_eq_true, bne_iff_ne, hmpp, or_assoc]
  exact or_congr ne_comm (or_congr ne_comm (or_congr ne_comm Iff.rfl))

/-- Settles O29: the bits of `mstatusAfterWrite`, and a flush on the condition of `mstatusWriteFlushes_iff`. -/
theorem mstatusReadAndWrite : Obligations.MstatusReadAndWrite := by
  intro s v
  have hflush := flushIf_caches s (mstatusWriteFlushes_iff s.mstatus (mstatusAfterWrite s.mstatus v))
  refine ⟨rfl, fun b hb => getLsbD_mstatusAfterWrite _ _ hb, mstatusAfterWrite_sd _ _, hflush.1, hflush.2, ?_⟩
  simp only [csrWrite, writeMstatus]
  rw [flushIf_eq]

/-! ## `sstatus` (10_state.md R47) -/

theorem sstatusReadMask_mem (b : Nat) (hb : b < 32) : sstatusReadMask.getLsbD b =
    decide (b ∈ [0, 1, 4, 5, 8, 13, 14, 15, 16, 18, 19] ∨ b = 31) := by
  revert b; decide

theorem sstatusWriteMask_mem (b : Nat) (hb : b < 31) : sstatusWriteMask.getLsbD b =
    decide (b ∈ [0, 1, 4, 5, 8, 13, 14, 15, 16, 18, 19]) := by
  revert b; decide

theorem getLsbD_sstatusAfterWrite (w v : Word) {b : Nat} (hb : b < 31) : (sstatusAfterWrite w v).getLsbD b =
    if b ∈ [0, 1, 4, 5, 8, 13, 14, 15, 16, 18, 19] then v.getLsbD b else w.getLsbD b := by
  unfold sstatusAfterWrite
  rw [getLsbD_recomputeSd _ hb, getLsbD_maskedWrite, sstatusWriteMask_mem b hb]
  simp only [decide_eq_true_eq]

theorem sstatusAfterWrite_sd (w v : Word) :
    (sstatusAfterWrite w v).getLsbD 31 = true ↔ mstatusFs v = 3#2 ∨ mstatusXs v = 3#2 := by
  unfold sstatusAfterWrite
  rw [recomputeSd_bit31]
  unfold mstatusFs mstatusXs
  rw [extractLsb'_maskedWrite (by decide), extractLsb'_maskedWrite (by decide)]

theorem sstatusWriteFlushes_iff (old new : Word) : sstatusWriteFlushes old new = true ↔
    new.getLsbD 18 ≠ old.getLsbD 18 ∨ new.getLsbD 19 ≠ old.getLsbD 19 := by
  simp only [sstatusWriteFlushes, Bool.or_eq_true, bne_iff_ne]
  exact or_congr ne_comm ne_comm

/-- Settles O30: as `mstatusReadAndWrite`, with the masks of the view. -/
theorem sstatusReadAndWrite : Obligations.SstatusReadAndWrite := by
  intro s v
  have hflush := flushIf_caches s (sstatusWriteFlushes_iff s.mstatus (sstatusAfterWrite s.mstatus v))
  refine ⟨fun b hb => getLsbD_and_mask (sstatusReadMask_mem b hb) _, rfl,
    fun b hb => getLsbD_sstatusAfterWrite _ _ hb, sstatusAfterWrite_sd _ _, hflush.1, hflush.2, ?_⟩
  simp only [csrWrite, writeSstatus]
  rw [flushIf_eq]

/-! ## `satp` (10_state.md R63) -/

theorem satpMask_bit (b : Nat) (hb : b < 32) : satpMask.getLsbD b = decide (¬ (22 ≤ b ∧ b ≤ 30)) := by
  revert b; decide

/-- Settles O31: the stored value is `v &&& satpMask`, and the flush compares it with the old one. -/
theorem satpReadAndWrite : Obligations.SatpReadAndWrite := by
  intro s v
  have hflush := flushIf_caches s (b := v &&& satpMask != s.satp) (bne_iff_ne (a := v &&& satpMask))
  refine ⟨rfl, fun b hb => ?_, hflush.1, fun h => hflush.2 (not_not_intro h), ?_⟩
  · simp only [csrWrite, writeSatp]
    rw [getLsbD_and_mask (satpMask_bit b hb), ite_not]
  · simp only [csrWrite, writeSatp]
    rw [flushIf_eq]

/-! ## Delegation, enable and pending registers (10_state.md R49 to R54) -/

theorem mieMask_bit (b : Nat) (hb : b < 32) : mieMask.getLsbD b =
    decide ((b = 1 ∨ b = 5 ∨ b = 9) ∨ b = 3 ∨ b = 7 ∨ b = 11) := by
  revert b; decide

theorem midelegMask_bit (b : Nat) (hb : b < 32) : midelegMask.getLsbD b = decide (b = 1 ∨ b = 5 ∨ b = 9) := by
  revert b; decide

theorem medelegMask_bit (b : Nat) (hb : b < 32) : medelegMask.getLsbD b = decide (b ≠ 11) := by
  revert b; decide

/-- Settles O32: each write is a masked one, with the mask that the bit lemmas above describe. -/
theorem interruptCsrs : Obligations.InterruptCsrs := by
  intro s v b hb
  refine ⟨rfl, rfl, rfl, rfl, BitVec.getLsbD_and, BitVec.getLsbD_and, ?medeleg, ?mideleg, ?mie, ?mip,
    getLsbD_maskedWrite _ _ _ _, getLsbD_maskedWrite _ _ _ _, rfl, rfl, rfl, rfl, rfl, rfl⟩
  case medeleg => exact (medelegMask_bit b hb) ▸ BitVec.getLsbD_and
  case mideleg => exact (midelegMask_bit b hb) ▸ BitVec.getLsbD_and
  case mie =>
    simp only [csrWrite]
    rw [getLsbD_maskedWrite, mieMask_bit b hb]
    simp only [decide_eq_true_eq]
  case mip =>
    simp only [csrWrite]
    rw [getLsbD_maskedWrite, midelegMask_bit b hb]
    simp only [decide_eq_true_eq]

/-! ## Registers without a mask, and constants (10_state.md R48, R55 to R62, R75, R77, R78) -/

/-- Settles O33: the only mask is that of the trap vectors, which clears bit 1. -/
theorem storedAndConstantCsrs : Obligations.StoredAndConstantCsrs := by
  intro s v
  have htvec : tvecMask = ~~~2#32 := by decide
  refine ⟨htvec ▸ rfl, htvec ▸ rfl, rfl, rfl, rfl, rfl, rfl, rfl, rfl, rfl, rfl, rfl, rfl, rfl, rfl, rfl, rfl, rfl, rfl,
    rfl, rfl, rfl, rfl, rfl, rfl, ?_, ?_⟩
  · simp only [List.forall_mem_cons, List.not_mem_nil, false_implies, implies_true, and_true]
    exact ⟨rfl, rfl, rfl, rfl, rfl, rfl, rfl, rfl, rfl⟩
  · simp only [List.forall_mem_cons, List.not_mem_nil, false_implies, implies_true, and_true]
    exact ⟨rfl, rfl, rfl, rfl⟩

/-! ## Counters and time (10_state.md R70 to R76) -/

theorem extractLsb'_low (c : DWord) : c.extractLsb' 0 32 = BitVec.ofNat 32 c.toNat := rfl

theorem extractLsb'_high (c : DWord) : c.extractLsb' 32 32 = BitVec.ofNat 32 (c.toNat / 2 ^ 32) := by
  rw [← Nat.shiftRight_eq_div_pow]
  rfl

/-- A counter made of its two halves. -/
theorem append_halves (hi lo : Word) : (hi ++ lo : DWord) = BitVec.ofNat 64 (hi.toNat * 2 ^ 32 + lo.toNat) := by
  refine BitVec.eq_of_toNat_eq ?_
  rw [BitVec.toNat_append, ← Nat.shiftLeft_add_eq_or_of_lt lo.isLt, Nat.shiftLeft_eq, BitVec.toNat_ofNat,
    Nat.mod_eq_of_lt (by omega)]

theorem writeMcycleLow_eq (v : Word) (s : State) : writeMcycleLow v s =
    { s with mcycle := BitVec.ofNat 64 (s.mcycle.toNat / 2 ^ 32 * 2 ^ 32 + v.toNat) } := by
  have hhigh : (s.mcycle.extractLsb' 32 32).toNat = s.mcycle.toNat / 2 ^ 32 := by
    rw [extractLsb'_high, BitVec.toNat_ofNat, Nat.mod_eq_of_lt (by omega)]
  rw [writeMcycleLow, append_halves, hhigh]

theorem writeMcycleHigh_eq (v : Word) (s : State) : writeMcycleHigh v s =
    { s with mcycle := BitVec.ofNat 64 (v.toNat * 2 ^ 32 + s.mcycle.toNat % 2 ^ 32) } := by
  rw [writeMcycleHigh, append_halves, extractLsb'_low, BitVec.toNat_ofNat]

/-- Machine level reaches `mcycle` for writing. -/
theorem csrSelect_mcycle {s : State} (h : s.priv = .m) : csrSelect 0xB00#12 true s = some .mcycle := by
  rw [csrSelect_eq_some_iff, h]
  exact ⟨by decide, by decide, by simp [csrCondition, isCounterAddr, addrIn]⟩

/-- Settles O34, with the counter as a number: its halves are quotient and remainder by `2 ^ 32`. -/
theorem countersAndTime : Obligations.CountersAndTime := by
  intro s v
  simp only [List.forall_mem_cons, List.not_mem_nil, false_implies, implies_true, and_true]
  refine ⟨⟨rfl, rfl, rfl, rfl⟩, ?_, ⟨writeMcycleLow_eq v s, writeMcycleLow_eq v s⟩,
    ⟨writeMcycleHigh_eq v s, writeMcycleHigh_eq v s⟩, fun hm rs1 => ?_, rfl, ?_⟩
  · simp only [csrRead, extractLsb'_high, and_self]
  · refine ⟨(writeMcycleLow (s.x rs1) s).advance 4, ?_, ?_⟩
    · simp only [exec, execCsrrw, csrOp, csrSelect_mcycle hm]
      rfl
    · rw [advance_mcycle, writeMcycleLow_eq]
      exact (BitVec.ofNat_add _ 1).symm
  · simp only [csrRead, extractLsb'_high, getTime]

end Sys2Proof.Machine
end

section
/-! PROOFS. Loads and stores through whatever translation is in force (42_load_store.md R250 to R259; 20_memory.md R120,
R121). -/

namespace Sys2Proof.Machine

open Sys2Proof

/-! ## What the access paths raise -/

/-- The exceptions of a data access of kind `k` at `va`: misaligned, page fault, access fault. -/
def DataExc (k : AccessKind) (va : Word) (e : Exc) : Prop :=
  e = misalignedExc k va ∨ e = pageFault k va ∨ e = accessFault k va

theorem dataTarget_dataExc {va : Word} {n : AccessSize} {k : AccessKind} {s t : State} {e : Exc}
    (h : dataTarget va n k s = .raise e t) : DataExc k va e := by
  rcases dataTarget_raise h with ⟨-, he, -⟩ | he
  · exact .inl he
  · exact .inr he

theorem readTarget_raise {g : Target} {n : AccessSize} {k : AccessKind} {va : Word} {s t : State} {e : Exc}
    (h : readTarget g n k va s = .raise e t) : e = accessFault k va := by
  unfold readTarget at h
  split at h <;> cases h
  rfl

theorem writeTarget_raise {g : Target} {n : AccessSize} {va v : Word} {s t : State} {e : Exc}
    (h : writeTarget g n va v s = .raise e t) : e = accessFault .write va := by
  unfold writeTarget at h
  split at h <;> cases h
  rfl

theorem memRead_raise {va : Word} {n : AccessSize} {s t : State} {e : Exc} (h : memRead va n s = .raise e t) :
    DataExc .read va e := by
  rcases Access.bind_raise h with h | ⟨g, u, -, h⟩
  · exact dataTarget_dataExc h
  · exact .inr (.inr (readTarget_raise h))

theorem memWrite_raise {va : Word} {n : AccessSize} {v : Word} {s t : State} {e : Exc}
    (h : memWrite va n v s = .raise e t) : DataExc .write va e := by
  rcases Access.bind_raise h with h | ⟨g, u, -, h⟩
  · exact dataTarget_dataExc h
  · exact .inr (.inr (writeTarget_raise h))

/-! ## What a load and a store do with it -/

/-- An instruction that writes a register retires. -/
theorem retire_retires (u : State) (rd : Reg) (v n : Word) : ∃ t, retire rd v n u = .next t ∧ Retires u t rd v n := by
  refine ⟨_, rfl, fun r => x_setX u rd r v, by simp, by simp, ?_⟩
  rw [setX_eq]
  rfl

/-- A load completes where its access path does, and takes the exception that the path raises. -/
theorem loadInto_outcome (n : AccessSize) (ext : Word → Word) (rd : Reg) (va ilen : Word) (s : State) :
    (∀ v u, memRead va n s = .ok v u → OnlyStorage s u ∧
      ∃ t, loadInto n ext rd va ilen s = .next t ∧ Retires u t rd (ext v) ilen) ∧
    (∀ e u, memRead va n s = .raise e u → OnlyStorage s u ∧
      loadInto n ext rd va ilen s = .next (takeException e u) ∧ DataExc .read va e) := by
  have honly := memRead_only va n s
  constructor
  · intro v u h
    rw [h] at honly
    simp only [loadInto, h, Access.conclude_ok]
    exact ⟨honly, retire_retires u rd (ext v) ilen⟩
  · intro e u h
    rw [h] at honly
    simp only [loadInto, h, Access.conclude_raise, true_and]
    exact ⟨honly, memRead_raise h⟩

/-- A store completes where its access path does, and takes the exception that the path raises. -/
theorem storeFrom_outcome (n : AccessSize) (va v ilen : Word) (s : State) :
    (∀ u, memWrite va n v s = .ok () u → OnlyStorage s u ∧
      storeFrom n va v ilen s = .next { u with pc := s.pc + ilen, mcycle := s.mcycle + 1 }) ∧
    (∀ e u, memWrite va n v s = .raise e u → OnlyStorage s u ∧
      storeFrom n va v ilen s = .next (takeException e u) ∧ DataExc .write va e) := by
  have honly := memWrite_only va n v s
  constructor
  · intro u h
    rw [h] at honly
    simp only [storeFrom, h, Access.conclude_ok]
    refine ⟨honly, ?_⟩
    rw [← honly.pc, ← honly.mcycle]
    rfl
  · intro e u h
    rw [h] at honly
    simp only [storeFrom, h, Access.conclude_raise, true_and]
    exact ⟨honly, memWrite_raise h⟩

/-- Settles O37: every load is a `loadInto` and every store a `storeFrom`. -/
theorem loadsAndStoresThroughTranslation : Obligations.LoadsAndStoresThroughTranslation := by
  intro s rd rs1 rs2 imm crd crs1 crs2 uimm7 uimm8
  simp only [List.forall_mem_cons, List.not_mem_nil, false_implies, implies_true, and_true]
  exact ⟨⟨loadInto_outcome _ _ _ _ _ s, loadInto_outcome _ _ _ _ _ s, loadInto_outcome _ _ _ _ _ s,
      loadInto_outcome _ _ _ _ _ s, loadInto_outcome _ _ _ _ _ s, loadInto_outcome _ _ _ _ _ s,
      loadInto_outcome _ _ _ _ _ s⟩,
    storeFrom_outcome _ _ _ _ s, storeFrom_outcome _ _ _ _ s, storeFrom_outcome _ _ _ _ s,
    storeFrom_outcome _ _ _ _ s, storeFrom_outcome _ _ _ _ s⟩

end Sys2Proof.Machine
end

section
/-! PROOFS. What the access paths do at their target, and where they do not get that far: a misaligned address
(20_memory.md R101 to R107, R120, R121, R124). -/

namespace Sys2Proof.Machine

open Sys2Proof

/-! ## The size of an access (20_memory.md R101) -/

theorem maskToSize_eq (n : AccessSize) (v : Word) :
    maskToSize n v = BitVec.ofNat 32 (v.toNat % 2 ^ (8 * sizeBytes n)) := by
  apply BitVec.eq_of_toNat_eq
  rw [BitVec.toNat_ofNat]
  have hv := v.isLt
  cases n with
  | byte => exact (Nat.and_two_pow_sub_one_eq_mod v.toNat 8).trans (by simp only [sizeBytes]; omega)
  | half => exact (Nat.and_two_pow_sub_one_eq_mod v.toNat 16).trans (by simp only [sizeBytes]; omega)
  | word => simp only [maskToSize, sizeBytes]; omega

/-! ## A target by what answers there (20_memory.md R101, R102, R107) -/

section Targets

variable {g : Target} {n : AccessSize} {k : AccessKind} {va v : Word} {s : State}

theorem readTarget_ram {r : Range} (hg : g.backing = .ram r) :
    readTarget g n k va s = .ok (s.mem.load g.pa n) s := by
  simp only [readTarget, readBacking, hg]

theorem readTarget_unmapped (hg : g.backing = .unmapped) : readTarget g n k va s = .ok 0#32 s := by
  simp only [readTarget, readBacking, hg]

/-- A device answers one load, which the bus history records. -/
theorem readTarget_mmio {d : Nat} (hg : g.backing = .mmio d) :
    readTarget g n k va s = match Config.deviceLoad s.bus d g.pa n with
      | .value w => .ok (maskToSize n w) { s with bus := .load d g.pa n :: s.bus }
      | .fault => .raise (accessFault k va) { s with bus := .load d g.pa n :: s.bus } := by
  simp only [readTarget, readBacking, hg]
  cases Config.deviceLoad s.bus d g.pa n <;> rfl

theorem writeTarget_ram {r : Range} (hg : g.backing = .ram r) :
    writeTarget g n va v s = .ok () { s with mem := s.mem.store g.pa n v } := by
  simp only [writeTarget, writeBacking, hg]

theorem writeTarget_unmapped (hg : g.backing = .unmapped) : writeTarget g n va v s = .ok () s := by
  simp only [writeTarget, writeBacking, hg]

/-- A device answers one store, which the bus history records. -/
theorem writeTarget_mmio {d : Nat} (hg : g.backing = .mmio d) :
    writeTarget g n va v s = if Config.deviceStoreFaults s.bus d g.pa n (maskToSize n v)
      then .raise (accessFault .write va) { s with bus := .store d g.pa n (maskToSize n v) :: s.bus }
      else .ok () { s with bus := .store d g.pa n (maskToSize n v) :: s.bus } := by
  simp only [writeTarget, writeBacking, hg]
  cases Config.deviceStoreFaults s.bus d g.pa n (maskToSize n v) <;> rfl

/-! ## From the virtual address to the target -/

variable {u : State} {e : Exc}

theorem memRead_of_ok (h : dataTarget va n .read s = .ok g u) : memRead va n s = readTarget g n .read va u := by
  simp only [memRead, h, Access.bind]

theorem memRead_of_raise (h : dataTarget va n .read s = .raise e u) : memRead va n s = .raise e u := by
  simp only [memRead, h, Access.bind]

theorem memWrite_of_ok (h : dataTarget va n .write s = .ok g u) : memWrite va n v s = writeTarget g n va v u := by
  simp only [memWrite, h, Access.bind]

theorem memWrite_of_raise (h : dataTarget va n .write s = .raise e u) : memWrite va n v s = .raise e u := by
  simp only [memWrite, h, Access.bind]

theorem dataTarget_offset (hs : s.StorageInv) (h : dataTarget va n k s = .ok g u) :
    g.pa.toNat % 4096 = va.toNat % 4096 := by
  unfold dataTarget at h
  split at h
  · cases h
  · exact translateCached_offset hs h

theorem storageInv_of_dataTarget (hs : s.StorageInv) (h : dataTarget va n k s = .ok g u) : u.StorageInv := by
  have := dataTarget_storage hs (va := va) (n := n) (k := k)
  rwa [h] at this

end Targets

/-- Settles O38, by what answers at the target. -/
theorem accessPaths : Obligations.AccessPaths := by
  intro s u va v n g hs
  refine ⟨fun h => ⟨dataTarget_offset hs h, fun r hg => ?_, fun hg => ?_, fun d hg => ⟨fun hd => ?_, fun w hd => ?_⟩⟩,
    fun h => ⟨dataTarget_offset hs h, fun r hg => ?_, fun hg => ?_, fun d hg => ?_⟩,
    fun e => memRead_of_raise, fun e => memWrite_of_raise⟩
  · rw [memRead_of_ok h, readTarget_ram hg]
    cases n <;> rfl
  · rw [memRead_of_ok h, readTarget_unmapped hg]
  · rw [memRead_of_ok h, readTarget_mmio hg, hd]
    rfl
  · rw [memRead_of_ok h, readTarget_mmio hg, hd, ← maskToSize_eq]
  · have hwf := (storageInv_of_dataTarget hs h).memory
    exact ⟨_, by rw [memWrite_of_ok h, writeTarget_ram hg], rfl, Memory.wf_store hwf g.pa n v,
      fun a => Memory.byteAt_store hwf g.pa a n v⟩
  · rw [memWrite_of_ok h, writeTarget_unmapped hg]
  · simp only [memWrite_of_ok h, writeTarget_mmio hg, ← maskToSize_eq]
    rfl

/-! ## Misaligned addresses (20_memory.md R120, R121, R124; 42_load_store.md R259; 45_a_extension.md R301, R304) -/

section Misaligned

variable {n : AccessSize} {va : Word}

theorem misaligned_of_mod_ne_zero (h : va.toNat % sizeBytes n ≠ 0) : misaligned n va = true := by
  rw [← Bool.not_eq_false, aligned_iff]
  exact h

theorem dataTarget_misaligned (h : va.toNat % sizeBytes n ≠ 0) (k : AccessKind) (s : State) :
    dataTarget va n k s = .raise (misalignedExc k va) s := by
  simp only [dataTarget, misaligned_of_mod_ne_zero h, if_true]

theorem loadInto_misaligned (h : va.toNat % sizeBytes n ≠ 0) (ext : Word → Word) (rd : Reg) (ilen : Word) (s : State) :
    loadInto n ext rd va ilen s = .next (takeException (.loadAddrMisaligned va) s) := by
  rw [loadInto, memRead_of_raise (dataTarget_misaligned h .read s)]
  rfl

theorem storeFrom_misaligned (h : va.toNat % sizeBytes n ≠ 0) (v ilen : Word) (s : State) :
    storeFrom n va v ilen s = .next (takeException (.storeAddrMisaligned va) s) := by
  rw [storeFrom, memWrite_of_raise (dataTarget_misaligned h .write s)]
  rfl

/-- Each of the nine atomic memory operations is `amoOp` with the function that the table gives for it. -/
theorem exec_amoTable {aq rl : Bool} {rd rs1 rs2 : Reg} {p : Instr × (Word → Word → Word)}
    (hp : p ∈ amoTable aq rl rd rs1 rs2) (s : State) : exec p.1 s = amoOp p.2 rd rs1 rs2 s := by
  simp only [amoTable, List.mem_cons, List.not_mem_nil, or_false] at hp
  rcases hp with rfl | rfl | rfl | rfl | rfl | rfl | rfl | rfl | rfl
  · rfl
  · simp only [exec, execAmoaddW, BitVec.ofNat_add, BitVec.ofNat_toNat, BitVec.setWidth_eq]
  · rfl
  · rfl
  · rfl
  · simp only [exec, execAmominW, BitVec.slt_iff_toInt_lt]
  · simp only [exec, execAmomaxW, BitVec.slt_iff_toInt_lt, gt_iff_lt]
  · simp only [exec, execAmominuW, BitVec.ult_iff_toNat_lt]
  · simp only [exec, execAmomaxuW, BitVec.ult_iff_toNat_lt, gt_iff_lt]

theorem amoOp_misaligned {rs1 : Reg} {s : State} (h : (s.x rs1).toNat % 4 ≠ 0) (f : Word → Word → Word)
    (rd rs2 : Reg) :
    amoOp f rd rs1 rs2 s = .next (takeException (.storeAddrMisaligned (s.x rs1)) s) := by
  rw [amoOp_eq, dataTarget_misaligned (n := .word) h]
  rfl

theorem execLrW_misaligned {rs1 : Reg} {s : State} (h : (s.x rs1).toNat % 4 ≠ 0) (aq rl : Bool) (rd : Reg) :
    execLrW aq rl rd rs1 s = .next (takeException (.loadAddrMisaligned (s.x rs1)) s) := by
  rw [execLrW_eq, dataTarget_misaligned (n := .word) h]
  rfl

theorem execScW_misaligned {rs1 : Reg} {s : State} (h : (s.x rs1).toNat % 4 ≠ 0) (aq rl : Bool) (rd rs2 : Reg) :
    execScW aq rl rd rs1 rs2 s = .next (takeException (.storeAddrMisaligned (s.x rs1)) s) := by
  rw [execScW_eq, dataTarget_misaligned (n := .word) h]
  rfl

end Misaligned

/-- Settles O39: each of the instructions asks for its target first, and a misaligned address has none. -/
theorem misalignedAccessesTrap : Obligations.MisalignedAccessesTrap := by
  intro s rd rs1 rs2 imm aq rl crd crs1 uimm7 uimm8
  refine ⟨fun h => ?_, fun h => ?_, fun h => ?_, fun h => ?_, fun h => ?_⟩
  · exact ⟨loadInto_misaligned (n := .half) h _ rd 4 s, loadInto_misaligned (n := .half) h _ rd 4 s,
      storeFrom_misaligned (n := .half) h _ 4 s⟩
  · exact ⟨loadInto_misaligned (n := .word) h _ rd 4 s, storeFrom_misaligned (n := .word) h _ 4 s⟩
  · exact ⟨loadInto_misaligned (n := .word) h _ crd.reg 2 s, storeFrom_misaligned (n := .word) h _ 2 s⟩
  · exact ⟨loadInto_misaligned (n := .word) h _ rd 2 s, storeFrom_misaligned (n := .word) h _ 2 s⟩
  · refine ⟨execLrW_misaligned h aq rl rd, execScW_misaligned h aq rl rd rs2, ?_⟩
    intro p hp
    exact (exec_amoTable hp s).trans (amoOp_misaligned h p.2 rd rs2)

end Sys2Proof.Machine
end

section
/-! PROOFS. The walk over the page tables, and the accessed and dirty bits (20_memory.md R132 to R140). -/

namespace Sys2Proof.Machine

open Sys2Proof

/-! ## Words of RAM and their bytes (20_memory.md R104) -/

theorem append_byteOf (w : Word) : byteOf w 3 ++ byteOf w 2 ++ byteOf w 1 ++ byteOf w 0 = w := by
  have join (k n m : Nat) : w.extractLsb' (k + n) m ++ w.extractLsb' k n = w.extractLsb' k (m + n) :=
    BitVec.extractLsb'_append_extractLsb'_eq_extractLsb' rfl
  calc byteOf w 3 ++ byteOf w 2 ++ byteOf w 1 ++ byteOf w 0
      = w.extractLsb' 16 16 ++ byteOf w 1 ++ byteOf w 0 := congrArg (· ++ byteOf w 1 ++ byteOf w 0) (join 16 8 8)
    _ = w.extractLsb' 8 24 ++ byteOf w 0 := congrArg (· ++ byteOf w 0) (join 8 8 16)
    _ = w.extractLsb' 0 32 := join 0 8 24
    _ = w := BitVec.extractLsb'_eq_self

theorem byteOf_append (b3 b2 b1 b0 : Byte) :
    byteOf (b3 ++ b2 ++ b1 ++ b0) 0 = b0 ∧ byteOf (b3 ++ b2 ++ b1 ++ b0) 1 = b1 ∧
      byteOf (b3 ++ b2 ++ b1 ++ b0) 2 = b2 ∧ byteOf (b3 ++ b2 ++ b1 ++ b0) 3 = b3 := by
  have low {n : Nat} (hi : BitVec n) (b : Byte) : (hi ++ b).extractLsb' 0 8 = b := BitVec.extractLsb'_append_eq_right
  have high {n : Nat} (hi : BitVec n) (b : Byte) (k : Nat) : (hi ++ b).extractLsb' (8 + k) 8 = hi.extractLsb' k 8 := by
    rw [BitVec.extractLsb'_append_eq_of_le (by omega), Nat.add_sub_cancel_left]
  exact ⟨low _ b0, (high _ b0 0).trans (low _ b1), (high _ b0 8).trans ((high _ b1 0).trans (low _ b2)),
    (high _ b0 16).trans ((high _ b1 8).trans ((high _ b2 0).trans BitVec.extractLsb'_eq_self))⟩

/-- A word of RAM is what a load of four bytes reads there. -/
theorem ramWord_iff {s : State} {pa w : Word} :
    RamWord s pa w ↔ (∃ r, classify s.plat pa = .ram r) ∧ s.mem.load pa .word = w := by
  refine and_congr_right fun _ => ⟨fun ⟨h0, h1, h2, h3⟩ => ?_, fun h => ?_⟩
  · simp only [Memory.load, h0, h1, h2, h3, append_byteOf]
  · obtain ⟨h0, h1, h2, h3⟩ := byteOf_append (s.mem.byteAt (pa + 3)) (s.mem.byteAt (pa + 2)) (s.mem.byteAt (pa + 1))
      (s.mem.byteAt pa)
    rw [← h]
    exact ⟨h0.symm, h1.symm, h2.symm, h3.symm⟩

theorem RamWord.byteAt_add {s : State} {pa w : Word} (h : RamWord s pa w) {j : Nat} (hj : j < 4) :
    s.mem.byteAt (pa + BitVec.ofNat 32 j) = byteOf w j := by
  obtain ⟨-, h0, h1, h2, h3⟩ := h
  match j, hj with
  | 0, _ => simpa using h0
  | 1, _ => exact h1
  | 2, _ => exact h2
  | 3, _ => exact h3

/-- A read of an entry changes nothing but the bus history. In RAM, it finds the word there. -/
theorem physRead_word (pa : Word) (s : State) : ∃ b, (physRead pa .word s).2 = { s with bus := b } ∧
    ∀ w r, (physRead pa .word s).1 = .value w → classify s.plat pa = .ram r → RamWord s pa w := by
  unfold physRead
  cases hc : classify s.plat pa with
  | ram r =>
    refine ⟨s.bus, rfl, fun w _ hw _ => ramWord_iff.2 ⟨⟨r, hc⟩, ?_⟩⟩
    cases hw
    rfl
  | mmio d => exact ⟨_, rfl, fun _ _ _ h => by cases h⟩
  | unmapped => exact ⟨s.bus, rfl, fun _ _ _ h => by cases h⟩

theorem RamWord.physRead {s : State} {pa w : Word} (h : RamWord s pa w) : physRead pa .word s = (.value w, s) := by
  obtain ⟨⟨r, hr⟩, hload⟩ := ramWord_iff.1 h
  simp only [Machine.physRead, hr, readBacking, hload]

theorem physRead_unmapped {s : State} {pa : Word} (h : classify s.plat pa = .unmapped) :
    physRead pa .word s = (.value 0#32, s) := by
  simp only [physRead, h, readBacking]

/-! ## The accessed and dirty bits (20_memory.md R136) -/

theorem pteWithAD_eq (pte : Word) (k : AccessKind) :
    pteWithAD pte k = pte ||| 0x40#32 ||| (if k = .write then 0x80#32 else 0#32) := by
  cases k with
  | write =>
    change pte ||| 0x80#32 ||| 0x40#32 = pte ||| 0x40#32 ||| 0x80#32
    ac_rfl
  | fetch | read => exact BitVec.or_zero.symm

/-- The byte of an entry that holds its accessed and dirty bits, after `UpdateAD`. -/
theorem byteOf_pteWithAD_zero (pte : Word) (k : AccessKind) :
    byteOf (pteWithAD pte k) 0 = byteOf pte 0 ||| (if k = .write then 0xC0#8 else 0x40#8) := by
  rw [pteWithAD_eq]
  cases k <;> simp [byteOf, BitVec.extractLsb'_or, BitVec.or_assoc]

/-- The other three bytes hold none. -/
theorem byteOf_pteWithAD_pos (pte : Word) (k : AccessKind) {j : Nat} (h0 : j ≠ 0) (h4 : j < 4) :
    byteOf (pteWithAD pte k) j = byteOf pte j := by
  rw [pteWithAD_eq]
  match j, h0, h4 with
  | 1, _, _ | 2, _, _ | 3, _, _ => cases k <;> simp [byteOf, BitVec.extractLsb'_or]

/-- The write back of an entry in RAM changes the byte that holds its accessed and dirty bits, and no other. -/
theorem updateAD_ram {s : State} {addr pte : Word} (hm : s.mem.wf = true) (h : RamWord s addr pte) (k : AccessKind) :
    ∃ m, updateAD addr pte k s = (true, { s with mem := m }) ∧
      ∀ a, m.byteAt a = if a = addr then byteOf (pteWithAD pte k) 0 else s.mem.byteAt a := by
  have hzero : s.mem.byteAt addr = byteOf pte 0 := by simpa using h.byteAt_add (j := 0) (by decide)
  unfold updateAD
  split
  · next hsame =>
    refine ⟨s.mem, rfl, fun a => ?_⟩
    split
    · next ha => rw [ha, hsame, hzero]
    · rfl
  · obtain ⟨r, hr⟩ := h.1
    refine ⟨s.mem.store addr .word (pteWithAD pte k), by simp only [physWrite, hr, writeBacking], fun a => ?_⟩
    rw [Memory.byteAt_store hm, sizeBytes]
    split
    · next hin =>
      obtain ⟨j, hj, rfl⟩ := (sub_lt_iff a addr 4 (le_refl 4)).1 hin
      have hsub : (addr + BitVec.ofNat 32 j - addr).toNat = j := by
        rw [BitVec.add_comm, BitVec.add_sub_cancel, BitVec.toNat_ofNat]
        omega
      rw [hsub]
      by_cases h0 : j = 0
      · simp [h0]
      · have hne : addr + BitVec.ofNat 32 j ≠ addr := by
          intro heq
          rw [heq, BitVec.sub_self] at hsub
          exact h0 hsub.symm
        rw [if_neg hne, h.byteAt_add hj, byteOf_pteWithAD_pos pte k h0 hj]
    · next hout =>
      have hne : a ≠ addr := by
        rintro rfl
        simp at hout
      rw [if_neg hne]

/-! ## What a translation can do to memory (20_memory.md R136, R139, R140) -/

/-- `b'` is `b` with the accessed and dirty bits (bits 6 and 7) perhaps set. -/
def ByteMarked (b b' : Byte) : Prop := b' &&& 0x3F#8 = b &&& 0x3F#8 ∧ b &&& ~~~b' = 0#8

theorem ByteMarked.refl (b : Byte) : ByteMarked b b := ⟨rfl, BitVec.and_not_self b⟩

theorem byteMarked_pteWithAD (pte : Word) (k : AccessKind) : ByteMarked (byteOf pte 0) (byteOf (pteWithAD pte k) 0) := by
  have hor (b c : Byte) (hc : c &&& 0x3F#8 = 0#8) : ByteMarked b (b ||| c) :=
    ⟨by rw [BitVec.and_or_distrib_right, hc, BitVec.or_zero],
      by rw [BitVec.not_or, ← BitVec.and_assoc, BitVec.and_not_self, show (0 : Byte) = 0#8 from rfl, BitVec.zero_and]⟩
  rw [byteOf_pteWithAD_zero]
  exact hor _ _ (by cases k <;> decide)

/-- `t` is `s` after a walk: the bus history may have grown, and accessed and dirty bits may be set. -/
structure Walked (s t : State) : Prop where
  only : t = { s with mem := t.mem, bus := t.bus }
  byte : ∀ a, ByteMarked (s.mem.byteAt a) (t.mem.byteAt a)

theorem Walked.of_bus (s : State) (b : List BusEvent) : Walked s { s with bus := b } := ⟨rfl, fun _ => .refl _⟩

theorem Walked.after_bus {s u t : State} {b : List BusEvent} (h : Walked u t) (hu : u = { s with bus := b }) :
    Walked s t := by
  subst hu
  exact ⟨by rw [h.only], h.byte⟩

theorem updateAD_walked {s : State} {addr pte : Word} (hm : s.mem.wf = true)
    (hpte : ∀ r, classify s.plat addr = .ram r → RamWord s addr pte) (k : AccessKind) :
    Walked s (updateAD addr pte k s).2 := by
  cases hc : classify s.plat addr with
  | ram r =>
    obtain ⟨m, hupd, hbyte⟩ := updateAD_ram hm (hpte r hc) k
    rw [hupd]
    refine ⟨rfl, fun a => ?_⟩
    simp only [hbyte]
    split
    · next ha =>
      obtain ⟨-, hzero, -⟩ := hpte r hc
      rw [ha, hzero]
      exact byteMarked_pteWithAD pte k
    · exact .refl _
  | mmio d | unmapped =>
    unfold updateAD
    split
    · exact .of_bus s s.bus
    · simp only [physWrite, hc, writeBacking]
      exact .of_bus s _

theorem walkLeaf_walked {s : State} {addr pte : Word} (hm : s.mem.wf = true)
    (hpte : ∀ r, classify s.plat addr = .ram r → RamWord s addr pte) (va : Word) (k : AccessKind) (ep : Priv)
    (l : PtLevel) : Walked s (walkLeaf addr pte va k ep l s).state := by
  unfold walkLeaf
  split
  · have := updateAD_walked hm hpte k
    split <;> next h => rw [h] at this; exact this
  · exact .of_bus s s.bus

theorem walk_walked {s : State} (hm : s.mem.wf = true) (ls : List PtLevel) (base va : Word) (k : AccessKind) (ep : Priv) :
    Walked s (walk ls base va k ep s).state := by
  induction ls generalizing base s with
  | nil => exact .of_bus s s.bus
  | cons l ls ih =>
    unfold walk
    obtain ⟨b, hstate, hword⟩ := physRead_word (pteAddr base l va) s
    split
    · next s' hread =>
      rw [hread] at hstate
      obtain rfl : s' = { s with bus := b } := hstate
      exact .of_bus s b
    · next pte s' hread =>
      rw [hread] at hstate hword
      obtain rfl : s' = { s with bus := b } := hstate
      have hm' : ({ s with bus := b } : State).mem.wf = true := hm
      split
      · exact .of_bus s b
      · split
        · exact (ih hm' _).after_bus rfl
        · exact (walkLeaf_walked hm' (fun r hr => hword pte r rfl hr) va k ep l).after_bus rfl

theorem translate_walked {s : State} (hm : s.mem.wf = true) (va : Word) (k : AccessKind) :
    Walked s (translate va k s).state := by
  unfold translate
  split
  · exact .of_bus s s.bus
  · exact walk_walked hm _ _ _ _ _

theorem installTarget_mem (va : Word) (k : AccessKind) (pa : Word) (s : State) :
    (installTarget va k pa s).state.mem = s.mem := by
  unfold installTarget
  split
  · exact installTlb_mem s k va pa _
  · rfl

/-- The caches hold no memory: a hit leaves it alone, a miss leaves it as the walk did. -/
theorem translateCached_byteMarked {s : State} (hm : s.mem.wf = true) (va : Word) (k : AccessKind) (a : Word) :
    ByteMarked (s.mem.byteAt a) ((translateCached va k s).state.mem.byteAt a) := by
  have hwalk := translate_walked hm va k
  unfold translateCached
  split
  · exact .refl _
  · refine Access.bind_state (P := fun t => ByteMarked (s.mem.byteAt a) (t.mem.byteAt a)) (hwalk.byte a)
      fun pa t _ ht => ?_
    rw [installTarget_mem]
    exact ht

/-- Settles O40: the only store of a translation is `UpdateAD`'s. -/
theorem translationChangesOnlyAccessedDirty : Obligations.TranslationChangesOnlyAccessedDirty := by
  intro s u va k hs h
  obtain rfl : u = (translateCached va k s).state := by
    rcases h with ⟨g, h⟩ | ⟨e, h⟩ <;> rw [h] <;> rfl
  exact ⟨translateCached_only va k s, translateCached_byteMarked hs.memory va k⟩

/-! ## The check of a leaf (20_memory.md R134) -/

section Leaf

variable {addr pte va : Word} {k : AccessKind} {ep : Priv} {l : PtLevel} {s : State}

theorem walkLeaf_refused (h : leafPermits s.mstatus pte k ep = false) :
    walkLeaf addr pte va k ep l s = .raise (pageFault k va) s := by
  simp [walkLeaf, h]

theorem pageFault_ne_accessFault : pageFault k va ≠ accessFault k va := by
  cases k <;> simp [pageFault, accessFault]

/-- A leaf that permits the access raises no page fault: only its write back can fail. -/
theorem walkLeaf_permitted (h : leafPermits s.mstatus pte k ep = true) (u : State) :
    walkLeaf addr pte va k ep l s ≠ .raise (pageFault k va) u := by
  rw [walkLeaf, if_pos h]
  split
  · exact nofun
  · exact fun hraise => pageFault_ne_accessFault (Access.raise.inj hraise).1.symm

end Leaf

/-- Settles O46: `leafPermits` is the negation of the refusal, kind by kind, and decides the outcome of `walkLeaf`. -/
theorem leafCheck : Obligations.LeafCheck := by
  intro s addr pte va k ep l _ user sum readable ok refused
  have hrefused : leafPermits s.mstatus pte k ep = false ↔ refused := by
    unfold leafPermits refused
    rw [Bool.and_eq_false_iff, Bool.and_eq_false_iff, or_assoc]
    refine or_congr (by simp [user, sum, pteU, mstatusSum, and_assoc, imp_iff_not_or]) (or_congr (by simp [user, pteU]) ?_)
    cases k <;> simp [ok, readable, pteR, pteW, pteX, mstatusMxr]
  refine ⟨fun h => walkLeaf_refused (hrefused.2 h), fun h => ?_⟩
  rw [← hrefused, Bool.not_eq_false] at h
  exact ⟨h, walkLeaf_permitted h⟩

/-! ## The walk over tables in RAM (20_memory.md R132, R133, R137, R139) -/

theorem pteAddr_eq (base : Word) (l : PtLevel) (va : Word) :
    pteAddr base l va = base + BitVec.ofNat 32 ((vpnOf l va).toNat * 4) := by
  have hoff : (0#20 ++ vpnOf l va ++ 0#2 : Word).toNat = (vpnOf l va).toNat * 4 := by
    rw [BitVec.toNat_append, BitVec.toNat_append]
    simp [Nat.shiftLeft_eq]
  rw [pteAddr, ← hoff, BitVec.ofNat_toNat, BitVec.setWidth_eq]

theorem pteAddr_one (base va : Word) : pteAddr base .one va = base + BitVec.ofNat 32 (va.toNat / 2 ^ 22 * 4) := by
  have hvpn : (vpnOf .one va).toNat = va.toNat / 2 ^ 22 := by
    have := va.isLt
    rw [vpnOf, BitVec.extractLsb'_toNat, Nat.shiftRight_eq_div_pow]
    omega
  rw [pteAddr_eq, hvpn]

theorem pteAddr_zero (base va : Word) :
    pteAddr base .zero va = base + BitVec.ofNat 32 (va.toNat / 2 ^ 12 % 2 ^ 10 * 4) := by
  rw [pteAddr_eq, vpnOf, BitVec.extractLsb'_toNat, Nat.shiftRight_eq_div_pow]

theorem translate_paged {s : State} {k : AccessKind} (hep : s.effectivePriv k ≠ .m) (hsatp : s.satp.getLsbD 31 = true)
    (va : Word) : translate va k s = walk [.one, .zero] (rootBase s.satp) va k (s.effectivePriv k) s := by
  have hbare : s.bare k = false := by simp only [State.bare, beq_eq_false_iff_ne.2 hep, hsatp, Bool.not_true, Bool.or_self]
  rw [translate, hbare]
  rfl

/-- The four bits that make an entry a pointer. -/
theorem pointer_bits {pte : Word} (h : pte.extractLsb' 0 4 = 1#4) :
    pteV pte = true ∧ pteR pte = false ∧ pteW pte = false ∧ pteX pte = false := by
  have bit (i : Nat) (hi : i < 4) : pte.getLsbD i = (1#4).getLsbD i := by
    rw [← h, BitVec.getLsbD_extractLsb', decide_eq_true hi, Bool.true_and, Nat.zero_add]
  exact ⟨bit 0 (by decide), bit 1 (by decide), bit 2 (by decide), bit 3 (by decide)⟩

section Walk

variable {l : PtLevel} {ls : List PtLevel} {base va pte : Word} {k : AccessKind} {ep : Priv} {s : State}

/-- One level of the walk, where its table is in RAM: reading the entry changes nothing. -/
theorem walk_ram (h : RamWord s (pteAddr base l va) pte) : walk (l :: ls) base va k ep s =
    if pteInvalid pte then .raise (pageFault k va) s
    else if ptePointer pte then walk ls (pteBase pte) va k ep s
    else walkLeaf (pteAddr base l va) pte va k ep l s := by
  rw [walk, h.physRead]

theorem walk_unmapped (h : classify s.plat (pteAddr base l va) = .unmapped) :
    walk (l :: ls) base va k ep s = .raise (pageFault k va) s := by
  rw [walk, physRead_unmapped h]
  rfl

theorem walk_invalid (h : RamWord s (pteAddr base l va) pte)
    (hpte : pteV pte = false ∨ (pteW pte = true ∧ pteR pte = false)) :
    walk (l :: ls) base va k ep s = .raise (pageFault k va) s := by
  have hinvalid : pteInvalid pte = true := by simpa [pteInvalid] using hpte
  rw [walk_ram h, if_pos hinvalid]

theorem walk_pointer (h : RamWord s (pteAddr base l va) pte) (hpte : pte.extractLsb' 0 4 = 1#4) :
    walk (l :: ls) base va k ep s = walk ls (pteBase pte) va k ep s := by
  obtain ⟨hv, hr, hw, hx⟩ := pointer_bits hpte
  simp [walk_ram h, pteInvalid, ptePointer, hv, hr, hw, hx]

/-- A leaf that does not permit the access: invalid or not, it is a page fault. -/
theorem walk_refused (h : RamWord s (pteAddr base l va) pte) (hleaf : pteR pte = true ∨ pteX pte = true)
    (hperm : leafPermits s.mstatus pte k ep = false) : walk (l :: ls) base va k ep s = .raise (pageFault k va) s := by
  have hpointer : ptePointer pte = false := by rcases hleaf with h | h <;> simp [ptePointer, h]
  rw [walk_ram h, hpointer, walkLeaf_refused hperm]
  exact ite_self _

/-- A leaf that permits the access: the address composed, and the entry marked in the byte that holds the bits. -/
theorem walk_leaf (hm : s.mem.wf = true) (h : RamWord s (pteAddr base l va) pte)
    (hleaf : pteV pte = true ∧ (pteR pte = true ∨ pteW pte = false ∧ pteX pte = true))
    (hperm : leafPermits s.mstatus pte k ep = true) :
    ∃ m : Memory, walk (l :: ls) base va k ep s = .ok (composePa pte va l) { s with mem := m } ∧
      ∀ a, m.byteAt a = if a = pteAddr base l va then byteOf (pteWithAD pte k) 0 else s.mem.byteAt a := by
  obtain ⟨hv, hrx⟩ := hleaf
  have hinvalid : pteInvalid pte = false := by rcases hrx with h | ⟨h, -⟩ <;> simp [pteInvalid, hv, h]
  have hpointer : ptePointer pte = false := by rcases hrx with h | ⟨-, h⟩ <;> simp [ptePointer, h]
  obtain ⟨m, hupd, hbyte⟩ := updateAD_ram hm h k
  exact ⟨m, by simp [walk_ram h, hinvalid, hpointer, walkLeaf, hperm, hupd], hbyte⟩

end Walk

/-- Settles O47: `walk_leaf` at level 1, and at level 0 behind a pointer. -/
theorem pageTableWalk : Obligations.PageTableWalk := by
  intro s va pte1 pte0 k hm hep hsatp a1 a0 leaf marked
  have ha1 : pteAddr (rootBase s.satp) .one va = a1 := pteAddr_one _ va
  have ha0 : pteAddr (pteBase pte1) .zero va = a0 := pteAddr_zero _ va
  rw [translate_paged hep hsatp, ← ha1, ← ha0]
  refine ⟨fun h1 ⟨hv, hrx, hperm⟩ => ?_, fun h1 hpointer h0 ⟨hv, hrx, hperm⟩ => ?_⟩
  · obtain ⟨m, hwalk, hbyte⟩ := walk_leaf hm h1 ⟨hv, hrx⟩ hperm
    exact ⟨_, hwalk, rfl, fun a => by rw [hbyte, pteWithAD_eq]⟩
  · obtain ⟨m, hwalk, hbyte⟩ := walk_leaf hm h0 ⟨hv, hrx⟩ hperm
    exact ⟨_, (walk_pointer h1 hpointer).trans hwalk, rfl, fun a => by rw [hbyte, pteWithAD_eq]⟩

/-- Settles O48: the walk stops at the entry at fault, which it has read and not written. -/
theorem pageFaults : Obligations.PageFaults := by
  intro s va pte1 pte0 k hep hsatp a1 a0 invalid pointer refused faults
  have ha1 : pteAddr (rootBase s.satp) .one va = a1 := pteAddr_one _ va
  have ha0 : pteAddr (pteBase pte1) .zero va = a0 := pteAddr_zero _ va
  have hfaults : faults ↔
      walk [.one, .zero] (rootBase s.satp) va k (s.effectivePriv k) s = .raise (pageFault k va) s := by
    rw [← translate_paged hep hsatp]
    rfl
  rw [hfaults, ← ha1, ← ha0]
  refine ⟨fun h1 hi => walk_invalid h1 hi, fun h1 ⟨hleaf, hperm⟩ => walk_refused h1 hleaf hperm,
    fun h1 hp h0 hpte => ?_, walk_unmapped, fun h1 hp h0 => ?_⟩
  · rw [walk_pointer h1 hp]
    rcases hpte with hi | hp0 | ⟨hleaf, hperm⟩
    · exact walk_invalid h0 hi
    · exact walk_pointer h0 hp0
    · exact walk_refused h0 hleaf hperm
  · rw [walk_pointer h1 hp, walk_unmapped h0]

end Sys2Proof.Machine
end

section
/-! PROOFS. The translation caches (20_memory.md R150 to R154) and the access that meets no translation (R130, R131). -/

namespace Sys2Proof.Machine

open Sys2Proof

/-! ## Page and offset of an address (20_memory.md R137, R151) -/

theorem page_append_offset_toNat (pa va : Word) :
    (pa.extractLsb' 12 20 ++ va.extractLsb' 0 12 : Word).toNat = pa.toNat / 4096 * 4096 + va.toNat % 4096 := by
  have hpa := pa.isLt
  rw [BitVec.toNat_append, Nat.shiftLeft_eq, Nat.mul_comm, ← Nat.two_pow_add_eq_or_of_lt (BitVec.isLt _),
    BitVec.extractLsb'_toNat, BitVec.extractLsb'_toNat, Nat.shiftRight_eq_div_pow]
  omega

/-- A delta of whole pages that takes one address of a page takes every address of it to the same physical page. -/
theorem add_delta_eq {va va' delta pa : Word} (hd : delta.toNat % 4096 = 0) (hpa : pageOf (va + delta) = pageOf pa)
    (hpage : va'.toNat / 4096 = va.toNat / 4096) : va' + delta = pa.extractLsb' 12 20 ++ va'.extractLsb' 0 12 := by
  apply BitVec.eq_of_toNat_eq
  rw [page_append_offset_toNat]
  rw [pageOf_eq_iff] at hpa
  rw [BitVec.toNat_add] at hpa ⊢
  omega

theorem tlbEntryFor_delta_mod (va pa : Word) (r : Range) : (tlbEntryFor va pa r).delta.toNat % 4096 = 0 := by
  have hva := pageBase_toNat va
  have hpa := pageBase_toNat pa
  have := (pageBase va).isLt
  simp only [tlbEntryFor, BitVec.toNat_sub]
  omega

theorem pageOf_add_tlbEntryFor_delta (va pa : Word) (r : Range) :
    pageOf (va + (tlbEntryFor va pa r).delta) = pageOf pa := by
  have hva := pageBase_toNat va
  have hpa := pageBase_toNat pa
  have := va.isLt
  have := pa.isLt
  rw [pageOf_eq_iff]
  simp only [tlbEntryFor, BitVec.toNat_add, BitVec.toNat_sub]
  omega

/-! ## Hits and installs -/

theorem translateCached_hit {s : State} {k : AccessKind} {va : Word} {e : TlbEntry}
    (h : (s.tlb k).lookup (pageOf va) = some e) :
    translateCached va k s = .ok { pa := va + e.delta, backing := .ram e.region } s := by
  simp only [translateCached, h]

theorem delta_mod_of_hit {s : State} (hs : s.StorageInv) {k : AccessKind} {va : Word} {e : TlbEntry}
    (h : (s.tlb k).lookup (pageOf va) = some e) : e.delta.toNat % 4096 = 0 := by
  have hwf := tlbWf_of_storage hs k
  simp only [tlbWf, Bool.and_eq_true] at hwf
  have he := List.all_eq_true.1 hwf.2 e (Tlb.lookup_some h).1
  simp only [tlbEntryWf, Bool.and_eq_true, beq_iff_eq] at he
  simpa [BitVec.extractLsb'_toNat] using congrArg BitVec.toNat he.1

@[simp] theorem tlb_setTlb_self (s : State) (k : AccessKind) (t : Tlb) : (s.setTlb k t).tlb k = t := by cases k <;> rfl

theorem tlb_setTlb_ne (s : State) {k k' : AccessKind} (h : k' ≠ k) (t : Tlb) : (s.setTlb k t).tlb k' = s.tlb k' :=
  match k, k', h with
  | .fetch, .read, _ | .fetch, .write, _ | .read, .fetch, _ | .read, .write, _ | .write, .fetch, _ | .write, .read, _ => rfl

/-- An installed translation is found for its page. -/
theorem lookup_installTlb {s : State} (hs : s.StorageInv) (k : AccessKind) (va pa : Word) (r : Range) :
    ((s.installTlb k va pa r).tlb k).lookup (pageOf va) = some (tlbEntryFor va pa r) := by
  have hwf := tlbWf_of_storage hs k
  simp only [tlbWf, Bool.and_eq_true] at hwf
  rw [State.installTlb, tlb_setTlb_self, Tlb.lookup_insert hwf.1]
  exact if_pos rfl

/-- How a translation comes to its target: from an entry of the cache, or by a walk whose target is installed where it is
RAM and not kept elsewhere. -/
theorem translateCached_ok {va : Word} {k : AccessKind} {s t : State} {g : Target}
    (h : translateCached va k s = .ok g t) :
    (∃ e, (s.tlb k).lookup (pageOf va) = some e ∧ g = { pa := va + e.delta, backing := .ram e.region } ∧ t = s) ∨
    ∃ u, translate va k s = .ok g.pa u ∧
      ((∃ r, g.backing = .ram r ∧ t = u.installTlb k va g.pa r) ∨ ((∀ r, g.backing ≠ .ram r) ∧ t = u)) := by
  unfold translateCached at h
  split at h
  · next e he => cases h; exact .inl ⟨e, he, rfl, rfl⟩
  · obtain ⟨pa, u, htr, hi⟩ := Access.bind_ok h
    refine .inr ⟨u, ?_⟩
    unfold installTarget at hi
    split at hi
    · cases hi; exact ⟨htr, .inl ⟨_, rfl, rfl⟩⟩
    · next hne => cases hi; exact ⟨htr, .inr ⟨hne, rfl⟩⟩

/-- Settles O49: the entry that was used, or has been installed, answers for the whole page. -/
theorem cachedTranslationHits : Obligations.CachedTranslationHits := by
  intro s t va va' k g hs h
  have hpages : va'.toNat / 4096 = va.toNat / 4096 → pageOf va' = pageOf va := (pageOf_eq_iff _ _).2
  rcases translateCached_ok h with ⟨e, he, rfl, rfl⟩ | ⟨u, hu, ⟨r, hr, rfl⟩ | ⟨hne, rfl⟩⟩
  · refine ⟨fun r hr hpage => ?_, fun hne => absurd rfl (hne _)⟩
    cases hr
    rw [translateCached_hit (hpages hpage ▸ he), add_delta_eq (delta_mod_of_hit hs he) rfl hpage]
  · refine ⟨fun r' hr' hpage => ?_, fun hne => absurd hr (hne r)⟩
    obtain rfl : r = r' := Backing.ram.inj (hr.symm.trans hr')
    have hus : u.StorageInv := by
      have := translate_storage hs (va := va) (k := k)
      rwa [hu] at this
    have hhit := lookup_installTlb hus k va g.pa r
    rw [← hpages hpage] at hhit
    rw [translateCached_hit hhit, add_delta_eq (tlbEntryFor_delta_mod va g.pa r)
      (pageOf_add_tlbEntryFor_delta va g.pa r) hpage]
    rfl
  · refine ⟨fun r hr => absurd hr (hne r), fun _ => ?_⟩
    have hwalk := (translate_walked hs.memory va k).only
    rw [hu] at hwalk
    simp only [Access.state] at hwalk
    rw [hwalk]
    exact ⟨rfl, rfl, rfl⟩

/-! ## The identity translation (20_memory.md R130, R131) -/

theorem ofBits_bits : ∀ b : BitVec 2, b ≠ 2#2 → (Priv.ofBits b).bits = b := by decide

theorem effectivePriv_data {s : State} {k : AccessKind} (hk : k ≠ .fetch) : s.effectivePriv k =
    if s.mstatus.getLsbD 17 then Priv.ofBits (s.mstatus.extractLsb' 11 2) else s.priv := by
  cases k with
  | fetch => exact absurd rfl hk
  | read | write => rfl

theorem translate_bare {s : State} {k : AccessKind} (h : s.effectivePriv k = .m ∨ s.satp.getLsbD 31 = false)
    (va : Word) : translate va k s = .ok va s := by
  have hbare : s.bare k = true := by
    rcases h with h | h <;>
      simp only [State.bare, h, beq_self_eq_true, Bool.true_or, Bool.not_false, Bool.or_true]
  rw [translate, if_pos hbare]

/-- Settles O45, with `dataTarget_plain` for the access. -/
theorem identityTranslation : Obligations.IdentityTranslation := by
  intro s va k
  refine ⟨rfl, fun hk hmprv => ?_, fun hk hmprv hmpp => ?_, fun h => translate_bare h va, fun n b h => ?_⟩
  · rw [effectivePriv_data hk, hmprv]
    rfl
  · rw [effectivePriv_data hk, if_pos hmprv, ofBits_bits _ hmpp]
  · obtain ⟨tb, htarget⟩ := dataTarget_plain h
    exact ⟨_, htarget, by cases k <;> rfl, fun k' hk' => tlb_setTlb_ne s hk' tb⟩

/-- A plain access leaves the state alone, but that it may install the entry of its own page where that is RAM. -/
theorem dataTarget_plain_state {va : Word} {n : AccessSize} {k : AccessKind} {s : State} {b : Backing}
    (h : PlainAccess s k n va b) : ∃ t, dataTarget va n k s = .ok { pa := va, backing := b } t ∧
      (t = s ∨ ∃ r, b = .ram r ∧ t = s.installTlb k va va r) := by
  obtain ⟨tb, htarget⟩ := dataTarget_plain h
  obtain ⟨hal, hbare, -, -⟩ := h
  refine ⟨_, htarget, ?_⟩
  rw [dataTarget, (aligned_iff n va).2 hal] at htarget
  rcases translateCached_ok htarget with ⟨e, -, -, ht⟩ | ⟨u, hu, ht⟩
  · exact .inl ht
  · rw [translate_bare hbare] at hu
    cases hu
    rcases ht with ⟨r, hr, ht⟩ | ⟨-, ht⟩
    · exact .inr ⟨r, hr, ht⟩
    · exact .inl ht

/-- The entry that the identity translation installs is one of the identity translation: what was plain stays plain. -/
theorem PlainAccess.installTlb {s : State} {k : AccessKind} {n n' : AccessSize} {va va' : Word} {r r' : Range}
    (hs : s.StorageInv) (h : PlainAccess s k n va (.ram r)) (h' : PlainAccess s k n' va' (.ram r')) :
    PlainAccess (s.installTlb k va va r) k n' va' (.ram r') := by
  obtain ⟨-, -, -, hclass⟩ := h
  obtain ⟨hal, hbare, hhit, hclass'⟩ := h'
  have hwf := tlbWf_of_storage hs k
  simp only [tlbWf, Bool.and_eq_true] at hwf
  refine ⟨hal, by simpa [State.effectivePriv] using hbare, ?_, by simpa using hclass'⟩
  rw [State.installTlb, tlb_setTlb_self, Tlb.lookup_insert hwf.1]
  split
  · next hpage =>
    have hregion := classify_ram_page hs.platform hclass hpage
    rw [hclass'] at hregion
    cases hregion
    simp [tlbEntryFor]
  · split
    · rfl
    · exact hhit

end Sys2Proof.Machine
end

section
/-! PROOFS. The fetch and the step around it (20_memory.md R122, R123; 60_exceptions.md R424; 70_reset_and_hazards.md
R482). -/

namespace Sys2Proof.Machine

open Sys2Proof

/-! ## A step by what it finds (70_reset_and_hazards.md R482) -/

section Step

variable {s t : State} {raw : RawInstr}

theorem step_halted (h : s.halted = true) : step s = .next s := by
  rw [step, if_pos h]

theorem step_interrupt {c : Nat} (hh : s.halted = false) (hc : pendingInterrupt s = some c) :
    step s = .next (trapEntry c true 0#32 s) := by
  simp [step, hh, hc]

theorem step_of_raise {e : Exc} (hh : s.halted = false) (hp : pendingInterrupt s = none)
    (hf : fetchInstr s = .raise e t) : step s = .next (takeException e t) := by
  simp [step, hh, hp, instrStep, hf]

theorem step_of_fetch (hh : s.halted = false) (hp : pendingInterrupt s = none) (hf : fetchInstr s = .ok raw t) :
    step s = runRaw raw t := by
  simp [step, hh, hp, instrStep, hf]

theorem runRaw_ok {i : Instr} (h : decodeRaw raw = .ok i) : runRaw raw t = exec i t := by
  rw [runRaw, h]

theorem runRaw_error {d : DecodeError} (h : decodeRaw raw = .error d) :
    runRaw raw t = .next (takeException (.illegalInstruction raw.toWord) t) := by
  rw [runRaw, h]

end Step

/-- Settles O6: `fetchInstr_only` is the frame of the fetch. -/
theorem stepRunsDecodedInstruction : Obligations.StepRunsDecodedInstruction := by
  intro s t raw i hh hp hf hi
  have honly := fetchInstr_only s
  rw [hf] at honly
  exact ⟨(step_of_fetch hh hp hf).trans (runRaw_ok hi), honly, honly.pc, honly.mcycle⟩

/-! ## What a fetch raises (20_memory.md R122, R123) -/

section Fetch

variable {va : Word} {s t : State} {e : Exc}

theorem fetch16_eq (va : Word) (s : State) :
    fetch16 va s = (dataTarget va .half .fetch s).bind fun g u => fetchTarget g va u := by
  unfold fetch16 dataTarget
  split <;> rfl

theorem fetchTarget_raise {g : Target} (h : fetchTarget g va s = .raise e t) : e = .instrAccessFault va := by
  unfold fetchTarget at h
  split at h
  · cases h
  · exact (Access.raise.inj h).1.symm
  · exact (Access.raise.inj h).1.symm

theorem fetch16_aligned {lo : Half} (h : fetch16 va s = .ok lo t) : misaligned .half va = false := by
  unfold fetch16 at h
  split at h
  · cases h
  · next hal => simpa using hal

theorem fetch16_raise (h : fetch16 va s = .raise e t) :
    (misaligned .half va = true ∧ e = .instrAddrMisaligned va) ∨ e = .instrAccessFault va ∨ e = .instrPageFault va := by
  rw [fetch16_eq] at h
  rcases Access.bind_raise h with h | ⟨g, u, -, h⟩
  · rcases dataTarget_raise h with ⟨hal, he, -⟩ | he | he
    · exact .inl ⟨hal, he⟩
    · exact .inr (.inr he)
    · exact .inr (.inl he)
  · exact .inr (.inl (fetchTarget_raise h))

theorem fetch16_pc {lo : Half} (h : fetch16 va s = .ok lo t) : t.pc = s.pc := by
  have honly := fetch16_only va s
  rw [h] at honly
  exact honly.pc

theorem misaligned_half_add_two (va : Word) : misaligned .half (va + 2) = misaligned .half va := by
  rw [Bool.eq_iff_iff, misaligned_half, misaligned_half, BitVec.toNat_add]
  have : (2 : Word).toNat = 2 := rfl
  omega

/-- A misaligned fetch is one of the first halfword: where that is aligned, so is the second. -/
theorem fetchInstr_raise (h : fetchInstr s = .raise e t) : e = .instrAddrMisaligned s.pc ∨
    ∃ a, (a = s.pc ∨ a = s.pc + 2) ∧ (e = .instrAccessFault a ∨ e = .instrPageFault a) := by
  rcases Access.bind_raise h with h | ⟨lo, u, hlo, h⟩
  · rcases fetch16_raise h with ⟨-, he⟩ | he
    · exact .inl he
    · exact .inr ⟨s.pc, .inl rfl, he⟩
  · split at h
    · rcases Access.bind_raise h with h | ⟨hi, w, -, h⟩
      · rw [fetch16_pc hlo] at h
        rcases fetch16_raise h with ⟨hal, -⟩ | he
        · rw [misaligned_half_add_two, fetch16_aligned hlo] at hal
          cases hal
        · exact .inr ⟨s.pc + 2, .inr rfl, he⟩
      · cases h
    · cases h

theorem fetchInstr_of_raise (h : fetch16 s.pc s = .raise e t) : fetchInstr s = .raise e t := by
  rw [fetchInstr, h, Access.bind]

theorem fetchInstr_odd (h : s.pc.getLsbD 0 = true) : fetchInstr s = .raise (.instrAddrMisaligned s.pc) s := by
  have hodd : s.pc.toNat % sizeBytes .half ≠ 0 := by
    simp only [BitVec.getLsbD, Nat.testBit_zero, decide_eq_true_eq] at h
    simp only [sizeBytes]
    omega
  apply fetchInstr_of_raise
  rw [fetch16_eq, dataTarget_misaligned hodd]
  rfl

/-- A fetch from what is not RAM: no bus access, and no translation kept. -/
theorem fetchInstr_outside_ram {b : Backing} (h : PlainAccess s .fetch .half s.pc b) (hb : ∀ r, b ≠ .ram r) :
    fetchInstr s = .raise (.instrAccessFault s.pc) s := by
  apply fetchInstr_of_raise
  obtain ⟨t, htarget, rfl | ⟨r, hr, -⟩⟩ := dataTarget_plain_state h
  · rw [fetch16_eq, htarget]
    cases b with
    | ram r => exact absurd rfl (hb r)
    | mmio d | unmapped => rfl
  · exact absurd hr (hb r)

end Fetch

/-- Settles O8, one iteration after the other. -/
theorem stepWithoutInstruction : Obligations.StepWithoutInstruction := by
  intro s
  refine ⟨step_halted, fun c => step_interrupt, fun hh hp => ⟨fun e t hf => ?_, fun raw d t hf hd => ?_, fun hodd => ?_,
    fun b h hb => ?_⟩⟩
  · have honly := fetchInstr_only s
    rw [hf] at honly
    exact ⟨step_of_raise hh hp hf, honly, fetchInstr_raise hf⟩
  · exact (step_of_fetch hh hp hf).trans (runRaw_error hd)
  · exact step_of_raise hh hp (fetchInstr_odd hodd)
  · exact step_of_raise hh hp (fetchInstr_outside_ram h hb)

/-! ## The fetch of the bytes at `pc` (20_memory.md R104, R123) -/

theorem extractLsb'_load_half (m : Memory) (pa : Word) :
    (m.load pa .half).extractLsb' 0 16 = m.byteAt (pa + 1) ++ m.byteAt pa :=
  (BitVec.extractLsb'_setWidth_of_le (by decide)).trans BitVec.extractLsb'_eq_self

/-- The low two bits of the first byte tell the length (30_encoding.md R170). -/
theorem isLong_append (b1 b0 : Byte) : isLong (b1 ++ b0) = true ↔ b0.extractLsb' 0 2 = 3#2 := by
  have hlow : (b1 ++ b0 : Half).extractLsb' 0 2 = b0.extractLsb' 0 2 :=
    BitVec.extractLsb'_append_eq_of_add_le (by decide)
  rw [isLong, hlow, beq_iff_eq]

/-- What the decoder makes of four bytes: the first two, or all of them. -/
theorem decodeBytes_four {b0 b1 b2 b3 : Byte} {i : Instr} {rest : List Byte}
    (h : decodeBytes [b0, b1, b2, b3] = .ok (i, rest)) :
    decodeRaw (if isLong (b1 ++ b0) then .full (b3 ++ b2 ++ (b1 ++ b0)) else .half (b1 ++ b0)) = .ok i := by
  simp only [decodeBytes] at h
  split at h
  · next hlong =>
    rw [if_pos hlong]
    split at h
    · next j hj => cases h; exact hj
    · cases h
  · next hshort =>
    rw [if_neg hshort]
    split at h
    · next j hj => cases h; exact hj
    · cases h

/-- A halfword of RAM fetched under the identity translation; the fetch translation cache may gain the entry of its page,
which disturbs no other such fetch. -/
theorem fetch16_plain {s : State} {va : Word} {r : Range} (hs : s.StorageInv)
    (h : PlainAccess s .fetch .half va (.ram r)) :
    ∃ t, fetch16 va s = .ok (s.mem.byteAt (va + 1) ++ s.mem.byteAt va) t ∧ t = { s with fetchTlb := t.fetchTlb } ∧
      ∀ va' r', PlainAccess s .fetch .half va' (.ram r') → PlainAccess t .fetch .half va' (.ram r') := by
  have fetched : ∀ {t}, dataTarget va .half .fetch s = .ok { pa := va, backing := .ram r } t → t.mem = s.mem →
      fetch16 va s = .ok (s.mem.byteAt (va + 1) ++ s.mem.byteAt va) t := by
    intro t htarget hmem
    rw [fetch16_eq, htarget]
    simp only [Access.bind, fetchTarget, hmem, extractLsb'_load_half]
  obtain ⟨t, htarget, rfl | ⟨r', hr, rfl⟩⟩ := dataTarget_plain_state h
  · exact ⟨_, fetched htarget rfl, rfl, fun _ _ h' => h'⟩
  · cases hr
    exact ⟨_, fetched htarget rfl, rfl, fun _ _ h' => h.installTlb hs h'⟩

/-- The fetch under the identity translation reads the bytes at `pc`, two of them or four. -/
theorem fetchInstr_plain {s : State} (hs : s.StorageInv) (hlo : ∃ r, PlainAccess s .fetch .half s.pc (.ram r))
    (hhi : (s.mem.byteAt s.pc).extractLsb' 0 2 = 3#2 → ∃ r, PlainAccess s .fetch .half (s.pc + 2) (.ram r)) :
    ∃ t, t = { s with fetchTlb := t.fetchTlb } ∧
      fetchInstr s = .ok (if isLong (s.mem.byteAt (s.pc + 1) ++ s.mem.byteAt s.pc)
        then .full (s.mem.byteAt (s.pc + 3) ++ s.mem.byteAt (s.pc + 2) ++ (s.mem.byteAt (s.pc + 1) ++ s.mem.byteAt s.pc))
        else .half (s.mem.byteAt (s.pc + 1) ++ s.mem.byteAt s.pc)) t := by
  obtain ⟨r, hlo⟩ := hlo
  obtain ⟨t, hfetch, ht, hkeep⟩ := fetch16_plain hs hlo
  have htm : t.mem = s.mem := by rw [ht]
  have htpc : t.pc = s.pc := by rw [ht]
  rw [fetchInstr, hfetch, Access.bind]
  split
  · next hlong =>
    obtain ⟨r', hhi⟩ := hhi ((isLong_append _ _).1 hlong)
    have hts : t.StorageInv := by
      have := fetch16_storage hs (va := s.pc)
      rwa [hfetch] at this
    obtain ⟨u, hfetch', hu, -⟩ := fetch16_plain hts (hkeep _ _ hhi)
    have hnext : s.pc + 2 + 1 = s.pc + 3 := by rw [BitVec.add_assoc]; rfl
    rw [htpc, hfetch', htm, hnext]
    exact ⟨u, by rw [hu, ht], rfl⟩
  · exact ⟨t, ht, rfl⟩

/-- Settles O7: what the fetch reads is what the decoder reads from the same bytes. -/
theorem stepRunsBytesAtPc : Obligations.StepRunsBytesAtPc := by
  intro s i rest hs hh hp hlo hhi hi
  obtain ⟨t, ht, hfetch⟩ := fetchInstr_plain hs hlo hhi
  exact ⟨t, ht, (step_of_fetch hh hp hfetch).trans (runRaw_ok (decodeBytes_four hi))⟩

end Sys2Proof.Machine
end

section
/-! PROOFS. The formats of the encodings, one equivalence each: a word is the format's word with these operands iff its
fields are these (30_encoding.md R171, R172, R175, R180, R182; 48_compressed.md). -/

namespace Sys2Proof

/-! ## Small fields -/

theorem not_eq_one_iff {b : BitVec 1} : ¬ b = 1#1 ↔ b = 0#1 := by
  revert b
  decide

theorem twoBits_cases (b : BitVec 2) : b = 0#2 ∨ b = 1#2 ∨ b = 2#2 ∨ b = 3#2 := by
  revert b
  decide

theorem funct3_cases (f : BitVec 3) :
    f = 0#3 ∨ f = 1#3 ∨ f = 2#3 ∨ f = 3#3 ∨ f = 4#3 ∨ f = 5#3 ∨ f = 6#3 ∨ f = 7#3 := by
  revert f
  decide

/-! ## Slices of concatenations -/

/-- The rewriting set that takes a slice of a concatenation apart and puts neighbouring slices together. -/
theorem slice_rules :
    (∀ {v w start len : Nat} {hi : BitVec v} {lo : BitVec w}, start + len ≤ w →
      (hi ++ lo).extractLsb' start len = lo.extractLsb' start len) ∧
    (∀ {v w start len : Nat} {hi : BitVec v} {lo : BitVec w}, w ≤ start →
      (hi ++ lo).extractLsb' start len = hi.extractLsb' (start - w) len) ∧
    (∀ {w start len start' len' : Nat} {x : BitVec w}, start + len ≤ len' →
      (x.extractLsb' start' len').extractLsb' start len = x.extractLsb' (start' + start) len) ∧
    (∀ {w start len start' len' : Nat} {x : BitVec w}, start' = start + len →
      x.extractLsb' start' len' ++ x.extractLsb' start len = x.extractLsb' start (len' + len)) ∧
    (∀ {w : Nat} {x : BitVec w}, x.extractLsb' 0 w = x) := by
  refine ⟨BitVec.extractLsb'_append_eq_of_add_le, BitVec.extractLsb'_append_eq_of_le, fun h => ?_,
    BitVec.extractLsb'_append_extractLsb'_eq_extractLsb', BitVec.extractLsb'_eq_self⟩
  ext i hi
  simpa [Nat.add_assoc] using fun _ => by omega

theorem getLsbD_eq_iff {w : Nat} {x : BitVec w} {k : Nat} {b : Bool} :
    x.getLsbD k = b ↔ x.extractLsb' k 1 = BitVec.ofBool b := by
  rw [BitVec.getLsbD_eq_extractLsb']
  generalize x.extractLsb' k 1 = y
  revert y b
  decide

theorem getLsbD_eq_true_iff {w k : Nat} {x : BitVec w} : x.getLsbD k = true ↔ x.extractLsb' k 1 = 1#1 :=
  getLsbD_eq_iff

theorem getLsbD_eq_false_iff {w : Nat} {x : BitVec w} {k : Nat} : x.getLsbD k = false ↔ x.extractLsb' k 1 = 0#1 :=
  getLsbD_eq_iff

/-- A scaled offset is its upper bits and its zeros. -/
theorem append_zeros_of_lowZero {m n : Nat} {v : BitVec (m + n)} (h : lowZero n v = true) :
    v.extractLsb' n m ++ 0#n = v := by
  have hmod : v.toNat % 2 ^ n = 0 := by simpa [lowZero] using h
  have hzero : v.extractLsb' 0 n = 0#n := BitVec.eq_of_toNat_eq (by simpa using hmod)
  rw [← hzero]
  exact BitVec.extractLsb'_append_extractLsb'

theorem lowZero_append_zeros {m n : Nat} (x : BitVec m) : lowZero n (x ++ 0#n) = true := by
  simp [lowZero, BitVec.toNat_append, Nat.shiftLeft_eq]

theorem append_eq_zero_iff {m n : Nat} {x : BitVec m} {y : BitVec n} : x ++ y = 0#(m + n) ↔ x = 0#m ∧ y = 0#n := by
  constructor
  · intro h
    have hx := congrArg (BitVec.extractLsb' n m) h
    have hy := congrArg (BitVec.extractLsb' 0 n) h
    rw [BitVec.extractLsb'_append_eq_left, BitVec.extractLsb'_zero] at hx
    rw [BitVec.extractLsb'_append_eq_right, BitVec.extractLsb'_zero] at hy
    exact ⟨hx, hy⟩
  · rintro ⟨rfl, rfl⟩
    exact BitVec.zero_append_zero

/-! ## Register fields -/

@[simp] theorem Reg.bits_toFin (b : BitVec 5) : Reg.bits b.toFin = b := rfl

@[simp] theorem Reg.toFin_bits (r : Reg) : (Reg.bits r).toFin = r := rfl

theorem Reg.bits_zero : Reg.bits 0 = 0#5 := rfl

@[simp] theorem CReg.bits_toFin (b : BitVec 3) : CReg.bits b.toFin = b := rfl

@[simp] theorem CReg.toFin_bits (r : CReg) : (CReg.bits r).toFin = r := rfl

theorem toFin_eq_zero_iff {b : BitVec 5} : (b.toFin : Reg) = 0 ↔ b = 0#5 :=
  ⟨congrArg Reg.bits, congrArg BitVec.toFin⟩

theorem rdOf_eq_zero_iff {w : Word} : rdOf w = 0 ↔ w.extractLsb' 7 5 = 0#5 := toFin_eq_zero_iff

theorem rs2Of_eq_zero_iff {w : Word} : rs2Of w = 0 ↔ w.extractLsb' 20 5 = 0#5 := toFin_eq_zero_iff

theorem cRdOf_eq_zero_iff {c : Half} : cRdOf c = 0 ↔ c.extractLsb' 7 5 = 0#5 := toFin_eq_zero_iff

theorem cRs2Of_eq_zero_iff {c : Half} : cRs2Of c = 0 ↔ c.extractLsb' 2 5 = 0#5 := toFin_eq_zero_iff

/-! ## The formats of a 32-bit word -/

section Word

variable {w : Word} {f7 : BitVec 7} {f5 : BitVec 5} {f3 : BitVec 3} {op : BitVec 7} {rd rs1 rs2 : Reg}

theorem encR_eq_iff : encR f7 rs2 rs1 f3 rd op = w ↔
    opcodeOf w = op ∧ funct3Of w = f3 ∧ funct7Of w = f7 ∧ rdOf w = rd ∧ rs1Of w = rs1 ∧ rs2Of w = rs2 := by
  constructor
  · rintro rfl
    simp (disch := decide) only [encR, opcodeOf, funct3Of, funct7Of, rdOf, rs1Of, rs2Of, slice_rules, Nat.reduceSub,
      Reg.toFin_bits, and_self]
  · rintro ⟨rfl, rfl, rfl, rfl, rfl, rfl⟩
    simp (disch := decide) only [encR, opcodeOf, funct3Of, funct7Of, rdOf, rs1Of, rs2Of, Reg.bits_toFin, slice_rules]

theorem encShift_eq_iff {shamt : BitVec 5} : encShift f7 shamt rs1 f3 rd = w ↔
    opcodeOf w = 0x13#7 ∧ funct3Of w = f3 ∧ funct7Of w = f7 ∧ rdOf w = rd ∧ rs1Of w = rs1 ∧ shamtOf w = shamt := by
  constructor
  · rintro rfl
    simp (disch := decide) only [encShift, opcodeOf, funct3Of, funct7Of, rdOf, rs1Of, shamtOf, slice_rules,
      Nat.reduceSub, Reg.toFin_bits, and_self]
  · rintro ⟨hop, rfl, rfl, rfl, rfl, rfl⟩
    simp (disch := decide) only [encShift, ← hop, opcodeOf, funct3Of, funct7Of, rdOf, rs1Of, shamtOf, Reg.bits_toFin,
      slice_rules]

theorem encAmo_eq_iff {aq rl : Bool} : encAmo f5 aq rl rs2 rs1 rd = w ↔
    opcodeOf w = 0x2F#7 ∧ funct3Of w = 2#3 ∧ funct5Of w = f5 ∧ aqOf w = aq ∧ rlOf w = rl ∧ rdOf w = rd ∧
      rs1Of w = rs1 ∧ rs2Of w = rs2 := by
  simp only [aqOf, rlOf, getLsbD_eq_iff]
  constructor
  · rintro rfl
    simp (disch := decide) only [encAmo, opcodeOf, funct3Of, funct5Of, rdOf, rs1Of, rs2Of, slice_rules, Nat.reduceSub,
      Reg.toFin_bits, and_self]
  · rintro ⟨hop, hf3, rfl, haq, hrl, rfl, rfl, rfl⟩
    simp (disch := decide) only [encAmo, ← hop, ← hf3, ← haq, ← hrl, opcodeOf, funct3Of, funct5Of, rdOf, rs1Of, rs2Of,
      Reg.bits_toFin, slice_rules]

theorem encI_eq_iff {imm : BitVec 12} : encI imm rs1 f3 rd op = w ↔
    opcodeOf w = op ∧ funct3Of w = f3 ∧ rdOf w = rd ∧ rs1Of w = rs1 ∧ immIOf w = imm := by
  constructor
  · rintro rfl
    simp (disch := decide) only [encI, opcodeOf, funct3Of, rdOf, rs1Of, immIOf, slice_rules, Nat.reduceSub,
      Reg.toFin_bits, and_self]
  · rintro ⟨rfl, rfl, rfl, rfl, rfl⟩
    simp (disch := decide) only [encI, opcodeOf, funct3Of, rdOf, rs1Of, immIOf, Reg.bits_toFin, slice_rules]

/-- The three fields of FENCE share the place of `imm_I` (43_misc_mem.md R270). -/
theorem immIOf_eq_append_iff {fm pred succ : BitVec 4} : immIOf w = fm ++ pred ++ succ ↔
    w.extractLsb' 28 4 = fm ∧ w.extractLsb' 24 4 = pred ∧ w.extractLsb' 20 4 = succ := by
  constructor
  · intro h
    have slice (start : Nat) (hle : start + 4 ≤ 12) :
        w.extractLsb' (20 + start) 4 = (fm ++ pred ++ succ).extractLsb' start 4 := by
      simp only [← h, immIOf, slice_rules, hle]
    refine ⟨(slice 8 (by decide)).trans ?_, (slice 4 (by decide)).trans ?_, (slice 0 (by decide)).trans ?_⟩ <;>
      simp (disch := decide) only [slice_rules, Nat.reduceSub]
  · rintro ⟨rfl, rfl, rfl⟩
    simp (disch := decide) only [immIOf, slice_rules]

theorem encCsrI_eq_iff {csr : BitVec 12} {uimm : BitVec 5} : encCsrI csr uimm f3 rd = w ↔
    opcodeOf w = 0x73#7 ∧ funct3Of w = f3 ∧ rdOf w = rd ∧ uimmOf w = uimm ∧ immIOf w = csr := by
  constructor
  · rintro rfl
    simp (disch := decide) only [encCsrI, opcodeOf, funct3Of, rdOf, uimmOf, immIOf, slice_rules, Nat.reduceSub,
      Reg.toFin_bits, and_self]
  · rintro ⟨hop, rfl, rfl, rfl, rfl⟩
    simp (disch := decide) only [encCsrI, ← hop, opcodeOf, funct3Of, rdOf, uimmOf, immIOf, Reg.bits_toFin, slice_rules]

theorem encS_eq_iff {imm : BitVec 12} : encS imm rs2 rs1 f3 = w ↔
    opcodeOf w = 0x23#7 ∧ funct3Of w = f3 ∧ rs1Of w = rs1 ∧ rs2Of w = rs2 ∧ immSOf w = imm := by
  constructor
  · rintro rfl
    simp (disch := decide) only [encS, opcodeOf, funct3Of, rs1Of, rs2Of, immSOf, slice_rules, Nat.reduceSub,
      Nat.add_zero, Reg.toFin_bits, and_self]
  · rintro ⟨hop, rfl, rfl, rfl, rfl⟩
    simp (disch := decide) only [encS, ← hop, opcodeOf, funct3Of, rs1Of, rs2Of, immSOf, Reg.bits_toFin, slice_rules,
      Nat.reduceSub]

theorem encB_eq_iff {off : BitVec 13} (hoff : lowZero 1 off = true) : encB off rs2 rs1 f3 = w ↔
    opcodeOf w = 0x63#7 ∧ funct3Of w = f3 ∧ rs1Of w = rs1 ∧ rs2Of w = rs2 ∧ immBOf w = off := by
  constructor
  · rintro rfl
    simp (disch := decide) only [encB, opcodeOf, funct3Of, rs1Of, rs2Of, immBOf, slice_rules, Nat.reduceSub,
      Reg.toFin_bits, true_and]
    exact append_zeros_of_lowZero hoff
  · rintro ⟨hop, rfl, rfl, rfl, rfl⟩
    simp (disch := decide) only [encB, ← hop, opcodeOf, funct3Of, rs1Of, rs2Of, immBOf, Reg.bits_toFin, slice_rules,
      Nat.reduceSub]

theorem lowZero_immBOf (w : Word) : lowZero 1 (immBOf w) = true := lowZero_append_zeros _

theorem encU_eq_iff {imm : BitVec 20} : encU imm rd op = w ↔ opcodeOf w = op ∧ rdOf w = rd ∧ immUOf w = imm := by
  constructor
  · rintro rfl
    simp (disch := decide) only [encU, opcodeOf, rdOf, immUOf, slice_rules, Nat.reduceSub,
      Reg.toFin_bits, and_self]
  · rintro ⟨rfl, rfl, rfl⟩
    simp (disch := decide) only [encU, opcodeOf, rdOf, immUOf, Reg.bits_toFin, slice_rules]

theorem encJ_eq_iff {off : BitVec 21} (hoff : lowZero 1 off = true) : encJ off rd = w ↔
    opcodeOf w = 0x6F#7 ∧ rdOf w = rd ∧ immJOf w = off := by
  constructor
  · rintro rfl
    simp (disch := decide) only [encJ, opcodeOf, rdOf, immJOf, slice_rules, Nat.reduceSub,
      Reg.toFin_bits, true_and]
    exact append_zeros_of_lowZero hoff
  · rintro ⟨hop, rfl, rfl⟩
    simp (disch := decide) only [encJ, ← hop, opcodeOf, rdOf, immJOf, Reg.bits_toFin, slice_rules, Nat.reduceSub]

theorem lowZero_immJOf (w : Word) : lowZero 1 (immJOf w) = true := lowZero_append_zeros _

end Word

/-! ## The formats of a 16-bit word -/

section Half

variable {c : Half} {f3 : BitVec 3} {q f2 : BitVec 2} {rd rs2 : Reg} {high low : CReg}

theorem encCI_eq_iff {imm : BitVec 6} : encCI f3 imm rd q = c ↔
    c.extractLsb' 0 2 = q ∧ cFunct3Of c = f3 ∧ cRdOf c = rd ∧ cImm6Of c = imm := by
  constructor
  · rintro rfl
    simp (disch := decide) only [encCI, cFunct3Of, cRdOf, cImm6Of, slice_rules, Nat.reduceSub, Nat.add_zero,
      Reg.toFin_bits, and_self]
  · rintro ⟨rfl, rfl, rfl, rfl⟩
    simp (disch := decide) only [encCI, cFunct3Of, cRdOf, cImm6Of, Reg.bits_toFin, slice_rules, Nat.reduceSub]

theorem encCL_eq_iff {uimm : BitVec 7} (huimm : lowZero 2 uimm = true) : encCL f3 uimm high low = c ↔
    c.extractLsb' 0 2 = 0#2 ∧ cFunct3Of c = f3 ∧ cHighOf c = high ∧ cLowOf c = low ∧ cUimmLwOf c = uimm := by
  constructor
  · rintro rfl
    simp (disch := decide) only [encCL, cFunct3Of, cHighOf, cLowOf, cUimmLwOf, slice_rules, Nat.reduceSub,
      CReg.toFin_bits, true_and]
    exact append_zeros_of_lowZero huimm
  · rintro ⟨hq, rfl, rfl, rfl, rfl⟩
    simp (disch := decide) only [encCL, ← hq, cFunct3Of, cHighOf, cLowOf, cUimmLwOf, CReg.bits_toFin, slice_rules,
      Nat.reduceSub]

theorem lowZero_cUimmLwOf (c : Half) : lowZero 2 (cUimmLwOf c) = true := lowZero_append_zeros _

theorem encCShift_eq_iff {shamt : BitVec 5} : encCShift f2 shamt high = c ↔
    c.extractLsb' 0 2 = 1#2 ∧ cFunct3Of c = 4#3 ∧ c.getLsbD 12 = false ∧ c.extractLsb' 10 2 = f2 ∧
      cHighOf c = high ∧ cShamtOf c = shamt := by
  rw [getLsbD_eq_false_iff]
  constructor
  · rintro rfl
    simp (disch := decide) only [encCShift, cFunct3Of, cHighOf, cShamtOf, slice_rules, Nat.reduceSub,
      CReg.toFin_bits, and_self]
  · rintro ⟨hq, hf3, h12, rfl, rfl, rfl⟩
    simp (disch := decide) only [encCShift, ← hq, ← hf3, ← h12, cFunct3Of, cHighOf, cShamtOf,
      CReg.bits_toFin, slice_rules]

theorem encCA_eq_iff : encCA f2 high low = c ↔
    c.extractLsb' 0 2 = 1#2 ∧ cFunct3Of c = 4#3 ∧ c.getLsbD 12 = false ∧ c.extractLsb' 10 2 = 3#2 ∧
      c.extractLsb' 5 2 = f2 ∧ cHighOf c = high ∧ cLowOf c = low := by
  rw [getLsbD_eq_false_iff]
  constructor
  · rintro rfl
    simp (disch := decide) only [encCA, cFunct3Of, cHighOf, cLowOf, slice_rules, Nat.reduceSub,
      CReg.toFin_bits, and_self]
    decide
  · rintro ⟨hq, hf3, h12, h10, rfl, rfl, rfl⟩
    have htop : 0x23#6 = cFunct3Of c ++ c.extractLsb' 12 1 ++ c.extractLsb' 10 2 := by rw [hf3, h12, h10]; rfl
    simp (disch := decide) only [encCA, ← hq, htop, cFunct3Of, cHighOf, cLowOf, CReg.bits_toFin, slice_rules]

theorem encCJ_eq_iff {off : BitVec 12} (hoff : lowZero 1 off = true) : encCJ f3 off = c ↔
    c.extractLsb' 0 2 = 1#2 ∧ cFunct3Of c = f3 ∧ cOffJOf c = off := by
  constructor
  · rintro rfl
    simp (disch := decide) only [encCJ, cFunct3Of, cOffJOf, slice_rules, Nat.reduceSub, true_and]
    exact append_zeros_of_lowZero hoff
  · rintro ⟨hq, rfl, rfl⟩
    simp (disch := decide) only [encCJ, ← hq, cFunct3Of, cOffJOf, slice_rules, Nat.reduceSub]

theorem lowZero_cOffJOf (c : Half) : lowZero 1 (cOffJOf c) = true := lowZero_append_zeros _

theorem encCB_eq_iff {off : BitVec 9} (hoff : lowZero 1 off = true) : encCB f3 off high = c ↔
    c.extractLsb' 0 2 = 1#2 ∧ cFunct3Of c = f3 ∧ cHighOf c = high ∧ cOffBOf c = off := by
  constructor
  · rintro rfl
    simp (disch := decide) only [encCB, cFunct3Of, cHighOf, cOffBOf, slice_rules, Nat.reduceSub, CReg.toFin_bits,
      true_and]
    exact append_zeros_of_lowZero hoff
  · rintro ⟨hq, rfl, rfl, rfl⟩
    simp (disch := decide) only [encCB, ← hq, cFunct3Of, cHighOf, cOffBOf, CReg.bits_toFin, slice_rules, Nat.reduceSub]

theorem lowZero_cOffBOf (c : Half) : lowZero 1 (cOffBOf c) = true := lowZero_append_zeros _

theorem encCR_eq_iff {f4 : BitVec 4} : encCR f4 rd rs2 = c ↔
    c.extractLsb' 0 2 = 2#2 ∧ cFunct3Of c = f4.extractLsb' 1 3 ∧ c.getLsbD 12 = f4.getLsbD 0 ∧ cRdOf c = rd ∧
      cRs2Of c = rs2 := by
  rw [getLsbD_eq_iff, ← getLsbD_eq_iff.mp rfl]
  constructor
  · rintro rfl
    simp (disch := decide) only [encCR, cFunct3Of, cRdOf, cRs2Of, slice_rules, Nat.reduceSub, Reg.toFin_bits, and_self]
  · rintro ⟨hq, hf3, h12, rfl, rfl⟩
    have htop : f4 = cFunct3Of c ++ c.extractLsb' 12 1 := by
      simp (disch := decide) only [hf3, h12, slice_rules]
    simp (disch := decide) only [encCR, ← hq, htop, cFunct3Of, cRdOf, cRs2Of, Reg.bits_toFin, slice_rules]

end Half

/-! ## The 16-bit instructions with a format of their own -/

section Half

variable {c : Half} {rd : Reg} {crd : CReg}

theorem encode_cAddi4spn_eq_iff {uimm : BitVec 10} (huimm : lowZero 2 uimm = true) :
    encode (.cAddi4spn crd uimm) = .half c ↔
      c.extractLsb' 0 2 = 0#2 ∧ cFunct3Of c = 0#3 ∧ cLowOf c = crd ∧ cUimm4spnOf c = uimm := by
  rw [encode, RawInstr.half.injEq]
  constructor
  · rintro rfl
    simp (disch := decide) only [cFunct3Of, cLowOf, cUimm4spnOf, slice_rules, Nat.reduceSub, CReg.toFin_bits, true_and]
    exact append_zeros_of_lowZero huimm
  · rintro ⟨hq, hf3, rfl, rfl⟩
    simp (disch := decide) only [← hq, ← hf3, cFunct3Of, cLowOf, cUimm4spnOf, CReg.bits_toFin, slice_rules,
      Nat.reduceSub]

theorem lowZero_cUimm4spnOf (c : Half) : lowZero 2 (cUimm4spnOf c) = true := lowZero_append_zeros _

theorem encode_cAddi16sp_eq_iff {imm : BitVec 10} (himm : lowZero 4 imm = true) :
    encode (.cAddi16sp imm) = .half c ↔
      c.extractLsb' 0 2 = 1#2 ∧ cFunct3Of c = 3#3 ∧ cRdOf c = 2 ∧ cImm16spOf c = imm := by
  rw [encode, RawInstr.half.injEq]
  constructor
  · rintro rfl
    simp (disch := decide) only [cFunct3Of, cRdOf, cImm16spOf, slice_rules, Nat.reduceSub, true_and]
    exact ⟨rfl, append_zeros_of_lowZero himm⟩
  · rintro ⟨hq, hf3, hrd, rfl⟩
    have hsp : 2#5 = c.extractLsb' 7 5 := congrArg Reg.bits hrd.symm
    simp (disch := decide) only [← hq, ← hf3, hsp, cFunct3Of, cImm16spOf, slice_rules, Nat.reduceSub]

theorem lowZero_cImm16spOf (c : Half) : lowZero 4 (cImm16spOf c) = true := lowZero_append_zeros _

theorem encode_cAndi_eq_iff {imm : BitVec 6} : encode (.cAndi crd imm) = .half c ↔
    c.extractLsb' 0 2 = 1#2 ∧ cFunct3Of c = 4#3 ∧ c.extractLsb' 10 2 = 2#2 ∧ cHighOf c = crd ∧ cImm6Of c = imm := by
  rw [encode, RawInstr.half.injEq]
  constructor
  · rintro rfl
    simp (disch := decide) only [cFunct3Of, cHighOf, cImm6Of, slice_rules, Nat.reduceSub, Nat.add_zero,
      CReg.toFin_bits, and_self]
  · rintro ⟨hq, hf3, h10, rfl, rfl⟩
    simp (disch := decide) only [← hq, ← hf3, ← h10, cFunct3Of, cHighOf, cImm6Of, CReg.bits_toFin, slice_rules,
      Nat.reduceSub]

theorem encode_cSlli_eq_iff {shamt : BitVec 5} : encode (.cSlli rd shamt) = .half c ↔
    c.extractLsb' 0 2 = 2#2 ∧ cFunct3Of c = 0#3 ∧ c.getLsbD 12 = false ∧ cRdOf c = rd ∧ cShamtOf c = shamt := by
  rw [encode, RawInstr.half.injEq, getLsbD_eq_false_iff]
  constructor
  · rintro rfl
    simp (disch := decide) only [cFunct3Of, cRdOf, cShamtOf, slice_rules, Nat.reduceSub, Reg.toFin_bits, and_self]
  · rintro ⟨hq, hf3, h12, rfl, rfl⟩
    simp (disch := decide) only [← hq, ← hf3, ← h12, cFunct3Of, cRdOf, cShamtOf, Reg.bits_toFin,
      slice_rules]

theorem encode_cLwsp_eq_iff {uimm : BitVec 8} (huimm : lowZero 2 uimm = true) : encode (.cLwsp rd uimm) = .half c ↔
    c.extractLsb' 0 2 = 2#2 ∧ cFunct3Of c = 2#3 ∧ cRdOf c = rd ∧ cUimmLwspOf c = uimm := by
  rw [encode, RawInstr.half.injEq]
  constructor
  · rintro rfl
    simp (disch := decide) only [cFunct3Of, cRdOf, cUimmLwspOf, slice_rules, Nat.reduceSub, Reg.toFin_bits, true_and]
    exact append_zeros_of_lowZero huimm
  · rintro ⟨hq, hf3, rfl, rfl⟩
    simp (disch := decide) only [← hq, ← hf3, cFunct3Of, cRdOf, cUimmLwspOf, Reg.bits_toFin, slice_rules, Nat.reduceSub]

theorem lowZero_cUimmLwspOf (c : Half) : lowZero 2 (cUimmLwspOf c) = true := lowZero_append_zeros _

theorem encode_cSwsp_eq_iff {uimm : BitVec 8} (huimm : lowZero 2 uimm = true) : encode (.cSwsp rd uimm) = .half c ↔
    c.extractLsb' 0 2 = 2#2 ∧ cFunct3Of c = 6#3 ∧ cRs2Of c = rd ∧ cUimmSwspOf c = uimm := by
  rw [encode, RawInstr.half.injEq]
  constructor
  · rintro rfl
    simp (disch := decide) only [cFunct3Of, cRs2Of, cUimmSwspOf, slice_rules, Nat.reduceSub, Reg.toFin_bits, true_and]
    exact append_zeros_of_lowZero huimm
  · rintro ⟨hq, hf3, rfl, rfl⟩
    simp (disch := decide) only [← hq, ← hf3, cFunct3Of, cRs2Of, cUimmSwspOf, Reg.bits_toFin, slice_rules,
      Nat.reduceSub]

theorem lowZero_cUimmSwspOf (c : Half) : lowZero 2 (cUimmSwspOf c) = true := lowZero_append_zeros _

end Half

end Sys2Proof
end

section
/-! PROOFS. The 32-bit words: the decoder inverts the encoder and drops no bit; the rows of R175 and the undefined words
of R177. -/

namespace Sys2Proof

variable {w : Word} {i : Instr}

/-! ## The decoder reads what was encoded (30_encoding.md R174, R175) -/

/-- No word of the five whole-word rows has the `funct7` of SFENCE.VMA. -/
theorem decodePriv_sfenceVma (hf7 : funct7Of w = 0x09#7) (hrd : rdOf w = 0) :
    decodePriv w = some (.sfenceVma (rs1Of w) (rs2Of w)) := by
  have other : ∀ v : Word, funct7Of v ≠ 0x09#7 → w ≠ v := fun v hv hw => hv (hw ▸ hf7)
  rw [decodePriv, if_neg (other _ (by decide)), if_neg (other _ (by decide)), if_neg (other _ (by decide)),
    if_neg (other _ (by decide)), if_neg (other _ (by decide)), if_pos ⟨hf7, hrd⟩]

theorem decodeWord_of_encode (hw : i.wf = true) (h : encode i = .full w) : decodeWord w = some i := by
  cases i with
  | lui | auipc =>
    simp only [encode, RawInstr.full.injEq, encU_eq_iff] at h
    simp [decodeWord, h]
  | jal =>
    simp only [encode, RawInstr.full.injEq, encJ_eq_iff hw] at h
    simp [decodeWord, h]
  | jalr =>
    simp only [encode, RawInstr.full.injEq, encI_eq_iff] at h
    simp [decodeWord, decodeJalr, h]
  | beq | bne | blt | bge | bltu | bgeu =>
    simp only [encode, RawInstr.full.injEq, encB_eq_iff hw] at h
    simp [decodeWord, decodeBranch, h]
  | lb | lh | lw | lbu | lhu =>
    simp only [encode, RawInstr.full.injEq, encI_eq_iff] at h
    simp [decodeWord, decodeLoad, h]
  | sb | sh | sw =>
    simp only [encode, RawInstr.full.injEq, encS_eq_iff] at h
    simp [decodeWord, decodeStore, h]
  | addi | slti | sltiu | xori | ori | andi =>
    simp only [encode, RawInstr.full.injEq, encI_eq_iff] at h
    simp [decodeWord, decodeOpImm, h]
  | slli | srli | srai =>
    simp only [encode, RawInstr.full.injEq, encShift_eq_iff] at h
    simp [decodeWord, decodeOpImm, h]
  | add | sub | sll | slt | sltu | xor | srl | sra | or | and =>
    simp only [encode, RawInstr.full.injEq, encR_eq_iff] at h
    simp [decodeWord, decodeOp, decodeOpBase, h]
  | mul | mulh | mulhsu | mulhu | div | divu | rem | remu =>
    simp only [encode, RawInstr.full.injEq, encR_eq_iff] at h
    simp [decodeWord, decodeOp, decodeOpMul, h]
  | fence =>
    simp only [encode, RawInstr.full.injEq, encI_eq_iff, immIOf_eq_append_iff] at h
    simp [decodeWord, decodeMiscMem, h]
  | fenceI =>
    simp only [encode, RawInstr.full.injEq, encI_eq_iff] at h
    simp [decodeWord, decodeMiscMem, h]
  | lrW | scW | amoswapW | amoaddW | amoxorW | amoandW | amoorW | amominW | amomaxW | amominuW | amomaxuW =>
    simp only [encode, RawInstr.full.injEq, encAmo_eq_iff] at h
    simp [decodeWord, decodeAmo, decodeAmoWord, h]
  | csrrw | csrrs | csrrc =>
    simp only [encode, RawInstr.full.injEq, encI_eq_iff] at h
    simp [decodeWord, decodeSystem, h]
  | csrrwi | csrrsi | csrrci =>
    simp only [encode, RawInstr.full.injEq, encCsrI_eq_iff] at h
    simp [decodeWord, decodeSystem, h]
  | ecall | ebreak | mret | sret | wfi => cases h; rfl
  | sfenceVma =>
    simp only [encode, RawInstr.full.injEq, encR_eq_iff] at h
    obtain ⟨hop, hf3, hf7, hrd, rfl, rfl⟩ := h
    simp [decodeWord, decodeSystem, hop, hf3, decodePriv_sfenceVma hf7 hrd]
  | cAddi4spn | cLw | cSw | cNop | cAddi | cJal | cLi | cAddi16sp | cLui | cSrli | cSrai | cAndi | cSub | cXor | cOr
  | cAnd | cJ | cBeqz | cBnez | cSlli | cLwsp | cJr | cMv | cEbreak | cJalr | cAdd | cSwsp => cases h

/-! ## What was decoded encodes to the same word -/

/-- The operands are ones the encoding can hold, and no bit of the word is dropped. -/
def EncodesTo (i : Instr) (raw : RawInstr) : Prop := i.wf = true ∧ encode i = raw

theorem decodeJalr_encodes (hop : opcodeOf w = 0x67#7) (h : decodeJalr w = some i) : EncodesTo i (.full w) := by
  unfold decodeJalr at h
  split at h
  · cases h
    simp [EncodesTo, Instr.wf, encode, encI_eq_iff, *]
  · cases h

theorem decodeBranch_encodes (hop : opcodeOf w = 0x63#7) (h : decodeBranch w = some i) : EncodesTo i (.full w) := by
  unfold decodeBranch at h
  split at h <;> cases h <;> simp [EncodesTo, Instr.wf, encode, encB_eq_iff, lowZero_immBOf, *]

theorem decodeLoad_encodes (hop : opcodeOf w = 0x03#7) (h : decodeLoad w = some i) : EncodesTo i (.full w) := by
  unfold decodeLoad at h
  split at h <;> cases h <;> simp [EncodesTo, Instr.wf, encode, encI_eq_iff, *]

theorem decodeStore_encodes (hop : opcodeOf w = 0x23#7) (h : decodeStore w = some i) : EncodesTo i (.full w) := by
  unfold decodeStore at h
  split at h <;> cases h <;> simp [EncodesTo, Instr.wf, encode, encS_eq_iff, *]

theorem decodeOpImm_encodes (hop : opcodeOf w = 0x13#7) (h : decodeOpImm w = some i) : EncodesTo i (.full w) := by
  unfold decodeOpImm at h
  split at h
  case h_7 => split at h <;> cases h; simp [EncodesTo, Instr.wf, encode, encShift_eq_iff, *]
  case h_8 =>
    have hf3 : funct3Of w = 5#3 := by have := funct3_cases (funct3Of w); tauto
    split at h <;> cases h <;> simp [EncodesTo, Instr.wf, encode, encShift_eq_iff, *]
  all_goals cases h; simp [EncodesTo, Instr.wf, encode, encI_eq_iff, *]

theorem decodeOpBase_encodes (hop : opcodeOf w = 0x33#7) (hf7 : funct7Of w = 0x00#7) :
    EncodesTo (decodeOpBase w) (.full w) := by
  unfold decodeOpBase
  split
  case h_8 =>
    have hf3 : funct3Of w = 7#3 := by have := funct3_cases (funct3Of w); tauto
    simp [EncodesTo, Instr.wf, encode, encR_eq_iff, *]
  all_goals simp [EncodesTo, Instr.wf, encode, encR_eq_iff, *]

theorem decodeOpMul_encodes (hop : opcodeOf w = 0x33#7) (hf7 : funct7Of w = 0x01#7) :
    EncodesTo (decodeOpMul w) (.full w) := by
  unfold decodeOpMul
  split
  case h_8 =>
    have hf3 : funct3Of w = 7#3 := by have := funct3_cases (funct3Of w); tauto
    simp [EncodesTo, Instr.wf, encode, encR_eq_iff, *]
  all_goals simp [EncodesTo, Instr.wf, encode, encR_eq_iff, *]

theorem decodeOp_encodes (hop : opcodeOf w = 0x33#7) (h : decodeOp w = some i) : EncodesTo i (.full w) := by
  unfold decodeOp at h
  split at h
  · next hf7 => cases h; exact decodeOpBase_encodes hop hf7
  · next hf7 => cases h; exact decodeOpMul_encodes hop hf7
  · split at h <;> cases h <;> simp [EncodesTo, Instr.wf, encode, encR_eq_iff, *]
  · cases h

theorem decodeMiscMem_encodes (hop : opcodeOf w = 0x0F#7) (h : decodeMiscMem w = some i) : EncodesTo i (.full w) := by
  unfold decodeMiscMem at h
  split at h <;> cases h <;> simp [EncodesTo, Instr.wf, encode, encI_eq_iff, immIOf_eq_append_iff, *]

theorem decodeAmo_encodes (hop : opcodeOf w = 0x2F#7) (h : decodeAmo w = some i) : EncodesTo i (.full w) := by
  unfold decodeAmo at h
  split at h
  · unfold decodeAmoWord at h
    split at h
    case h_1 => split at h <;> cases h; simp [EncodesTo, Instr.wf, encode, encAmo_eq_iff, *]
    all_goals cases h <;> simp [EncodesTo, Instr.wf, encode, encAmo_eq_iff, *]
  · cases h

theorem decodePriv_encodes (hop : opcodeOf w = 0x73#7) (hf3 : funct3Of w = 0#3) (h : decodePriv w = some i) :
    EncodesTo i (.full w) := by
  unfold decodePriv at h
  split_ifs at h with hw hw hw hw hw hfields
  on_goal 6 =>
    cases h
    simp [EncodesTo, Instr.wf, encode, encR_eq_iff, hop, hf3, hfields]
  all_goals
    cases h
    exact ⟨rfl, hw ▸ rfl⟩

theorem decodeSystem_encodes (hop : opcodeOf w = 0x73#7) (h : decodeSystem w = some i) : EncodesTo i (.full w) := by
  unfold decodeSystem at h
  split at h
  · next hf3 => exact decodePriv_encodes hop hf3 h
  all_goals cases h <;> simp [EncodesTo, Instr.wf, encode, encI_eq_iff, encCsrI_eq_iff, *]

theorem decodeWord_encodes (h : decodeWord w = some i) : EncodesTo i (.full w) := by
  unfold decodeWord at h
  split at h
  · cases h; simp [EncodesTo, Instr.wf, encode, encU_eq_iff, *]
  · cases h; simp [EncodesTo, Instr.wf, encode, encU_eq_iff, *]
  · cases h; simp [EncodesTo, Instr.wf, encode, encJ_eq_iff, lowZero_immJOf, *]
  · next hop => exact decodeJalr_encodes hop h
  · next hop => exact decodeBranch_encodes hop h
  · next hop => exact decodeLoad_encodes hop h
  · next hop => exact decodeStore_encodes hop h
  · next hop => exact decodeOpImm_encodes hop h
  · next hop => exact decodeOp_encodes hop h
  · next hop => exact decodeMiscMem_encodes hop h
  · next hop => exact decodeAmo_encodes hop h
  · next hop => exact decodeSystem_encodes hop h
  · cases h

theorem decodeWord_eq_some_iff : decodeWord w = some i ↔ EncodesTo i (.full w) :=
  ⟨decodeWord_encodes, fun ⟨hw, h⟩ => decodeWord_of_encode hw h⟩

end Sys2Proof
end

section
/-! PROOFS. The 16-bit words: the decoder inverts the encoder and drops no bit; the rows of R182 and the undefined words
of R183. -/

namespace Sys2Proof

variable {c : Half} {i : Instr}

/-! ## The decoder reads what was encoded (30_encoding.md R182; 48_compressed.md) -/

/-- C.ADDI16SP permutes the bits of the CI immediate, so that both are zero together (48_compressed.md R379). -/
theorem cImm16spOf_eq_zero_iff : cImm16spOf c = 0#10 ↔ cImm6Of c = 0#6 := by
  have h : c.extractLsb' 2 5 = c.extractLsb' 6 1 ++ c.extractLsb' 5 1 ++ c.extractLsb' 3 2 ++ c.extractLsb' 2 1 := by
    simp (disch := decide) only [slice_rules]
  rw [cImm16spOf, cImm6Of, h]
  repeat rw [append_eq_zero_iff]
  tauto

theorem decodeHalf_of_encode (hw : i.wf = true) (h : encode i = .half c) : decodeHalf c = some i := by
  cases i with
  | cAddi4spn =>
    simp only [Instr.wf, Bool.and_eq_true, bne_iff_ne, ne_eq, BitVec.ofNat_eq_ofNat] at hw
    obtain ⟨hlow, hne⟩ := hw
    rw [encode_cAddi4spn_eq_iff hlow] at h
    simp [decodeHalf, decodeQuadrant0, h, hne]
  | cLw | cSw =>
    simp only [encode, RawInstr.half.injEq, encCL_eq_iff hw] at h
    simp [decodeHalf, decodeQuadrant0, h]
  | cNop | cLi =>
    simp only [encode, RawInstr.half.injEq, encCI_eq_iff] at h
    simp [decodeHalf, decodeQuadrant1, h]
  | cAddi =>
    simp only [Instr.wf, bne_iff_ne, ne_eq] at hw
    simp only [encode, RawInstr.half.injEq, encCI_eq_iff] at h
    simp [decodeHalf, decodeQuadrant1, h, hw]
  | cJal | cJ =>
    simp only [encode, RawInstr.half.injEq, encCJ_eq_iff hw] at h
    simp [decodeHalf, decodeQuadrant1, h]
  | cAddi16sp =>
    simp only [Instr.wf, Bool.and_eq_true, bne_iff_ne, ne_eq, BitVec.ofNat_eq_ofNat] at hw
    obtain ⟨hlow, hne⟩ := hw
    rw [encode_cAddi16sp_eq_iff hlow] at h
    simp [decodeHalf, decodeQuadrant1, ← cImm16spOf_eq_zero_iff, h, hne]
  | cLui =>
    simp only [Instr.wf, Bool.and_eq_true, bne_iff_ne, ne_eq, BitVec.ofNat_eq_ofNat] at hw
    simp only [encode, RawInstr.half.injEq, encCI_eq_iff] at h
    simp [decodeHalf, decodeQuadrant1, h, hw]
  | cSrli | cSrai =>
    simp only [encode, RawInstr.half.injEq, encCShift_eq_iff] at h
    simp [decodeHalf, decodeQuadrant1, decodeCMisc, h, -BitVec.getLsbD_eq_getElem]
  | cAndi =>
    rw [encode_cAndi_eq_iff] at h
    simp [decodeHalf, decodeQuadrant1, decodeCMisc, h, -BitVec.getLsbD_eq_getElem]
  | cSub | cXor | cOr | cAnd =>
    simp only [encode, RawInstr.half.injEq, encCA_eq_iff] at h
    simp [decodeHalf, decodeQuadrant1, decodeCMisc, decodeCArith, h, -BitVec.getLsbD_eq_getElem]
  | cBeqz | cBnez =>
    simp only [encode, RawInstr.half.injEq, encCB_eq_iff hw] at h
    simp [decodeHalf, decodeQuadrant1, h]
  | cSlli =>
    rw [encode_cSlli_eq_iff] at h
    simp [decodeHalf, decodeQuadrant2, h, -BitVec.getLsbD_eq_getElem]
  | cLwsp =>
    simp only [Instr.wf, Bool.and_eq_true, bne_iff_ne, ne_eq] at hw
    obtain ⟨hne, hlow⟩ := hw
    rw [encode_cLwsp_eq_iff hlow] at h
    simp [decodeHalf, decodeQuadrant2, h, hne]
  | cJr | cMv | cJalr | cAdd =>
    simp only [Instr.wf, bne_iff_ne, ne_eq] at hw
    simp only [encode, RawInstr.half.injEq, encCR_eq_iff] at h
    simp [decodeHalf, decodeQuadrant2, decodeCJump, h, hw, -BitVec.getLsbD_eq_getElem]
  | cEbreak => cases h; rfl
  | cSwsp =>
    rw [encode_cSwsp_eq_iff hw] at h
    simp [decodeHalf, decodeQuadrant2, h]
  | lui | auipc | addi | slti | sltiu | xori | ori | andi | slli | srli | srai | add | sub | sll | slt | sltu | xor
  | srl | sra | or | and | jal | jalr | beq | bne | blt | bge | bltu | bgeu | lb | lh | lw | lbu | lhu | sb | sh | sw
  | fence | fenceI | mul | mulh | mulhsu | mulhu | div | divu | rem | remu | lrW | scW | amoswapW | amoaddW | amoxorW
  | amoandW | amoorW | amominW | amomaxW | amominuW | amomaxuW
  | csrrw | csrrs | csrrc | csrrwi | csrrsi | csrrci | ecall | ebreak | mret | sret | wfi
  | sfenceVma => cases h

/-! ## What was decoded encodes to the same word -/

theorem decodeQuadrant0_encodes (hq : c.extractLsb' 0 2 = 0#2) (h : decodeQuadrant0 c = some i) :
    EncodesTo i (.half c) := by
  unfold decodeQuadrant0 at h
  split at h
  · split_ifs at h with hne
    cases h
    simpa [EncodesTo, Instr.wf, encode_cAddi4spn_eq_iff, lowZero_cUimm4spnOf, *] using hne
  all_goals cases h <;> simp [EncodesTo, Instr.wf, encode, encCL_eq_iff, lowZero_cUimmLwOf, *]

theorem decodeCArith_encodes (hq : c.extractLsb' 0 2 = 1#2) (hf3 : cFunct3Of c = 4#3) (h10 : c.extractLsb' 10 2 = 3#2)
    (h : decodeCArith c = some i) : EncodesTo i (.half c) := by
  unfold decodeCArith at h
  split_ifs at h with h12
  split at h
  case h_4 =>
    have h5 : c.extractLsb' 5 2 = 3#2 := by have := twoBits_cases (c.extractLsb' 5 2); tauto
    cases h
    simp [EncodesTo, Instr.wf, encode, encCA_eq_iff, -BitVec.getLsbD_eq_getElem, *]
  all_goals cases h; simp [EncodesTo, Instr.wf, encode, encCA_eq_iff, -BitVec.getLsbD_eq_getElem, *]

theorem decodeCMisc_encodes (hq : c.extractLsb' 0 2 = 1#2) (hf3 : cFunct3Of c = 4#3) (h : decodeCMisc c = some i) :
    EncodesTo i (.half c) := by
  unfold decodeCMisc at h
  split at h
  · split_ifs at h
    cases h
    simp [EncodesTo, Instr.wf, encode, encCShift_eq_iff, -BitVec.getLsbD_eq_getElem, *]
  · split_ifs at h
    cases h
    simp [EncodesTo, Instr.wf, encode, encCShift_eq_iff, -BitVec.getLsbD_eq_getElem, *]
  · cases h
    simp [EncodesTo, Instr.wf, encode_cAndi_eq_iff, *]
  · have h10 : c.extractLsb' 10 2 = 3#2 := by have := twoBits_cases (c.extractLsb' 10 2); tauto
    exact decodeCArith_encodes hq hf3 h10 h

theorem decodeQuadrant1_encodes (hq : c.extractLsb' 0 2 = 1#2) (h : decodeQuadrant1 c = some i) :
    EncodesTo i (.half c) := by
  unfold decodeQuadrant1 at h
  split at h
  · split_ifs at h <;> cases h <;> simp [EncodesTo, Instr.wf, encode, encCI_eq_iff, *]
  · cases h
    simp [EncodesTo, Instr.wf, encode, encCJ_eq_iff, lowZero_cOffJOf, *]
  · cases h
    simp [EncodesTo, Instr.wf, encode, encCI_eq_iff, *]
  · split_ifs at h with hne hrd
    · cases h
      simpa [EncodesTo, Instr.wf, encode_cAddi16sp_eq_iff, lowZero_cImm16spOf, cImm16spOf_eq_zero_iff, *] using hne
    · cases h
      simpa [EncodesTo, Instr.wf, encode, encCI_eq_iff, *] using hne
  · next hf3 => exact decodeCMisc_encodes hq hf3 h
  · cases h
    simp [EncodesTo, Instr.wf, encode, encCJ_eq_iff, lowZero_cOffJOf, *]
  · cases h
    simp [EncodesTo, Instr.wf, encode, encCB_eq_iff, lowZero_cOffBOf, *]
  · have hf3 : cFunct3Of c = 7#3 := by have := funct3_cases (cFunct3Of c); tauto
    cases h
    simp [EncodesTo, Instr.wf, encode, encCB_eq_iff, lowZero_cOffBOf, *]

theorem decodeCJump_encodes (hq : c.extractLsb' 0 2 = 2#2) (hf3 : cFunct3Of c = 4#3) (h : decodeCJump c = some i) :
    EncodesTo i (.half c) := by
  unfold decodeCJump at h
  split_ifs at h <;> cases h <;> simp [EncodesTo, Instr.wf, encode, encCR_eq_iff, -BitVec.getLsbD_eq_getElem, *]

theorem decodeQuadrant2_encodes (hq : c.extractLsb' 0 2 = 2#2) (h : decodeQuadrant2 c = some i) :
    EncodesTo i (.half c) := by
  unfold decodeQuadrant2 at h
  split at h
  · split_ifs at h
    cases h
    simp [EncodesTo, Instr.wf, encode_cSlli_eq_iff, -BitVec.getLsbD_eq_getElem, *]
  · split_ifs at h
    cases h
    simp [EncodesTo, Instr.wf, encode_cLwsp_eq_iff, lowZero_cUimmLwspOf, *]
  · next hf3 => exact decodeCJump_encodes hq hf3 h
  · cases h
    simp [EncodesTo, Instr.wf, encode_cSwsp_eq_iff, lowZero_cUimmSwspOf, *]
  · cases h

theorem decodeHalf_encodes (h : decodeHalf c = some i) : EncodesTo i (.half c) := by
  unfold decodeHalf at h
  split at h
  · next hq => exact decodeQuadrant0_encodes hq h
  · next hq => exact decodeQuadrant1_encodes hq h
  · next hq => exact decodeQuadrant2_encodes hq h
  · cases h

theorem decodeHalf_eq_some_iff : decodeHalf c = some i ↔ EncodesTo i (.half c) :=
  ⟨decodeHalf_encodes, fun ⟨hw, h⟩ => decodeHalf_of_encode hw h⟩

end Sys2Proof
end

section
/-! PROOFS. Decoding and encoding are inverse, on words and on bytes in memory order (30_encoding.md R170, R175, R182;
20_memory.md R104). -/

namespace Sys2Proof

variable {i : Instr} {raw : RawInstr}

theorem decodeRaw_eq_ok_iff : decodeRaw raw = .ok i ↔ EncodesTo i raw := by
  cases raw with
  | half c =>
    rw [← decodeHalf_eq_some_iff, decodeRaw]
    split <;> simp [*]
  | full w =>
    rw [← decodeWord_eq_some_iff, decodeRaw]
    split <;> simp [*]

/-- Settles O2: what decodes is well formed, and its fields are all the bits of its word. -/
theorem encodeOfDecode : Obligations.EncodeOfDecode := fun _ _ => decodeRaw_eq_ok_iff.mp

/-! ## Bytes in memory order -/

theorem isLong_of_decodeWord {w : Word} (h : decodeWord w = some i) : isLong (w.extractLsb' 0 16) = true := by
  have hlow : (w.extractLsb' 0 16).extractLsb' 0 2 = (opcodeOf w).extractLsb' 0 2 := by
    simp (disch := decide) only [opcodeOf, slice_rules]
  unfold decodeWord at h
  split at h <;> simp_all [isLong]

theorem isLong_of_decodeHalf {c : Half} (h : decodeHalf c = some i) : isLong c = false := by
  rw [isLong, beq_eq_false_iff_ne]
  intro hq
  simp [decodeHalf, hq] at h

theorem decodeBytes_half {c : Half} (h : decodeHalf c = some i) (rest : List Byte) :
    decodeBytes (c.extractLsb' 0 8 :: c.extractLsb' 8 8 :: rest) = .ok (i, rest) := by
  have hc : c.extractLsb' 8 8 ++ c.extractLsb' 0 8 = c := by
    simp (disch := decide) only [slice_rules]
  simp [decodeBytes, hc, isLong_of_decodeHalf h, decodeRaw, h]

theorem decodeBytes_full {w : Word} (h : decodeWord w = some i) (rest : List Byte) :
    decodeBytes (w.extractLsb' 0 8 :: w.extractLsb' 8 8 :: w.extractLsb' 16 8 :: w.extractLsb' 24 8 :: rest) =
      .ok (i, rest) := by
  have hlow : w.extractLsb' 8 8 ++ w.extractLsb' 0 8 = w.extractLsb' 0 16 := by
    simp (disch := decide) only [slice_rules]
  have hw : w.extractLsb' 24 8 ++ w.extractLsb' 16 8 ++ w.extractLsb' 0 16 = w := by
    simp (disch := decide) only [slice_rules]
  simp [decodeBytes, hlow, hw, isLong_of_decodeWord h, decodeRaw, h]

theorem decodeBytes_encodeBytes (hw : i.wf = true) (rest : List Byte) :
    decodeBytes (encodeBytes i ++ rest) = .ok (i, rest) := by
  unfold encodeBytes
  split
  · next hc => exact decodeBytes_half (decodeHalf_of_encode hw hc) rest
  · next hc => exact decodeBytes_full (decodeWord_of_encode hw hc) rest

/-- Settles O1, by the fields of each format. -/
theorem decodeOfEncode : Obligations.DecodeOfEncode := fun _ hw =>
  ⟨decodeRaw_eq_ok_iff.mpr ⟨hw, rfl⟩, decodeBytes_encodeBytes hw⟩

end Sys2Proof
end

section
/-! PROOFS. The rows of the two opcode tables (30_encoding.md R175, R182): an instruction's word lies in its row, and a
word that lies in a row decodes to an instruction of the row (R176). -/

namespace Sys2Proof

open Machine

/-! ## Words under a mask, slice by slice -/

section Word

variable {w v mask m : Word}

/-- The cuts are those of R171, with `funct7` cut once more for the AMO rows. -/
theorem word_eq_iff_slices : w = v ↔
    w.extractLsb' 0 7 = v.extractLsb' 0 7 ∧ w.extractLsb' 7 5 = v.extractLsb' 7 5 ∧
      w.extractLsb' 12 3 = v.extractLsb' 12 3 ∧ w.extractLsb' 15 5 = v.extractLsb' 15 5 ∧
      w.extractLsb' 20 5 = v.extractLsb' 20 5 ∧ w.extractLsb' 25 2 = v.extractLsb' 25 2 ∧
      w.extractLsb' 27 5 = v.extractLsb' 27 5 := by
  constructor
  · rintro rfl
    simp only [and_self]
  · rintro ⟨h0, h7, h12, h15, h20, h25, h27⟩
    have join (u : Word) : u = u.extractLsb' 27 5 ++ u.extractLsb' 25 2 ++ u.extractLsb' 20 5 ++ u.extractLsb' 15 5 ++
        u.extractLsb' 12 3 ++ u.extractLsb' 7 5 ++ u.extractLsb' 0 7 := by
      simp (disch := decide) only [slice_rules]
    rw [join w, join v, h0, h7, h12, h15, h20, h25, h27]

theorem and_eq_iff_slices : w &&& mask = m ↔
    w.extractLsb' 0 7 &&& mask.extractLsb' 0 7 = m.extractLsb' 0 7 ∧
      w.extractLsb' 7 5 &&& mask.extractLsb' 7 5 = m.extractLsb' 7 5 ∧
      w.extractLsb' 12 3 &&& mask.extractLsb' 12 3 = m.extractLsb' 12 3 ∧
      w.extractLsb' 15 5 &&& mask.extractLsb' 15 5 = m.extractLsb' 15 5 ∧
      w.extractLsb' 20 5 &&& mask.extractLsb' 20 5 = m.extractLsb' 20 5 ∧
      w.extractLsb' 25 2 &&& mask.extractLsb' 25 2 = m.extractLsb' 25 2 ∧
      w.extractLsb' 27 5 &&& mask.extractLsb' 27 5 = m.extractLsb' 27 5 := by
  simp only [word_eq_iff_slices (v := m), BitVec.extractLsb'_and]

theorem funct7Of_eq_append : funct7Of w = w.extractLsb' 27 5 ++ w.extractLsb' 25 2 := by
  simp (disch := decide) only [funct7Of, slice_rules]

/-- The cuts are those of R180. -/
theorem zeroExtend_and_eq_iff_slices {c : Half} : c.zeroExtend 32 &&& mask = m ↔
    m.extractLsb' 16 16 = 0#16 ∧ c.extractLsb' 0 2 &&& mask.extractLsb' 0 2 = m.extractLsb' 0 2 ∧
      c.extractLsb' 2 3 &&& mask.extractLsb' 2 3 = m.extractLsb' 2 3 ∧
      c.extractLsb' 5 2 &&& mask.extractLsb' 5 2 = m.extractLsb' 5 2 ∧
      c.extractLsb' 7 3 &&& mask.extractLsb' 7 3 = m.extractLsb' 7 3 ∧
      c.extractLsb' 10 2 &&& mask.extractLsb' 10 2 = m.extractLsb' 10 2 ∧
      c.extractLsb' 12 1 &&& mask.extractLsb' 12 1 = m.extractLsb' 12 1 ∧
      c.extractLsb' 13 3 &&& mask.extractLsb' 13 3 = m.extractLsb' 13 3 := by
  have htop : (c.zeroExtend 32).extractLsb' 16 16 = 0#16 := by
    ext k hk
    simp
  have slice {start len : Nat} (h : start + len ≤ 32) :
      c.extractLsb' start len &&& mask.extractLsb' start len = (c.zeroExtend 32 &&& mask).extractLsb' start len := by
    rw [BitVec.extractLsb'_and, BitVec.zeroExtend, BitVec.extractLsb'_setWidth_of_le h]
  simp (disch := decide) only [slice]
  constructor
  · rintro rfl
    simp only [BitVec.extractLsb'_and, htop, BitVec.zero_and, and_self]
  · rintro ⟨h16, h0, h2, h5, h7, h10, h12, h13⟩
    have join (u : Word) : u = u.extractLsb' 16 16 ++ u.extractLsb' 13 3 ++ u.extractLsb' 12 1 ++ u.extractLsb' 10 2 ++
        u.extractLsb' 7 3 ++ u.extractLsb' 5 2 ++ u.extractLsb' 2 3 ++ u.extractLsb' 0 2 := by
      simp (disch := decide) only [slice_rules]
    rw [join (c.zeroExtend 32 &&& mask), join m, h0, h2, h5, h7, h10, h12, h13, h16, BitVec.extractLsb'_and, htop,
      BitVec.zero_and]

/-- A field under a mask of ones is the field. -/
theorem and_ones : (∀ x : BitVec 7, x &&& 0x7F#7 = x) ∧ (∀ x : BitVec 5, x &&& 0x1F#5 = x) ∧
    (∀ x : BitVec 3, x &&& 7#3 = x) ∧ ∀ x : BitVec 2, x &&& 3#2 = x :=
  ⟨fun _ => BitVec.and_allOnes, fun _ => BitVec.and_allOnes, fun _ => BitVec.and_allOnes, fun _ => BitVec.and_allOnes⟩

end Word

/-! ## An instruction's word lies in its row -/

theorem encode_full_not_compressed {i : Instr} {w : Word} (h : encode i = .full w) : i.isCompressed = false := by
  cases i <;> cases h <;> rw [Instr.isCompressed, Instr.rowMatch] <;> rfl

theorem encode_half_compressed {i : Instr} {c : Half} (h : encode i = .half c) : i.isCompressed = true := by
  cases i <;> cases h <;> rw [Instr.isCompressed, Instr.rowMatch] <;> rfl

/-- Each slice of the word that the mask keeps is a constant of the encoding, and the row's. (`rw` writes the row's
numbers out, since `simp` is slow on slices of a number it has itself unfolded.) -/
theorem encode_full_and_rowMask {i : Instr} {w : Word} (h : encode i = .full w) : w &&& i.rowMask = i.rowMatch := by
  cases i <;> cases h <;> rw [Instr.rowMask, Instr.rowMatch, and_eq_iff_slices] <;>
    simp (disch := decide) only [encR, encShift, encAmo, encI, encCsrI, encS, encB, encU, encJ, Reg.bits_zero,
      slice_rules, Nat.reduceSub, BitVec.reduceExtractLsb', BitVec.and_zero, BitVec.zero_and, BitVec.reduceAnd,
      and_self]

theorem encode_half_and_rowMask {i : Instr} {c : Half} (h : encode i = .half c) :
    c.zeroExtend 32 &&& i.rowMask = i.rowMatch := by
  cases i <;> cases h <;> rw [Instr.rowMask, Instr.rowMatch, zeroExtend_and_eq_iff_slices] <;>
    simp (disch := decide) only [encCI, encCL, encCShift, encCA, encCJ, encCB, encCR, Reg.bits_zero,
      slice_rules, Nat.reduceSub, BitVec.reduceExtractLsb', BitVec.and_zero, BitVec.zero_and, BitVec.reduceAnd,
      and_self]

/-! ## A word in a row decodes to an instruction of the row (R176) -/

theorem decodeWord_of_row {i : Instr} {w : Word} (hc : i.isCompressed = false) (h : w &&& i.rowMask = i.rowMatch) :
    ∃ j, decodeWord w = some j ∧ j.rowMatch = i.rowMatch ∧ j.rowMask = i.rowMask := by
  cases i with
  | ecall | ebreak | mret | sret | wfi =>
    rw [Instr.rowMask, Instr.rowMatch] at h
    obtain rfl := BitVec.and_allOnes.symm.trans h
    exact ⟨_, rfl, rfl, rfl⟩
  | sfenceVma =>
    rw [Instr.rowMask, Instr.rowMatch, and_eq_iff_slices] at h
    simp only [BitVec.reduceExtractLsb', and_ones, BitVec.and_zero, true_and] at h
    obtain ⟨hop, hrd, hf3, hlo, hhi⟩ := h
    have hf7 : funct7Of w = 0x09#7 := by rw [funct7Of_eq_append, hlo, hhi]; rfl
    simp only [decodeWord, opcodeOf, decodeSystem, funct3Of, hop, hf3,
      decodePriv_sfenceVma hf7 (rdOf_eq_zero_iff.mpr hrd), Option.some.injEq, exists_eq_left']
    exact ⟨rfl, rfl⟩
  | lui | auipc | jal | jalr | beq | bne | blt | bge | bltu | bgeu | lb | lh | lw | lbu | lhu | sb | sh | sw | addi
  | slti | sltiu | xori | ori | andi | slli | srli | srai | add | sub | sll | slt | sltu | xor | srl | sra | or | and
  | fence | fenceI | mul | mulh | mulhsu | mulhu | div | divu | rem | remu | lrW | scW | amoswapW | amoaddW | amoxorW
  | amoandW | amoorW | amominW | amomaxW | amominuW | amomaxuW
  | csrrw | csrrs | csrrc | csrrwi | csrrsi | csrrci =>
    -- The slices that the row fixes are those on which the decoder branches.
    rw [Instr.rowMask, Instr.rowMatch, and_eq_iff_slices] at h
    simp only [BitVec.reduceExtractLsb', and_ones, BitVec.and_zero, true_and, and_true] at h
    simp only [decodeWord, decodeJalr, decodeBranch, decodeLoad, decodeStore, decodeOpImm, decodeOp, decodeOpBase,
      decodeOpMul, decodeMiscMem, decodeAmo, decodeAmoWord, decodeSystem, opcodeOf, funct3Of, funct5Of,
      funct7Of_eq_append, rs2Of_eq_zero_iff, h, BitVec.reduceAppend, BitVec.reduceEq, imp_false,
      not_false_eq_true, ↓reduceIte, Option.some.injEq, exists_eq_left']
    exact ⟨rfl, rfl⟩
  | cAddi4spn | cLw | cSw | cNop | cAddi | cJal | cLi | cAddi16sp | cLui | cSrli | cSrai | cAndi | cSub | cXor | cOr
  | cAnd | cJ | cBeqz | cBnez | cSlli | cLwsp | cJr | cMv | cEbreak | cJalr | cAdd | cSwsp =>
    rw [Instr.isCompressed, Instr.rowMatch] at hc
    exact absurd hc (by decide)

/-- Settles O3: the row fixes the slices on which the decoder branches, and an instruction's word lies in its row. -/
theorem wordDecodesToItsRow : Obligations.WordDecodesToItsRow := by
  intro w s
  have inRow : ∀ j, decodeWord w = some j → j.isCompressed = false ∧ w &&& j.rowMask = j.rowMatch := fun j hj =>
    have ⟨_, he⟩ := decodeWord_encodes hj
    ⟨encode_full_not_compressed he, encode_full_and_rowMask he⟩
  refine ⟨fun i hc h => ?_, inRow, fun h => ?_⟩
  · obtain ⟨j, hj, hmatch, hmask⟩ := decodeWord_of_row hc h
    exact ⟨j, hj, hmatch, hmask, runRaw_ok (decodeRaw_eq_ok_iff.mpr (decodeWord_encodes hj))⟩
  · cases hd : decodeWord w with
    | none => exact runRaw_error (by rw [decodeRaw, hd])
    | some j =>
      obtain ⟨hc, hrow⟩ := inRow j hd
      exact absurd hrow (h j hc)

end Sys2Proof
end

section
/-! PROOFS. The words that are no instruction (30_encoding.md R177, R183): where each part of the decoder answers
none. -/

namespace Sys2Proof

open Machine

/-! ## 32-bit words (R177) -/

section Word

variable {w : Word}

theorem decodeJalr_eq_none_iff : decodeJalr w = none ↔ funct3Of w ≠ 0#3 := by
  unfold decodeJalr
  split <;> simp_all

theorem decodeBranch_eq_none_iff : decodeBranch w = none ↔ funct3Of w ∈ [2#3, 3#3] := by
  obtain h | h | h | h | h | h | h | h := funct3_cases (funct3Of w) <;> simp [decodeBranch, h]

theorem decodeLoad_eq_none_iff : decodeLoad w = none ↔ funct3Of w ∈ [3#3, 6#3, 7#3] := by
  obtain h | h | h | h | h | h | h | h := funct3_cases (funct3Of w) <;> simp [decodeLoad, h]

theorem decodeStore_eq_none_iff : decodeStore w = none ↔ funct3Of w ∈ [3#3, 4#3, 5#3, 6#3, 7#3] := by
  obtain h | h | h | h | h | h | h | h := funct3_cases (funct3Of w) <;> simp [decodeStore, h]

theorem decodeMiscMem_eq_none_iff : decodeMiscMem w = none ↔ funct3Of w ∉ [0#3, 1#3] := by
  obtain h | h | h | h | h | h | h | h := funct3_cases (funct3Of w) <;> simp [decodeMiscMem, h]

theorem decodeOpImm_eq_none_iff : decodeOpImm w = none ↔
    (funct3Of w = 1#3 ∧ funct7Of w ≠ 0x00#7) ∨ (funct3Of w = 5#3 ∧ funct7Of w ∉ [0x00#7, 0x20#7]) := by
  obtain h | h | h | h | h | h | h | h := funct3_cases (funct3Of w) <;> simp [decodeOpImm, h] <;>
    split <;> simp_all

theorem decodeOp_eq_none_iff : decodeOp w = none ↔
    funct7Of w ∉ [0x00#7, 0x01#7, 0x20#7] ∨ (funct7Of w = 0x20#7 ∧ funct3Of w ∉ [0#3, 5#3]) := by
  unfold decodeOp
  split
  case h_3 => split <;> simp_all
  all_goals simp_all

theorem decodeAmo_eq_none_iff : decodeAmo w = none ↔ funct3Of w ≠ 2#3 ∨
    funct5Of w ∉ [0x00#5, 0x01#5, 0x02#5, 0x03#5, 0x04#5, 0x08#5, 0x0C#5, 0x10#5, 0x14#5, 0x18#5, 0x1C#5] ∨
    (funct5Of w = 0x02#5 ∧ w.extractLsb' 20 5 ≠ 0#5) := by
  unfold decodeAmo
  split
  · unfold decodeAmoWord
    split
    case h_1 => simp_all [rs2Of_eq_zero_iff]
    all_goals simp_all
  · simp_all

theorem decodePriv_eq_none_iff : decodePriv w = none ↔
    w ∉ [0x00000073#32, 0x00100073#32, 0x10200073#32, 0x30200073#32, 0x10500073#32] ∧
      ¬ (funct7Of w = 0x09#7 ∧ w.extractLsb' 7 5 = 0#5) := by
  simp only [decodePriv, rdOf_eq_zero_iff]
  split_ifs <;> simp_all

theorem decodeSystem_eq_none_iff : decodeSystem w = none ↔
    funct3Of w = 4#3 ∨ (funct3Of w = 0#3 ∧ decodePriv w = none) := by
  obtain h | h | h | h | h | h | h | h := funct3_cases (funct3Of w) <;> simp [decodeSystem, h]

theorem decodeWord_eq_none_iff : decodeWord w = none ↔ IllegalWord w := by
  unfold decodeWord
  -- The branches in the order of `decodeWord`; LUI, AUIPC, JAL and the opcodes of no row are left to the last line.
  split
  case h_4 => simp_all [IllegalWord, opcodeOf, decodeJalr_eq_none_iff, funct3Of]
  case h_5 => simp_all [IllegalWord, opcodeOf, decodeBranch_eq_none_iff, funct3Of]
  case h_6 => simp_all [IllegalWord, opcodeOf, decodeLoad_eq_none_iff, funct3Of]
  case h_7 => simp_all [IllegalWord, opcodeOf, decodeStore_eq_none_iff, funct3Of]
  case h_8 => simp_all [IllegalWord, opcodeOf, decodeOpImm_eq_none_iff, funct3Of, funct7Of]
  case h_9 => simp_all [IllegalWord, opcodeOf, decodeOp_eq_none_iff, funct3Of, funct7Of]
  case h_10 => simp_all [IllegalWord, opcodeOf, decodeMiscMem_eq_none_iff, funct3Of]
  case h_11 => simp_all [IllegalWord, opcodeOf, decodeAmo_eq_none_iff, funct3Of, funct5Of]
  case h_12 => simp_all [IllegalWord, opcodeOf, decodeSystem_eq_none_iff, decodePriv_eq_none_iff, funct3Of, funct7Of]
  all_goals simp_all [IllegalWord, opcodeOf]

end Word

/-! ## 16-bit words (R183) -/

section Half

variable {c : Half}

theorem cImm6Of_eq_zero_iff : cImm6Of c = 0 ↔ c.extractLsb' 12 1 = 0#1 ∧ c.extractLsb' 2 5 = 0#5 :=
  append_eq_zero_iff

theorem cUimm4spnOf_eq_zero_iff : cUimm4spnOf c = 0 ↔ c.extractLsb' 5 8 = 0#8 := by
  have h : c.extractLsb' 5 8 = c.extractLsb' 11 2 ++ c.extractLsb' 7 4 ++ c.extractLsb' 6 1 ++ c.extractLsb' 5 1 := by
    simp (disch := decide) only [slice_rules]
  change cUimm4spnOf c = 0#10 ↔ _
  rw [cUimm4spnOf, h]
  repeat rw [append_eq_zero_iff]
  tauto

theorem decodeQuadrant0_eq_none_iff : decodeQuadrant0 c = none ↔
    (cFunct3Of c = 0#3 ∧ c.extractLsb' 5 8 = 0#8) ∨ cFunct3Of c ∈ [1#3, 3#3, 4#3, 5#3, 7#3] := by
  simp only [decodeQuadrant0, cUimm4spnOf_eq_zero_iff]
  obtain h | h | h | h | h | h | h | h := funct3_cases (cFunct3Of c) <;> simp [h]

theorem decodeCMisc_eq_none_iff : decodeCMisc c = none ↔
    c.extractLsb' 10 2 ∈ [0#2, 1#2, 3#2] ∧ c.extractLsb' 12 1 = 1#1 := by
  have harith : decodeCArith c = none ↔ c.extractLsb' 12 1 = 1#1 := by
    simp only [decodeCArith, getLsbD_eq_true_iff]
    split_ifs with h12
    · simp [h12]
    · split <;> simp [h12]
  simp only [decodeCMisc, getLsbD_eq_true_iff]
  obtain h | h | h | h := twoBits_cases (c.extractLsb' 10 2) <;> simp [h, harith]

theorem decodeQuadrant1_eq_none_iff : decodeQuadrant1 c = none ↔
    (cFunct3Of c = 3#3 ∧ cImm6Of c = 0) ∨ (cFunct3Of c = 4#3 ∧ decodeCMisc c = none) := by
  unfold decodeQuadrant1
  split
  case h_1 | h_4 => split_ifs <;> simp_all
  all_goals simp_all

theorem decodeCJump_eq_none_iff : decodeCJump c = none ↔
    c.extractLsb' 12 1 = 0#1 ∧ c.extractLsb' 7 5 = 0#5 ∧ c.extractLsb' 2 5 = 0#5 := by
  simp only [decodeCJump, getLsbD_eq_true_iff, cRs2Of_eq_zero_iff, cRdOf_eq_zero_iff]
  split_ifs <;> simp_all [not_eq_one_iff]

theorem decodeQuadrant2_eq_none_iff : decodeQuadrant2 c = none ↔
    (cFunct3Of c = 0#3 ∧ c.extractLsb' 12 1 = 1#1) ∨ cFunct3Of c ∈ [1#3, 3#3, 5#3, 7#3] ∨
      (cFunct3Of c = 2#3 ∧ c.extractLsb' 7 5 = 0#5) ∨ (cFunct3Of c = 4#3 ∧ decodeCJump c = none) := by
  simp only [decodeQuadrant2, getLsbD_eq_true_iff, cRdOf_eq_zero_iff]
  obtain h | h | h | h | h | h | h | h := funct3_cases (cFunct3Of c) <;> simp [h]

theorem decodeHalf_eq_none_iff (hq : c.extractLsb' 0 2 ≠ 3#2) : decodeHalf c = none ↔ IllegalHalf c := by
  unfold decodeHalf
  split
  · rw [decodeQuadrant0_eq_none_iff]
    simp [IllegalHalf, cFunct3Of, *]
  · rw [decodeQuadrant1_eq_none_iff, decodeCMisc_eq_none_iff, cImm6Of_eq_zero_iff]
    simp [IllegalHalf, cFunct3Of, *]
  · rw [decodeQuadrant2_eq_none_iff, decodeCJump_eq_none_iff]
    simp [IllegalHalf, cFunct3Of, *]
  · have := twoBits_cases (c.extractLsb' 0 2)
    tauto

end Half

/-- Settles O4: each part of the decoder answers none on its entries of the spec's lists. -/
theorem undefinedEncodings : Obligations.UndefinedEncodings := by
  refine ⟨fun w _ => decodeWord_eq_none_iff, fun c hq => decodeHalf_eq_none_iff hq, fun c j h => ?_⟩
  obtain ⟨hw, he⟩ := decodeHalf_encodes h
  exact ⟨encode_half_compressed he, encode_half_and_rowMask he, hw⟩

end Sys2Proof
end

section
/-! PROOFS. The integer computational instructions (40_integer_computational.md R200 to R221): each retires the word that
its rule gives as a number. -/

namespace Sys2Proof.Machine

open Sys2Proof

/-! ## Immediates, comparisons and shift amounts as numbers -/

theorem immU_eq_ofNat (imm : BitVec 20) : immU imm = BitVec.ofNat 32 (imm.toNat * 4096) := by
  have hlt : imm.toNat * 4096 < 2 ^ 32 := by omega
  refine BitVec.eq_of_toNat_eq ?_
  rw [immU, BitVec.toNat_append, BitVec.toNat_ofNat, BitVec.toNat_ofNat, Nat.mod_eq_of_lt hlt]
  simp [Nat.shiftLeft_eq]

theorem imm12_toInt (imm : BitVec 12) : (imm12 imm).toInt = imm.toInt :=
  BitVec.toInt_signExtend_of_le (by decide)

theorem shiftAmount_eq_mod (w : Word) : shiftAmount w = w.toNat % 32 := BitVec.extractLsb'_toNat 0 5 w

theorem boolWord_decide (p : Prop) [Decidable p] : boolWord (decide p) = if p then 1 else 0 := by
  simp [boolWord]

theorem boolWord_slt (a b : Word) : boolWord (a.slt b) = if a.toInt < b.toInt then 1 else 0 := by
  rw [BitVec.slt_eq_decide, boolWord_decide]

theorem boolWord_ult (a b : Word) : boolWord (a.ult b) = if a.toNat < b.toNat then 1 else 0 := by
  rw [BitVec.ult_eq_decide, boolWord_decide]

/-! ## Sums, differences and shifts as numbers -/

theorem add_eq_ofInt (a b : Word) : a + b = BitVec.ofInt 32 (a.toInt + b.toInt) := by
  rw [BitVec.ofInt_add, BitVec.ofInt_toInt, BitVec.ofInt_toInt]

theorem sub_eq_ofInt (a b : Word) : a - b = BitVec.ofInt 32 (a.toInt - b.toInt) :=
  BitVec.eq_of_toInt_eq (by rw [BitVec.toInt_sub, BitVec.toInt_ofInt])

theorem add_imm12_eq_ofInt (a : Word) (imm : BitVec 12) : a + imm12 imm = BitVec.ofInt 32 (a.toInt + imm.toInt) := by
  rw [add_eq_ofInt, imm12_toInt]

theorem boolWord_slt_imm12 (a : Word) (imm : BitVec 12) :
    boolWord (a.slt (imm12 imm)) = if a.toInt < imm.toInt then 1 else 0 := by
  rw [boolWord_slt, imm12_toInt]

theorem shiftLeft_eq_ofNat (a : Word) (k : Nat) : a <<< k = BitVec.ofNat 32 (a.toNat * 2 ^ k) := by
  rw [← Nat.shiftLeft_eq]
  rfl

theorem shiftRight_eq_ofNat (a : Word) (k : Nat) : a >>> k = BitVec.ofNat 32 (a.toNat / 2 ^ k) := by
  rw [← Nat.shiftRight_eq_div_pow, ← BitVec.toNat_ushiftRight, BitVec.ofNat_toNat, BitVec.setWidth_eq]

theorem sshiftRight_eq_ofInt (a : Word) (k : Nat) : a.sshiftRight k = BitVec.ofInt 32 (a.toInt / 2 ^ k) := by
  rw [BitVec.sshiftRight_eq, Int.shiftRight_eq_div_pow, Nat.cast_pow, Nat.cast_ofNat]

/-! ## Completion -/

/-- An instruction that retires `v` completes with every other spelling `v'` of that word. -/
theorem completes_of_retire {i : Instr} {s : State} {rd : Reg} {v v' ilen : Word} (hexec : exec i s = retire rd v ilen s)
    (hv : v = v') : ∃ t, exec i s = .next t ∧ Retires s t rd v' ilen := by
  rw [hexec, ← hv]
  exact retire_retires s rd v ilen

/-- Settles O50: each instruction retires, and the word it retires is that of its rule. -/
theorem immediateInstructionsComplete : Obligations.ImmediateInstructionsComplete := by
  intro s rd rs1 imm imm20 sh
  refine ⟨?lui, ?auipc, ?addi, ?slti, ?sltiu, ?xori, ?ori, ?andi, ?slli, ?srli, ?srai⟩
  case lui => exact completes_of_retire rfl (immU_eq_ofNat imm20)
  case auipc => exact completes_of_retire rfl (congrArg (s.pc + ·) (immU_eq_ofNat imm20))
  case addi => exact completes_of_retire rfl (add_imm12_eq_ofInt _ imm)
  case slti => exact completes_of_retire rfl (boolWord_slt_imm12 _ imm)
  case sltiu => exact completes_of_retire rfl (boolWord_ult _ (imm12 imm))
  case xori | ori | andi => exact completes_of_retire rfl rfl
  case slli => exact completes_of_retire rfl (shiftLeft_eq_ofNat _ sh.toNat)
  case srli => exact completes_of_retire rfl (shiftRight_eq_ofNat _ sh.toNat)
  case srai => exact completes_of_retire rfl (sshiftRight_eq_ofInt _ sh.toNat)

/-- Settles O51, as O50; `shiftAmount_eq_mod` gives the shift amounts. -/
theorem registerInstructionsComplete : Obligations.RegisterInstructionsComplete := by
  intro s rd rs1 rs2 a b k
  have hk : shiftAmount b = k := shiftAmount_eq_mod b
  refine ⟨?add, ?sub, ?sll, ?slt, ?sltu, ?xor, ?srl, ?sra, ?or, ?and⟩
  case add => exact completes_of_retire rfl (BitVec.add_def a b)
  case sub => exact completes_of_retire rfl (sub_eq_ofInt a b)
  case sll => exact completes_of_retire rfl (hk ▸ shiftLeft_eq_ofNat a _)
  case slt => exact completes_of_retire rfl (boolWord_slt a b)
  case sltu => exact completes_of_retire rfl (boolWord_ult a b)
  case xor | or | and => exact completes_of_retire rfl rfl
  case srl => exact completes_of_retire rfl (hk ▸ shiftRight_eq_ofNat a _)
  case sra => exact completes_of_retire rfl (hk ▸ sshiftRight_eq_ofInt a _)

end Sys2Proof.Machine
end

section
/-! PROOFS. The control transfers (41_control_transfer.md R230 to R238, 48_compressed.md R377, R388 to R390, R393, R396):
the shared jump and branch, and each instruction as a use of them. -/

namespace Sys2Proof.Machine

open Sys2Proof

/-! ## Targets as numbers -/

theorem add_signExtend_eq_ofInt {w : Nat} (a : Word) (off : BitVec w) :
    a + off.signExtend 32 = BitVec.ofInt 32 (a.toInt + off.toInt) := by
  rw [BitVec.ofInt_add, BitVec.ofInt_toInt]
  rfl

theorem clearBit0_eq_shifts (w : Word) : clearBit0 w = w >>> 1 <<< 1 := by
  rw [BitVec.shiftLeft_ushiftRight]
  rfl

theorem clearBit0_eq_ofNat (w : Word) : clearBit0 w = BitVec.ofNat 32 (w.toNat / 2 * 2) := by
  have hhalf : (w >>> 1).toNat = w.toNat / 2 := by rw [BitVec.toNat_ushiftRight, Nat.shiftRight_eq_div_pow, pow_one]
  rw [clearBit0_eq_shifts, shiftLeft_eq_ofNat, hhalf, pow_one]

/-! ## Jumps -/

/-- A jump that links completes with every other spelling `target'` of its target. -/
theorem transfers_of_linkAndJump {i : Instr} {s : State} {rd : Reg} {target target' ilen : Word}
    (hexec : exec i s = linkAndJump rd target ilen s) (htarget : target = target') :
    ∃ t, exec i s = .next t ∧ Transfers s t rd (s.pc + ilen) target' := by
  refine ⟨_, hexec, fun r => x_setX s rd r _, htarget, by simp, ?_⟩
  rw [setX_eq]
  rfl

/-- A jump without a link is one that links to `x[0]`, where every write is discarded. -/
theorem transfers_of_jumpTo {i : Instr} {s : State} {target target' : Word} (hexec : exec i s = .next (s.jumpTo target))
    (htarget : target = target') (link : Word) : ∃ t, exec i s = .next t ∧ Transfers s t 0 link target' :=
  ⟨_, hexec, fun r => x_setX s 0 r link, htarget, rfl, rfl⟩

/-- Settles O55: each jump is the shared one, and its target is that of its rule. -/
theorem jumpsComplete : Obligations.JumpsComplete := by
  intro s rd rs1 off imm coff even
  refine ⟨?jal, ?jalr, ?cJal, ?cJ, ?cJr, ?cJalr⟩
  case jal => exact transfers_of_linkAndJump rfl (add_signExtend_eq_ofInt s.pc off)
  case jalr => exact transfers_of_linkAndJump rfl (clearBit0_eq_ofNat _)
  case cJal => exact transfers_of_linkAndJump rfl (add_signExtend_eq_ofInt s.pc coff)
  case cJ => exact transfers_of_jumpTo rfl (add_signExtend_eq_ofInt s.pc coff) _
  case cJr => exact transfers_of_jumpTo rfl (clearBit0_eq_ofNat _) _
  case cJalr => exact transfers_of_linkAndJump rfl (clearBit0_eq_ofNat _)

/-! ## Branches -/

theorem bnot_slt_eq_true_iff (a b : Word) : (!a.slt b) = true ↔ a.toInt ≥ b.toInt := by
  rw [← BitVec.sle_eq_not_slt, BitVec.sle_iff_toInt_le]

theorem bnot_ult_eq_true_iff (a b : Word) : (!a.ult b) = true ↔ a.toNat ≥ b.toNat := by
  rw [← BitVec.ule_eq_not_ult, BitVec.ule_iff_toNat_le]

/-- A branch on the test `b` completes, and goes where the condition `taken` that `b` decides says. -/
theorem completes_of_branchIf {i : Instr} {s : State} {b : Bool} {w : Nat} {off : BitVec w} {ilen : Word} {taken : Prop}
    (hexec : exec i s = branchIf b (off.signExtend 32) ilen s) (hb : b = true ↔ taken) :
    ∃ t, exec i s = .next t ∧ t = { s with pc := t.pc, mcycle := s.mcycle + 1 } ∧
      (taken → t.pc = BitVec.ofInt 32 (s.pc.toInt + off.toInt)) ∧ (¬ taken → t.pc = s.pc + ilen) := by
  cases b with
  | true =>
    have htaken : taken := hb.mp rfl
    exact ⟨_, hexec, rfl, fun _ => add_signExtend_eq_ofInt s.pc off, fun h => absurd htaken h⟩
  | false =>
    have htaken : ¬ taken := fun h => Bool.false_ne_true (hb.mpr h)
    exact ⟨_, hexec, rfl, fun h => absurd h htaken, fun _ => rfl⟩

/-- Settles O56: each branch is the shared one, on a test that decides the condition of its rule. -/
theorem branchesComplete : Obligations.BranchesComplete := by
  intro s rs1 rs2 off crs1 coff a b goes
  refine ⟨?beq, ?bne, ?blt, ?bge, ?bltu, ?bgeu, ?cBeqz, ?cBnez⟩
  case beq | cBeqz => exact completes_of_branchIf rfl beq_iff_eq
  case bne | cBnez => exact completes_of_branchIf rfl bne_iff_ne
  case blt => exact completes_of_branchIf rfl BitVec.slt_iff_toInt_lt
  case bge => exact completes_of_branchIf rfl (bnot_slt_eq_true_iff a b)
  case bltu => exact completes_of_branchIf rfl BitVec.ult_iff_toNat_lt
  case bgeu => exact completes_of_branchIf rfl (bnot_ult_eq_true_iff a b)

end Sys2Proof.Machine
end

section
/-! PROOFS. Loads from RAM and stores to RAM under the identity translation (42_load_store.md R250 to R258,
48_compressed.md R373, R374, R392, R398; 20_memory.md R104, R120, R121): the access path at a plain address of RAM, the
shared load and store on it, and each instruction as a use of them. -/

namespace Sys2Proof.Machine

open Sys2Proof

/-! ## The bytes of a load (20_memory.md R104) -/

theorem extractLsb'_load_byte (m : Memory) (pa : Word) : (m.load pa .byte).extractLsb' 0 8 = m.byteAt pa :=
  (BitVec.extractLsb'_setWidth_of_le (by decide)).trans BitVec.extractLsb'_eq_self

theorem load_word_eq_append_halves (m : Memory) (pa : Word) :
    m.load pa .word = m.byteAt (pa + 3) ++ m.byteAt (pa + 2) ++ (m.byteAt (pa + 1) ++ m.byteAt pa) :=
  BitVec.append_assoc

/-! ## The access paths at a plain address of RAM (20_memory.md R120, R121) -/

section PlainRam

variable {i : Instr} {s t : State} {n : AccessSize} {va v ilen : Word} {r : Range} {rd : Reg} {tb : Tlb}

theorem memRead_plain_ram (h : PlainAccess s .read n va (.ram r)) :
    ∃ tb, memRead va n s = .ok (s.mem.load va n) (s.setTlb .read tb) := by
  obtain ⟨tb, htarget⟩ := dataTarget_plain h
  refine ⟨tb, ?_⟩
  rw [memRead_of_ok htarget, readTarget_ram rfl, setTlb_mem]

theorem memWrite_plain_ram (h : PlainAccess s .write n va (.ram r)) (v : Word) :
    ∃ tb, memWrite va n v s = .ok () { s with mem := s.mem.store va n v, writeTlb := tb } := by
  obtain ⟨tb, htarget⟩ := dataTarget_plain h
  refine ⟨tb, ?_⟩
  rw [memWrite_of_ok htarget, writeTarget_ram rfl]
  rfl

/-! ## The shared load and store -/

/-- What retires after the read cache has changed retires as a load. -/
theorem Retires.retiresLoad (h : Retires (s.setTlb .read tb) t rd v ilen) : RetiresLoad s t rd v ilen := by
  obtain ⟨hx, hpc, hmcycle, hframe⟩ := h
  refine ⟨hx, hpc, hmcycle, ?_⟩
  rw [hframe]
  rfl

/-- A load of a plain address of RAM completes with every spelling `v` of the extended value. -/
theorem completes_of_loadInto {ext : Word → Word} (hexec : exec i s = loadInto n ext rd va ilen s)
    (h : PlainAccess s .read n va (.ram r)) (hv : ext (s.mem.load va n) = v) :
    ∃ t, exec i s = .next t ∧ RetiresLoad s t rd v ilen := by
  obtain ⟨tb, hread⟩ := memRead_plain_ram h
  obtain ⟨-, t, hload, hretires⟩ := (loadInto_outcome n ext rd va ilen s).1 _ _ hread
  exact ⟨t, hexec.trans hload, hv ▸ hretires.retiresLoad⟩

/-- A store to a plain address of RAM completes. -/
theorem completes_of_storeFrom (hwf : s.mem.wf = true) (hexec : exec i s = storeFrom n va v ilen s)
    (h : PlainAccess s .write n va (.ram r)) : ∃ t, exec i s = .next t ∧ RetiresStore s t va n v ilen := by
  obtain ⟨tb, hwrite⟩ := memWrite_plain_ram h v
  obtain ⟨-, hstore⟩ := (storeFrom_outcome n va v ilen s).1 _ hwrite
  exact ⟨_, hexec.trans hstore, fun a => Memory.byteAt_store hwf va a n v, Memory.wf_store hwf va n v, rfl, rfl, rfl⟩

end PlainRam

/-- Settles O35: each load is the shared one, and its extension is that of its rule. -/
theorem ramLoadsComplete : Obligations.RamLoadsComplete := by
  intro s rd rs1 imm r a b0 h
  have hbyte : (s.mem.load a .byte).extractLsb' 0 8 = b0 := extractLsb'_load_byte s.mem a
  have hhalf : (s.mem.load a .half).extractLsb' 0 16 = h := extractLsb'_load_half s.mem a
  refine ⟨fun hplain => ⟨?lb, ?lbu⟩, fun hplain => ⟨?lh, ?lhu⟩, fun hplain => ?lw, fun crd crs1 uimm hplain => ?cLw,
    fun uimm hplain => ?cLwsp⟩
  case lb => exact completes_of_loadInto rfl hplain (congrArg (BitVec.signExtend 32) hbyte)
  case lbu => exact completes_of_loadInto rfl hplain (congrArg (BitVec.zeroExtend 32) hbyte)
  case lh => exact completes_of_loadInto rfl hplain (congrArg (BitVec.signExtend 32) hhalf)
  case lhu => exact completes_of_loadInto rfl hplain (congrArg (BitVec.zeroExtend 32) hhalf)
  case lw => exact completes_of_loadInto rfl hplain (load_word_eq_append_halves s.mem a)
  case cLw | cLwsp => exact completes_of_loadInto rfl hplain rfl

/-- Settles O36: each store is the shared one. -/
theorem ramStoresComplete : Obligations.RamStoresComplete := by
  intro s rs2 rs1 imm r hwf a
  refine ⟨fun hplain => ?sb, fun hplain => ?sh, fun hplain => ?sw, fun crs2 crs1 uimm hplain => ?cSw,
    fun uimm hplain => ?cSwsp⟩
  case sb | sh | sw | cSw | cSwsp => exact completes_of_storeFrom hwf rfl hplain

end Sys2Proof.Machine
end

section
/-! PROOFS. FENCE, FENCE.I, C.NOP and SFENCE.VMA (43_misc_mem.md R270, R271; 48_compressed.md R375;
47_system_privileged.md R355): three instructions that only advance, and the flush of the translation caches at a level
where it is legal. -/

namespace Sys2Proof.Machine

open Sys2Proof

/-- Where SFENCE.VMA is legal (R355), the guard of its trap fails. -/
theorem not_sfenceVma_illegal {s : State} (h : s.priv = .m ∨ s.priv = .s ∧ s.mstatus.getLsbD 20 = false) :
    ¬ (s.priv = .u ∨ s.priv = .s ∧ mstatusTvm s.mstatus = true) := by
  obtain hm | ⟨hs, htvm⟩ := h
  · simp [hm]
  · simpa [hs, mstatusTvm] using htvm

/-- Where it is legal, SFENCE.VMA flushes everything, whatever its operands (R355, 20_memory.md R152). -/
theorem execSfenceVma_of_legal {s : State} (h : s.priv = .m ∨ s.priv = .s ∧ s.mstatus.getLsbD 20 = false)
    (rs1 rs2 : Reg) : execSfenceVma rs1 rs2 s = .next (s.flushTlb.advance 4) :=
  if_neg (not_sfenceVma_illegal h)

/-- Settles O24: FENCE, FENCE.I and C.NOP are an `advance`, and a legal SFENCE.VMA is a flush before one. -/
theorem fencesComplete : Obligations.FencesComplete := by
  intro s
  refine ⟨fun fm pred succ rs1 rd => ?fence, fun imm rs1 rd => ?fenceI, fun imm => ?cNop, fun hlegal rs1 rs2 => ?sfenceVma⟩
  case fence | fenceI | cNop => rfl
  case sfenceVma => exact execSfenceVma_of_legal hlegal rs1 rs2

end Sys2Proof.Machine
end

section
/-! PROOFS. The M extension (44_m_extension.md R280 to R288): both halves of a product come from one integer, and signed
division is truncated division of integers whatever the operands, so the laws of R288 are those of `Int` and `Nat`. -/

namespace Sys2Proof.Machine

open Sys2Proof

section
variable (a b : Word)

/-! ## The two halves of an exact product (R280 to R283) -/

theorem highHalf_eq_ofInt (p : Int) : highHalf p = BitVec.ofInt 32 (p / 2 ^ 32) := by
  refine BitVec.eq_of_toNat_eq ?_
  rw [highHalf, extractLsb'_high, BitVec.toNat_ofNat, BitVec.toNat_ofInt, BitVec.toNat_ofInt]
  omega

theorem extractLsb'_low_ofInt (p : Int) : (BitVec.ofInt 64 p).extractLsb' 0 32 = BitVec.ofInt 32 p := by
  refine BitVec.eq_of_toNat_eq ?_
  rw [extractLsb'_low, BitVec.toNat_ofNat, BitVec.toNat_ofInt, BitVec.toNat_ofInt]
  omega

/-- The high half of `p` above any spelling of its low half is `p` to 64 bits. -/
theorem highHalf_append {p : Int} {lo : Word} (hlo : lo = BitVec.ofInt 32 p) :
    highHalf p ++ lo = BitVec.ofInt 64 p := by
  rw [hlo, ← extractLsb'_low_ofInt]
  exact BitVec.extractLsb'_append_extractLsb'

theorem mulWord_eq_ofInt_signed : mulWord a b = BitVec.ofInt 32 (a.toInt * b.toInt) := by
  rw [BitVec.ofInt_mul, BitVec.ofInt_toInt, BitVec.ofInt_toInt, mulWord]

theorem mulWord_eq_ofInt_mixed : mulWord a b = BitVec.ofInt 32 (a.toInt * b.toNat) := by
  rw [BitVec.ofInt_mul, BitVec.ofInt_toInt, BitVec.ofInt_natCast, BitVec.ofNat_toNat, BitVec.setWidth_eq, mulWord]

theorem mulWord_eq_ofNat : mulWord a b = BitVec.ofNat 32 (a.toNat * b.toNat) := by
  rw [BitVec.ofNat_mul, BitVec.ofNat_toNat, BitVec.ofNat_toNat, BitVec.setWidth_eq, BitVec.setWidth_eq, mulWord]

theorem mulhuWord_eq_ofNat : mulhuWord a b = BitVec.ofNat 32 (a.toNat * b.toNat / 2 ^ 32) := by
  rw [mulhuWord, highHalf_eq_ofInt]
  rfl

/-! ## The halves together (R288) -/

theorem mulhuWord_append_toNat : (mulhuWord a b ++ mulWord a b).toNat = a.toNat * b.toNat := by
  have hfits : a.toNat * b.toNat < 2 ^ 64 := BitVec.toNat_mul_toNat_lt
  rw [mulhuWord, highHalf_append (mulWord_eq_ofNat a b), ← Nat.cast_mul, BitVec.ofInt_natCast, BitVec.toNat_ofNat,
    Nat.mod_eq_of_lt hfits]

theorem mulhWord_append_toInt : (mulhWord a b ++ mulWord a b).toInt = a.toInt * b.toInt := by
  have hle : a.toInt * b.toInt ≤ 2 ^ 62 := BitVec.toInt_mul_toInt_le
  have hge : -(2 ^ 62) ≤ a.toInt * b.toInt := BitVec.le_toInt_mul_toInt
  rw [mulhWord, highHalf_append (mulWord_eq_ofInt_signed a b)]
  exact BitVec.toInt_ofInt_eq_self (by decide) (by omega) (by omega)

theorem mulhsuWord_append_toInt : (mulhsuWord a b ++ mulWord a b).toInt = a.toInt * b.toNat := by
  have hle : a.toInt * b.toNat ≤ 2 ^ 31 * b.toNat :=
    Int.mul_le_mul_of_nonneg_right BitVec.toInt_lt.le b.toNat.cast_nonneg
  have hge : -2 ^ 31 * b.toNat ≤ a.toInt * b.toNat :=
    Int.mul_le_mul_of_nonneg_right a.le_toInt b.toNat.cast_nonneg
  rw [mulhsuWord, highHalf_append (mulWord_eq_ofInt_mixed a b)]
  exact BitVec.toInt_ofInt_eq_self (by decide) (by omega) (by omega)

/-! ## Signed division (R284, R286) -/

theorem overflow_iff : (a = 0x80000000#32 ∧ b = 0xFFFFFFFF#32) ↔ a.toInt = -2 ^ 31 ∧ b.toInt = -1 :=
  and_congr BitVec.toInt_inj.symm BitVec.toInt_inj.symm

theorem divWord_eq : divWord a b = if b = 0#32 then 0xFFFFFFFF#32 else
    if a.toInt = -2 ^ 31 ∧ b.toInt = -1 then 0x80000000#32 else BitVec.ofInt 32 (a.toInt.tdiv b.toInt) := by
  simp only [divWord, overflow_iff]

theorem remWord_eq : remWord a b = if b = 0#32 then a else
    if a.toInt = -2 ^ 31 ∧ b.toInt = -1 then 0#32 else BitVec.ofInt 32 (a.toInt.tmod b.toInt) := by
  simp only [remWord, overflow_iff, Int.tmod_def]

variable {a b}

/-- The overflow case is the truncated quotient `2 ^ 31` to 32 bits. -/
theorem divWord_of_ne_zero (hb : b ≠ 0#32) : divWord a b = BitVec.ofInt 32 (a.toInt.tdiv b.toInt) := by
  rw [divWord_eq, if_neg hb, ite_eq_right_iff]
  rintro ⟨hmin, hneg⟩
  rw [hmin, hneg]
  rfl

/-- In the overflow case the truncated remainder is 0. -/
theorem remWord_of_ne_zero (hb : b ≠ 0#32) : remWord a b = BitVec.ofInt 32 (a.toInt.tmod b.toInt) := by
  rw [remWord_eq, if_neg hb, ite_eq_right_iff]
  rintro ⟨hmin, hneg⟩
  rw [hmin, hneg]
  rfl

theorem remWord_toInt (hb : b ≠ 0#32) : (remWord a b).toInt = a.toInt.tmod b.toInt := by
  rw [remWord_of_ne_zero hb, ← BitVec.toInt_srem, BitVec.ofInt_toInt]

theorem remuWord_toNat (hb : b ≠ 0#32) : (remuWord a b).toNat = a.toNat % b.toNat := by
  rw [remuWord, if_neg hb, ← BitVec.toNat_umod, BitVec.ofNat_toNat, BitVec.setWidth_eq]

theorem divWord_mul_add_remWord (hb : b ≠ 0#32) : divWord a b * b + remWord a b = a :=
  calc divWord a b * b + remWord a b
    _ = BitVec.ofInt 32 (a.toInt.tdiv b.toInt * b.toInt + a.toInt.tmod b.toInt) := by
      rw [divWord_of_ne_zero hb, remWord_of_ne_zero hb, BitVec.ofInt_add, BitVec.ofInt_mul, BitVec.ofInt_toInt]
    _ = a := by rw [Int.tdiv_mul_add_tmod, BitVec.ofInt_toInt]

theorem divuWord_mul_add_remuWord (hb : b ≠ 0#32) : divuWord a b * b + remuWord a b = a :=
  calc divuWord a b * b + remuWord a b
    _ = BitVec.ofNat 32 (a.toNat / b.toNat * b.toNat + a.toNat % b.toNat) := by
      rw [divuWord, if_neg hb, remuWord, if_neg hb, BitVec.ofNat_add, BitVec.ofNat_mul, BitVec.ofNat_toNat,
        BitVec.setWidth_eq]
    _ = a := by rw [Nat.div_add_mod', BitVec.ofNat_toNat, BitVec.setWidth_eq]

end

/-- Settles O52: each instruction retires, and the word it retires is that of its rule. -/
theorem multiplyDivideComplete : Obligations.MultiplyDivideComplete := by
  intro s rd rs1 rs2 a b overflow
  refine ⟨?mul, ?mulh, ?mulhsu, ?mulhu, ?div, ?divu, ?rem, ?remu⟩
  case mul => exact completes_of_retire rfl (mulWord_eq_ofNat a b)
  case mulh | mulhsu => exact completes_of_retire rfl (highHalf_eq_ofInt _)
  case mulhu => exact completes_of_retire rfl (mulhuWord_eq_ofNat a b)
  case div => exact completes_of_retire rfl (divWord_eq a b)
  case rem => exact completes_of_retire rfl (remWord_eq a b)
  case divu | remu => exact completes_of_retire rfl rfl

/-- Settles O53: the exact products fit in 64 bits, and a word's quotient and remainder are those of the integers. -/
theorem multiplyDivideLaws : Obligations.MultiplyDivideLaws := by
  intro a b
  refine ⟨mulhuWord_append_toNat a b, mulhWord_append_toInt a b, mulhsuWord_append_toInt a b, fun hb =>
    ⟨divWord_mul_add_remWord hb, divuWord_mul_add_remuWord hb, ?remuSmaller, ?remSmaller, ?remNonneg, ?remNonpos⟩⟩
  case remuSmaller =>
    rw [remuWord_toNat hb]
    exact Nat.mod_lt _ (BitVec.toNat_pos_of_ne_zero hb)
  case remSmaller =>
    rw [remWord_toInt hb, Int.natAbs_tmod]
    exact Nat.mod_lt _ (Int.natAbs_pos.mpr (mt (BitVec.eq_of_toInt_eq (y := 0#32)) hb))
  case remNonneg =>
    rw [remWord_toInt hb]
    exact Int.tmod_nonneg _
  case remNonpos =>
    intro ha
    rw [remWord_toInt hb, ← neg_nonneg, ← Int.neg_tmod]
    exact Int.tmod_nonneg _ (neg_nonneg.mpr ha)

end Sys2Proof.Machine
end

section
/-! PROOFS. The A extension (45_a_extension.md R300 to R315): LR.W and SC.W by what their access paths answer, and the
nine atomic memory operations, once for all of them, by what answers at their target. -/

namespace Sys2Proof.Machine

open Sys2Proof

section Atomics

variable {s u w t : State} {g : Target} {e : Exc} {aq rl : Bool} {rd rs1 rs2 : Reg} {r : Range} {d : Nat}
  {v old new pa : Word} {f : Word → Word → Word}

/-! ## Completion after an access -/

/-- `o` is the outcome of an instruction that made accesses, which left the state `u`. -/
theorem completes_of_retire_after {o : Result} (h : o = retire rd v 4 u) : ∃ t, o = .next t ∧ Retires u t rd v 4 := by
  rw [h]
  exact retire_retires u rd v 4

/-- What retires after the word at `pa` was stored, perhaps with a new entry in the write cache, retires as an atomic
access of RAM. -/
theorem Retires.retiresAmo {tb : Tlb} (hwf : s.mem.wf = true)
    (h : Retires { s with mem := s.mem.store pa .word new, writeTlb := tb } t rd old 4) :
    RetiresAmo s t rd pa old new := by
  obtain ⟨hx, hpc, hmcycle, hframe⟩ := h
  rw [hframe] at hx hpc hmcycle ⊢
  exact ⟨hx, fun a => Memory.byteAt_store hwf pa a .word new, Memory.wf_store hwf pa .word new, hpc, hmcycle, rfl⟩

theorem OnlyStorage.of_ok {α : Type} {a : Access α} {x : α} (honly : OnlyStorage s a.state) (h : a = .ok x u) :
    OnlyStorage s u := by
  rwa [h] at honly

theorem OnlyStorage.of_raise {α : Type} {a : Access α} (honly : OnlyStorage s a.state) (h : a = .raise e u) :
    OnlyStorage s u := by
  rwa [h] at honly

/-! ## LR.W (45_a_extension.md R301) -/

theorem exec_lrW : exec (.lrW aq rl rd rs1) s = execLrW aq rl rd rs1 s := rfl

theorem exec_lrW_of_ok (hg : dataTarget (s.x rs1) .word .read s = .ok g u)
    (hread : memRead (s.x rs1) .word s = .ok v w) :
    exec (.lrW aq rl rd rs1) s = retire rd v 4 { w with reservation := some g.pa } := by
  rw [memRead_of_ok hg] at hread
  rw [exec_lrW, execLrW_eq, hg, Access.conclude_ok, hread, Access.conclude_ok]

theorem exec_lrW_of_raise (hread : memRead (s.x rs1) .word s = .raise e u) :
    exec (.lrW aq rl rd rs1) s = .next (takeException e u) := by
  rw [exec_lrW, execLrW_eq]
  rcases Access.bind_raise hread with hg | ⟨g, w, hg, hread⟩
  · rw [hg, Access.conclude_raise]
  · rw [hg, Access.conclude_ok, hread, Access.conclude_raise]

/-! ## SC.W (R302) -/

theorem exec_scW : exec (.scW aq rl rd rs1 rs2) s = execScW aq rl rd rs1 rs2 s := rfl

theorem exec_scW_of_raise (hg : dataTarget (s.x rs1) .word .write s = .raise e u) :
    exec (.scW aq rl rd rs1 rs2) s = .next (takeException e u) := by
  rw [exec_scW, execScW_eq, hg, Access.conclude_raise]

/-- Translation keeps the reservation, so SC.W compares its target with the reservation that stood before it. -/
theorem exec_scW_of_ok (hg : dataTarget (s.x rs1) .word .write s = .ok g u) : exec (.scW aq rl rd rs1 rs2) s =
    if s.reservation = some g.pa then
      (memWrite (s.x rs1) .word (s.x rs2) s).conclude fun _ w => retire rd 0#32 4 { w with reservation := none }
    else retire rd 1#32 4 { u with reservation := none } := by
  rw [exec_scW, execScW_eq, hg, Access.conclude_ok, ((dataTarget_only _ _ _ s).of_ok hg).reservation,
    memWrite_of_ok hg]

section Reserved

variable (hg : dataTarget (s.x rs1) .word .write s = .ok g u) (hres : s.reservation = some g.pa)

include hg hres

theorem exec_scW_stores (hwrite : memWrite (s.x rs1) .word (s.x rs2) s = .ok () w) :
    exec (.scW aq rl rd rs1 rs2) s = retire rd 0#32 4 { w with reservation := none } := by
  rw [exec_scW_of_ok hg, if_pos hres, hwrite, Access.conclude_ok]

theorem exec_scW_storeRaises (hwrite : memWrite (s.x rs1) .word (s.x rs2) s = .raise e w) :
    exec (.scW aq rl rd rs1 rs2) s = .next (takeException e w) := by
  rw [exec_scW_of_ok hg, if_pos hres, hwrite, Access.conclude_raise]

end Reserved

theorem exec_scW_fails (hg : dataTarget (s.x rs1) .word .write s = .ok g u) (hres : s.reservation ≠ some g.pa) :
    exec (.scW aq rl rd rs1 rs2) s = retire rd 1#32 4 { u with reservation := none } := by
  rw [exec_scW_of_ok hg, if_neg hres]

/-! ## An atomic memory operation by what answers at its target (R303, R304; 20_memory.md R101, R102) -/

theorem amoOp_of_raise (hg : dataTarget (s.x rs1) .word .write s = .raise e u) :
    amoOp f rd rs1 rs2 s = .next (takeException e u) := by
  rw [amoOp_eq, hg, Access.conclude_raise]

section Translated

variable (hg : dataTarget (s.x rs1) .word .write s = .ok g u)

include hg

theorem amoOp_ram (hb : g.backing = .ram r) : amoOp f rd rs1 rs2 s = retire rd (u.mem.load g.pa .word) 4
    { u with mem := u.mem.store g.pa .word (f (u.mem.load g.pa .word) (s.x rs2)) } := by
  rw [amoOp_eq, hg, Access.conclude_ok, readTarget_ram hb, Access.conclude_ok, writeTarget_ram hb, Access.conclude_ok]

theorem amoOp_unmapped (hb : g.backing = .unmapped) : amoOp f rd rs1 rs2 s = retire rd 0#32 4 u := by
  rw [amoOp_eq, hg, Access.conclude_ok, readTarget_unmapped hb, Access.conclude_ok, writeTarget_unmapped hb,
    Access.conclude_ok]

/-- A device that faults at the load gets no store. -/
theorem amoOp_mmio_loadFault (hb : g.backing = .mmio d) (hload : Config.deviceLoad u.bus d g.pa .word = .fault) :
    amoOp f rd rs1 rs2 s =
      .next (takeException (.storeAccessFault (s.x rs1)) { u with bus := .load d g.pa .word :: u.bus }) := by
  rw [amoOp_eq, hg, Access.conclude_ok, readTarget_mmio hb, hload]
  rfl

/-- A device that answers the load gets the store next; the register is written only after both. -/
theorem amoOp_mmio (hb : g.backing = .mmio d) (hload : Config.deviceLoad u.bus d g.pa .word = .value old)
    (hnew : f old (s.x rs2) = new) : amoOp f rd rs1 rs2 s =
      if Config.deviceStoreFaults (.load d g.pa .word :: u.bus) d g.pa .word new = true then
        .next (takeException (.storeAccessFault (s.x rs1))
          { u with bus := .store d g.pa .word new :: .load d g.pa .word :: u.bus })
      else retire rd old 4 { u with bus := .store d g.pa .word new :: .load d g.pa .word :: u.bus } := by
  rw [amoOp_eq, hg, Access.conclude_ok, readTarget_mmio hb, hload]
  simp only [Access.conclude_ok, maskToSize, writeTarget_mmio hb, hnew]
  split <;> rfl

end Translated

end Atomics

/-- Settles O41: what the target, the reservation and the access path answer decides the outcome; a plain access has its
own address as its target. -/
theorem loadReservedStoreConditional : Obligations.LoadReservedStoreConditional := by
  intro s aq rl rd rs1 rs2
  refine ⟨fun g u v w hg hread => ?lr, fun e u hread => ?lrRaises,
    fun g u hg => ⟨(dataTarget_only _ _ _ s).of_ok hg,
      fun hres => ⟨fun w hwrite => ?scStores, fun e w hwrite => ?scStoreRaises⟩, fun hres => ?scFails⟩,
    fun e u hg => ?scRaises, fun r => ⟨fun hplain => ?lrPlain, fun hwf hplain => ?scPlain⟩⟩
  case lr => exact ⟨(memRead_only _ _ s).of_ok hread, completes_of_retire_after (exec_lrW_of_ok hg hread)⟩
  case lrRaises => exact ⟨(memRead_only _ _ s).of_raise hread, exec_lrW_of_raise hread⟩
  case scStores => exact completes_of_retire_after (exec_scW_stores hg hres hwrite)
  case scStoreRaises => exact exec_scW_storeRaises hg hres hwrite
  case scFails => exact completes_of_retire_after (exec_scW_fails hg hres)
  case scRaises => exact ⟨(dataTarget_only _ _ _ s).of_raise hg, exec_scW_of_raise hg⟩
  case lrPlain =>
    obtain ⟨tb, hg⟩ := dataTarget_plain hplain
    obtain ⟨t, hexec, hretires⟩ := completes_of_retire_after
      (exec_lrW_of_ok hg ((memRead_of_ok hg).trans (readTarget_ram rfl)))
    exact ⟨t, hexec, hretires.retiresLoad⟩
  case scPlain =>
    obtain ⟨tb, hg⟩ := dataTarget_plain hplain
    refine ⟨fun hres => ?_, fun hres => ?_⟩
    · obtain ⟨t, hexec, hretires⟩ := completes_of_retire_after
        (exec_scW_stores hg hres ((memWrite_of_ok hg).trans (writeTarget_ram rfl)))
      exact ⟨t, hexec, hretires.retiresAmo hwf⟩
    · obtain ⟨t, hexec, hretires⟩ := completes_of_retire_after (exec_scW_fails hg hres)
      exact ⟨t, _, hexec, rfl, hretires⟩

/-- Settles O42: each of the nine is `amoOp`, and a plain access has its own address as its target. -/
theorem amosComplete : Obligations.AmosComplete := by
  intro s aq rl rd rs1 rs2 r hs
  refine ⟨fun u g hg hb => ⟨(dataTarget_only _ _ _ s).of_ok hg, fun p hp => ?translated⟩,
    fun hplain p hp => ?plain⟩
  case translated =>
    obtain ⟨t, hexec, hretires⟩ := completes_of_retire_after ((exec_amoTable hp s).trans (amoOp_ram hg hb))
    exact ⟨t, hexec, hretires.retiresAmo (storageInv_of_dataTarget hs hg).memory⟩
  case plain =>
    obtain ⟨tb, hg⟩ := dataTarget_plain hplain
    obtain ⟨t, hexec, hretires⟩ := completes_of_retire_after ((exec_amoTable hp s).trans (amoOp_ram hg rfl))
    exact ⟨t, hexec, hretires.retiresAmo hs.memory⟩

/-- Settles O43: each of the nine is `amoOp`, by what answers at its target. -/
theorem amosOutsideRam : Obligations.AmosOutsideRam := by
  intro s u aq rl rd rs1 rs2 g p hp
  rw [exec_amoTable hp]
  refine ⟨fun hg => ⟨fun hb => ?unmapped, fun d hb => ⟨fun hload => ?loadFault, fun old hload => ?answered⟩⟩,
    fun e hg => amoOp_of_raise hg⟩
  case unmapped => exact completes_of_retire_after (amoOp_unmapped hg hb)
  case loadFault => exact amoOp_mmio_loadFault hg hb hload
  case answered =>
    intro new u2
    rw [amoOp_mmio hg hb hload rfl]
    split
    · rfl
    · exact retire_retires u2 rd old 4

end Sys2Proof.Machine
end

section
/-! PROOFS. An access that the rules do not refuse reaches its register and completes, for the six CSR instructions
(10_state.md R40, R63, R74; 46_zicsr.md R330 to R338). -/

namespace Sys2Proof.Machine

open Sys2Proof

/-! ## What is not refused reaches its register -/

/-- Only the address of R63 names `satp`. -/
theorem csrOf_satp {a : BitVec 12} (h : csrOf a = some .satp) : a = 0x180#12 := by
  have named : ∀ p ∈ namedCsrs, p.2 = .satp → p.1 = 0x180 := by decide
  have ranged : ∀ p ∈ csrRanges, p.2.2 ≠ .satp := by decide
  rcases (csrOf_eq_some_iff a .satp).mp h with hc | ⟨p, hp, -, -, hc⟩
  · exact BitVec.eq_of_toNat_eq (named _ hc rfl)
  · exact absurd hc.symm (ranged p hp)

/-- The counter addresses are among those that R40 makes read-only. -/
theorem isCounterAddr_readOnly {a : BitVec 12} (h : isCounterAddr a = true) : a.extractLsb' 10 2 = 3#2 := by
  rw [isCounterAddr_iff] at h
  refine BitVec.eq_of_toNat_eq ?_
  rw [BitVec.extractLsb'_toNat, Nat.shiftRight_eq_div_pow]
  change a.toNat / 1024 % 4 = 3
  omega

/-- `csr_check` (R40): the counters need no clause of their own. -/
theorem csrCheck_iff (a : BitVec 12) (w : Bool) (p : Priv) : csrCheck a w p = true ↔
    ¬ (w = true ∧ a.extractLsb' 10 2 = 3#2) ∧ (a.extractLsb' 8 2).toNat ≤ p.level := by
  simp only [csrCheck, Bool.and_eq_true, Bool.not_eq_true', Bool.and_eq_false_imp, beq_eq_false_iff_ne,
    decide_eq_true_eq, not_and]
  refine and_congr_left fun _ => ⟨And.right, fun h => ⟨fun hw => ?_, h⟩⟩
  exact Bool.eq_false_iff.mpr fun hcounter => h hw (isCounterAddr_readOnly hcounter)

/-- The conditions of the registers (R63, R74). -/
theorem csrCondition_iff (a : BitVec 12) (c : Csr) (s : State) : csrCondition a c s = true ↔
    ¬ (c = .satp ∧ s.priv = .s ∧ s.mstatus.getLsbD 20 = true) ∧
      (isCounterAddr a = true → counterEnabled a s = true) := by
  simp [csrCondition, mstatusTvm, imp_iff_not_or, or_assoc]

/-- The converse of `csrSelect_refused`, at an address that names a register. -/
theorem csrSelect_of_not_refused {a : BitVec 12} {w : Bool} {s : State} {c : Csr} (hof : csrOf a = some c)
    (h : ¬ CsrRefused a w s) : csrSelect a w s = some c := by
  unfold CsrRefused at h
  simp only [not_or] at h
  obtain ⟨hreadOnly, hlevel, -, htvm, hcounter⟩ := h
  refine csrSelect_eq_some_iff.mpr ⟨(csrCheck_iff a w s.priv).mpr ⟨hreadOnly, by omega⟩, hof,
    (csrCondition_iff a c s).mpr ⟨?_, fun haddr => ?_⟩⟩
  · rintro ⟨rfl, hs, hbit⟩
    exact htvm ⟨csrOf_satp hof, hs, hbit⟩
  · rw [counterEnabled_iff]
    by_contra hdisabled
    rw [not_or] at hdisabled
    exact hcounter ⟨(isCounterAddr_iff a).mp haddr, hdisabled⟩

/-! ## The access completes -/

section Access

variable {c : Csr} {rd : Reg} {writes reads : Bool} {f : Word → Word} {s : State}

/-- A state with the registers and `pc` of `s` that advances, with the old value in `rd` when the register is read. -/
theorem csrCompletes_advance {u : State} (hregs : u.regs = s.regs) (hpc : u.pc = s.pc)
    (hu : u = if writes then csrWrite c (f (csrRead c s).1) (if reads then (csrRead c s).2 else s)
      else if reads then (csrRead c s).2 else s) :
    CsrCompletes s ((if reads then u.setX rd (csrRead c s).1 else u).advance 4) c rd writes reads f := by
  refine ⟨fun r => ?_, u, hu, ?_⟩
  · cases reads <;> simp [x_setX, x_congr hregs]
  · cases reads
    · simp [State.advance, hpc]
    · rw [if_pos rfl, setX_eq]
      simp [State.advance, hpc]

/-- An access completes; one that does not read must write a value that does not depend on the old one (R338). -/
theorem csrAccess_completes (hf : reads = false → ∀ v w, f v = f w) :
    ∃ t, csrAccess c rd writes reads f s = .next t ∧ CsrCompletes s t c rd writes reads f := by
  have hread : (csrRead c s).2.regs = s.regs ∧ (csrRead c s).2.pc = s.pc := by
    rw [csrRead_only]; exact ⟨rfl, rfl⟩
  have hwrite : ∀ v u, (csrWrite c v u).regs = u.regs ∧ (csrWrite c v u).pc = u.pc := fun v u =>
    have ⟨hregs, hpc, _⟩ := csrWrite_only c v u
    ⟨hregs, hpc⟩
  refine ⟨_, rfl, ?_⟩
  cases reads with
  | true =>
    refine csrCompletes_advance ?regs ?pc rfl
    case regs | pc => cases writes <;> simp [hread, hwrite]
  | false =>
    refine csrCompletes_advance (reads := false) ?regs ?pc ?written
    case regs | pc => cases writes <;> simp [hwrite]
    case written => simp [hf rfl (csrRead c s).1 0#32]

/-- An instruction of the common form (R330) that is not refused completes. -/
theorem exec_csrOp_completes {i : Instr} {a : BitVec 12} (hi : exec i s = csrOp i a rd writes reads f s)
    (hof : csrOf a = some c) (h : ¬ CsrRefused a writes s) (hf : reads = false → ∀ v w, f v = f w) :
    ∃ t, exec i s = .next t ∧ CsrCompletes s t c rd writes reads f := by
  rw [hi, csrOp, csrSelect_of_not_refused hof h]
  exact csrAccess_completes hf

end Access

/-- Whether an instruction reads or writes, as the statement and as the model say it. -/
theorem decide_ne_eq_bne {α : Type} [DecidableEq α] (a b : α) : decide (a ≠ b) = (a != b) := by
  rw [Bool.eq_iff_iff, decide_eq_true_iff, bne_iff_ne]

/-- Settles O27: an access that is not refused completes, for each of the six instructions; the two that may not read
write their operand whatever the old value. -/
theorem csrInstructionsComplete : Obligations.CsrInstructionsComplete := by
  intro s rd rs1 uimm a c hof
  have operand : BitVec.ofNat 32 uimm.toNat = uimm5 uimm := BitVec.ofNat_toNat 32 uimm
  simp only [decide_ne_eq_bne, operand]
  refine ⟨fun h => ⟨?csrrw, ?csrrwi⟩, fun h => ⟨?csrrs, ?csrrc⟩, fun h => ⟨?csrrsi, ?csrrci⟩⟩
  case csrrw | csrrwi => exact exec_csrOp_completes rfl hof h fun _ _ _ => rfl
  case csrrs | csrrc | csrrsi | csrrci => exact exec_csrOp_completes rfl hof h nofun

end Sys2Proof.Machine
end

section
/-! PROOFS. The system and privileged instructions (47_system_privileged.md R350 to R356): ECALL and EBREAK take their
traps, MRET and SRET restore what a trap saved, WFI halts until an interrupt wakes the core (60_exceptions.md R440), and
where each of them is refused. -/

namespace Sys2Proof.Machine

open Sys2Proof

/-! ## The returns from a trap (R352, R353) -/

/-- The return level has the two bits of `MPP`, which is never 2 (10_state.md R80). -/
theorem mretTarget_bits {w : Word} (h : w.extractLsb' 11 2 ≠ 2#2) : (mretTarget w).bits = w.extractLsb' 11 2 := by
  have ofBits : ∀ b : BitVec 2, b ≠ 2#2 → (Priv.ofBits b).bits = b := by decide
  exact ofBits _ h

theorem getLsbD_mstatusAfterMret (w : Word) {b : Nat} (hb : b < 32) : (mstatusAfterMret w).getLsbD b =
    if b = 7 then true else if b = 11 ∨ b = 12 then false else if b = (mretTarget w).level then w.getLsbD 7
    else w.getLsbD b := by
  rw [mstatusAfterMret, getLsbD_setMpp, getLsbD_setBit, getLsbD_setBit]
  by_cases hmpp : b = 11 ∨ b = 12
  · rcases hmpp with rfl | rfl <;> simp
  · rw [not_or] at hmpp
    simp [hmpp, hb, mstatusMpie]

theorem getLsbD_mstatusAfterSret (w : Word) {b : Nat} (hb : b < 32) : (mstatusAfterSret w).getLsbD b =
    if b = 5 then true else if b = 8 then false else if b = (sretTarget w).level then w.getLsbD 5
    else w.getLsbD b := by
  rw [mstatusAfterSret, getLsbD_setBit, getLsbD_setBit, getLsbD_setBit]
  by_cases h8 : b = 8
  · simp [h8]
  · simp [h8, hb, mstatusSpie]

/-! ## Where they are legal (R352 to R354) -/

/-- Where an instruction that a bit of `mstatus` guards at Supervisor level is legal, the condition of its trap fails. -/
theorem not_refused_of_legal {p : Priv} {guard : Bool} (h : p = .m ∨ p = .s ∧ guard = false) :
    ¬ (p = .u ∨ p = .s ∧ guard = true) := by
  rcases h with rfl | ⟨rfl, rfl⟩ <;> simp

theorem exec_mret_of_legal {s : State} (h : s.priv = .m) : exec .mret s = .next (trapReturnM s) := if_pos h

theorem exec_sret_of_legal {s : State} (h : s.priv = .m ∨ s.priv = .s ∧ s.mstatus.getLsbD 22 = false) :
    exec .sret s = .next (trapReturnS s) :=
  if_neg (not_refused_of_legal h)

theorem exec_wfi_of_legal {s : State} (h : s.priv = .m ∨ s.priv = .s ∧ s.mstatus.getLsbD 21 = false) :
    exec .wfi s = .next (({ s with halted := s.halted || s.mip &&& s.mie == 0#32 } : State).advance 4) :=
  if_neg (not_refused_of_legal h)

/-- Settles O20: the two returns, with their `mstatus` bit by bit. -/
theorem trapReturns : Obligations.TrapReturns := by
  refine fun s => ⟨fun hm hmpp => ?mret, fun hlegal => ?sret⟩
  case mret =>
    exact ⟨trapReturnM s, exec_mret_of_legal hm, rfl, mretTarget_bits hmpp,
      fun b hb => getLsbD_mstatusAfterMret s.mstatus hb, rfl, ⟨rfl, rfl, rfl⟩, rfl⟩
  case sret =>
    exact ⟨trapReturnS s, exec_sret_of_legal hlegal, rfl, rfl,
      fun b hb => getLsbD_mstatusAfterSret s.mstatus hb, rfl, ⟨rfl, rfl, rfl⟩, rfl⟩

/-! ## Where they are refused (R356) -/

/-- The fields of `rs1` and `rs2` in an R-format word, as a number (30_encoding.md R171). -/
theorem registerFields_eq_append (rs1 rs2 : Reg) : BitVec.ofNat 32 (rs1.val * 2 ^ 15 + rs2.val * 2 ^ 20) =
    0#7 ++ Reg.bits rs2 ++ Reg.bits rs1 ++ 0#15 := by
  have hrs1 := rs1.isLt
  have hrs2 := rs2.isLt
  refine BitVec.eq_of_toNat_eq ?_
  rw [BitVec.toNat_ofNat, Nat.mod_eq_of_lt (by omega), BitVec.toNat_append, BitVec.toNat_append, BitVec.toNat_append,
    ← Nat.shiftLeft_add_eq_or_of_lt (Reg.bits rs1).isLt]
  simp only [BitVec.toNat_zero, Nat.shiftLeft_eq, Nat.or_zero, Nat.zero_mul, Nat.zero_or, Reg.bits, BitVec.toNat_ofFin]
  omega

theorem encode_sfenceVma (rs1 rs2 : Reg) : (encode (.sfenceVma rs1 rs2)).toWord =
    0x12000073#32 ||| BitVec.ofNat 32 (rs1.val * 2 ^ 15 + rs2.val * 2 ^ 20) := by
  change encR 0x09#7 rs2 rs1 0#3 0 0x73#7 = _
  rw [registerFields_eq_append, word_eq_iff_slices]
  simp (disch := decide) only [encR, Reg.bits_zero, BitVec.extractLsb'_or, slice_rules, Nat.reduceSub,
    BitVec.reduceExtractLsb', BitVec.or_zero, BitVec.zero_or, and_self]

/-- Settles O21: each of the four, where it is refused, traps with the word that encodes it. -/
theorem privilegedInstructionsTrap : Obligations.PrivilegedInstructionsTrap := by
  refine fun s rs1 rs2 => ⟨fun h => ?mret, fun h => ?sret, fun h => ?wfi, fun h => ?sfenceVma⟩
  case mret => exact if_neg h
  case sret | wfi => exact if_pos h
  case sfenceVma =>
    rw [← encode_sfenceVma]
    exact if_pos h

/-! ## ECALL and EBREAK (R350, R351) -/

/-- An exception's cause is its code (60_exceptions.md R422). -/
theorem causeWord_exception {c : Nat} (hc : c < 2 ^ 31) : causeWord c false = BitVec.ofNat 32 c := by
  refine BitVec.eq_of_getLsbD_eq fun i hi => ?_
  rw [causeWord, getLsbD_setBit]
  split
  · next h =>
    rw [h.1, BitVec.getLsbD_ofNat, Nat.testBit_lt_two_pow hc, Bool.and_false]
  · rfl

theorem trapEntry_of_not_delegated {s : State} {c : Nat} {intr : Bool} (h : s.delegated c intr = false) (v : Word) :
    trapEntry c intr v s = (s.saveM c intr v).flushTlb := by
  simp [trapEntry, h]

theorem trapEntry_of_delegated {s : State} {c : Nat} {intr : Bool} (h : s.delegated c intr = true) (v : Word) :
    trapEntry c intr v s = (s.saveS c intr v).flushTlb := by
  simp [trapEntry, h]

/-- ECALL has a code for each level and the value 0 at all of them (60_exceptions.md R420). -/
theorem exec_ecall (s : State) : exec .ecall s = .next (trapEntry (ecallExc s.priv).code false 0#32 s) := by
  have hvalue : (ecallExc s.priv).value = 0#32 := by cases s.priv <;> rfl
  rw [← hvalue]
  rfl

theorem ecallExc_code_lt (p : Priv) : (ecallExc p).code < 2 ^ 31 := by
  cases p <;> decide

/-- Settles O19: each of the three is a trap entry, which saves cause, value and `pc` at the level it goes to. -/
theorem environmentTraps : Obligations.EnvironmentTraps := by
  intro s ecallCode
  have hcode : ecallCode = (ecallExc s.priv).code := by unfold ecallCode; cases s.priv <;> rfl
  have hcause : ∀ c, c = ecallCode ∨ c = 3 → causeWord c false = BitVec.ofNat 32 c := by
    rintro c (rfl | rfl)
    · exact causeWord_exception (hcode ▸ ecallExc_code_lt s.priv)
    · exact causeWord_exception (by decide)
  refine ⟨hcode ▸ exec_ecall s, rfl, rfl, fun c hc hm => ?machine, fun c hc hm hdeleg => ?supervisor⟩
  case machine =>
    have hnot : s.delegated c false = false := by
      rcases hm with hm | hm <;> simp [State.delegated, hm]
    rw [trapEntry_of_not_delegated hnot]
    exact ⟨hcause c hc, rfl, rfl⟩
  case supervisor =>
    have hdel : s.delegated c false = true := by simp [State.delegated, hm, hdeleg]
    rw [trapEntry_of_delegated hdel]
    exact ⟨hcause c hc, rfl, rfl⟩

/-! ## WFI (R354) and the interrupt that wakes the core (60_exceptions.md R440) -/

/-- Settles O23: a legal WFI is the halt flag before an `advance`, and a halted core's step changes nothing. -/
theorem wfiCompletes : Obligations.WfiCompletes := by
  refine fun s => ⟨fun hlegal => ?wfi, fun mask => ?raise⟩
  case wfi => exact ⟨_, exec_wfi_of_legal hlegal, rfl, by simp, step_halted⟩
  case raise => exact ⟨raiseInterrupts mask s, rfl, rfl, fun b => BitVec.getLsbD_or, by simp [raiseInterrupts]⟩

end Sys2Proof.Machine
end

section
/-! PROOFS. The compressed computational instructions (48_compressed.md R370, R372 to R391, R394, R397): each retires
the word of its expansion. -/

namespace Sys2Proof.Machine

open Sys2Proof

/-! ## Immediates of the expansions -/

/-- A zero extension that leaves room for a sign bit is not changed by a sign extension after it. -/
theorem imm12_zeroExtend (imm : BitVec 10) : imm12 (imm.zeroExtend 12) = cUimm4spn imm := by
  have hmsb : (imm.zeroExtend 12).msb = false := by simp [BitVec.msb_setWidth]
  rw [imm12, BitVec.signExtend_eq_setWidth_of_msb_false hmsb]
  exact BitVec.setWidth_setWidth (by decide)

/-- Two sign extensions in a row are one. -/
theorem imm12_signExtend {n : Nat} (hn : n ≤ 12) (imm : BitVec n) : imm12 (imm.signExtend 12) = imm.signExtend 32 :=
  congrArg (BitVec.ofInt 32) (BitVec.toInt_signExtend_of_le hn)

/-- The sign bit of C.LUI's immediate stays on top when the 12 zeros are put below it (R380). -/
theorem immU_signExtend (imm : BitVec 6) : immU (imm.signExtend 20) = cImmLui imm := by
  refine word_ext fun i hi => ?_
  rw [immU, cImmLui, BitVec.getLsbD_append, BitVec.getLsbD_signExtend, BitVec.getLsbD_signExtend,
    BitVec.getLsbD_append, BitVec.msb_append]
  by_cases hlow : i < 12
  · simp [hlow, show i < 18 by omega, hi]
  · by_cases hmid : i < 18
    · simp [hlow, hmid, hi, show i - 12 < 20 by omega, show i - 12 < 6 by omega]
    · simp [hlow, hmid, hi, show i - 12 < 20 by omega, show ¬ i - 12 < 6 by omega]

/-! ## Completion -/

/-- An instruction of 2 bytes that retires the word its expansion retires differs from it in `pc` alone. -/
theorem expands_of_retire {c e : Instr} {s : State} {rd : Reg} {v w : Word} (he : exec e s = retire rd v 4 s)
    (hc : exec c s = retire rd w 2 s) (hw : w = v) :
    ∃ t, exec e s = .next t ∧ exec c s = .next { t with pc := s.pc + 2 } := by
  refine ⟨(s.setX rd v).advance 4, he, hc.trans ?_⟩
  simp [hw, retire, State.advance]

/-- Settles O54: both retire into one register, and the immediate of the expansion is that of the compressed form. -/
theorem compressedComputeComplete : Obligations.CompressedComputeComplete := by
  intro s rd rs2 crd crs2 imm6 imm10 sh expands
  have himm6 : cImm6 imm6 = imm12 (imm6.signExtend 12) := (imm12_signExtend (by decide) imm6).symm
  refine ⟨?cAddi4spn, ?cNop, ?cAddi, ?cLi, ?cAddi16sp, ?cLui, ?cSrli, ?cSrai, ?cAndi, ?cSub, ?cXor, ?cOr, ?cAnd, ?cSlli,
    ?cMv, ?cAdd⟩
  case cAddi4spn => exact expands_of_retire rfl rfl (congrArg (s.x 2 + ·) (imm12_zeroExtend imm10).symm)
  case cNop => exact expands_of_retire (rd := 0) rfl rfl rfl
  case cAddi => exact expands_of_retire rfl rfl (congrArg (s.x rd + ·) himm6)
  case cLi => exact expands_of_retire rfl rfl (himm6.trans (BitVec.zero_add _).symm)
  case cAddi16sp => exact expands_of_retire rfl rfl (congrArg (s.x 2 + ·) (imm12_signExtend (by decide) imm10).symm)
  case cLui => exact expands_of_retire rfl rfl (immU_signExtend imm6).symm
  case cAndi => exact expands_of_retire rfl rfl (congrArg (s.x crd.reg &&& ·) himm6)
  case cMv => exact expands_of_retire rfl rfl (BitVec.zero_add _).symm
  case cSrli | cSrai | cSub | cXor | cOr | cAnd | cSlli | cAdd => exact expands_of_retire rfl rfl rfl

end Sys2Proof.Machine
end

section
/-! PROOFS. Interrupts (60_exceptions.md R445 to R447): which are admitted, which of them is taken, and the Machine
handler that never runs. -/

namespace Sys2Proof.Machine

open Sys2Proof

/-! ## Admission (R446) -/

theorem getLsbD_gate (e : Bool) {b : Nat} (hb : b < 32) : (gate e).getLsbD b = e := by
  cases e
  · exact BitVec.getLsbD_zero
  · exact (BitVec.getLsbD_allOnes (v := 32)).trans (decide_eq_true hb)

/-- Settles O14: every operation of `admittedSet` is bitwise, and a gate is its enable bit at each place. -/
theorem interruptAdmission : Obligations.InterruptAdmission := by
  intro s b hb pending delegated
  cases hadm : s.plat.irqAdmission <;> cases hpriv : s.priv <;>
    simp only [admittedSet, hadm, hpriv, BitVec.getLsbD_or, BitVec.getLsbD_and, BitVec.getLsbD_not, getLsbD_gate _ hb,
      hb, decide_true, Bool.true_and, Bool.and_true, pending, delegated, mstatusMie, mstatusSie]
  all_goals
    generalize s.mip.getLsbD b = p, s.mie.getLsbD b = e, s.mideleg.getLsbD b = d, s.mstatus.getLsbD 1 = sie,
      s.mstatus.getLsbD 3 = mie
    revert p e d sie mie
    decide

/-! ## Priority (R445) -/

/-- The six interrupts of the fixed order are the bits of the mask. -/
theorem mem_irqPriority_iff {b : Nat} (hb : b < 32) : b ∈ irqPriority ↔ (0xAAA#32).getLsbD b = true := by
  revert b; decide

theorem irqPriority_lt : ∀ b ∈ irqPriority, b < 32 := by decide

theorem pendingInterrupt_eq_none_iff (s : State) : pendingInterrupt s = none ↔ admittedSet s &&& 0xAAA#32 = 0#32 := by
  rw [pendingInterrupt, List.find?_eq_none, and_eq_zero_iff]
  constructor
  · intro h b hb hm
    exact Bool.eq_false_iff.mpr (h b ((mem_irqPriority_iff hb).mpr hm))
  · intro h b hb
    have hlt := irqPriority_lt b hb
    exact Bool.eq_false_iff.mp (h b hlt ((mem_irqPriority_iff hlt).mp hb))

/-- What is taken is admitted, and one of the six. -/
theorem pendingInterrupt_eq_some {s : State} {c : Nat} (h : pendingInterrupt s = some c) :
    (admittedSet s).getLsbD c = true ∧ (0xAAA#32).getLsbD c = true := by
  have hmem := List.mem_of_find?_eq_some h
  exact ⟨List.find?_some (p := fun c => (admittedSet s).getLsbD c) h,
    (mem_irqPriority_iff (irqPriority_lt c hmem)).mp hmem⟩

theorem find?_cons_eq_ite {α : Type} (p : α → Bool) (a : α) (l : List α) :
    (a :: l).find? p = if p a then some a else l.find? p := by
  rw [List.find?_cons]
  cases p a <;> rfl

/-- The search through the fixed order, as a chain of conditions; 5 is the last. -/
theorem pendingInterrupt_of_admitted {s : State} (h : admittedSet s &&& 0xAAA#32 ≠ 0#32) : pendingInterrupt s = some
    (if (admittedSet s).getLsbD 11 then 11 else if (admittedSet s).getLsbD 3 then 3
      else if (admittedSet s).getLsbD 7 then 7 else if (admittedSet s).getLsbD 9 then 9
      else if (admittedSet s).getLsbD 1 then 1 else 5) := by
  rw [ne_eq, ← pendingInterrupt_eq_none_iff] at h
  revert h
  simp only [pendingInterrupt, irqPriority, find?_cons_eq_ite, List.find?_nil]
  split_ifs <;> simp

/-- Settles O15: `pendingInterrupt` searches the fixed order, and a step takes what it finds. -/
theorem interruptPriority : Obligations.InterruptPriority := by
  intro s e
  refine ⟨(pendingInterrupt_eq_none_iff s).mpr, pendingInterrupt_of_admitted, fun c hc => ?taken⟩
  obtain ⟨hadm, hmask⟩ := pendingInterrupt_eq_some hc
  exact ⟨hadm, hmask, fun hh => ⟨_, step_interrupt hh hc, rfl, trapEntry_mip c true 0#32 s⟩⟩

/-! ## The handler that never runs (R447 (a)) -/

/-- Under `document` a Machine-level interrupt is admitted in Machine mode whatever `MIE` is. -/
theorem HandlerStarved.admitted {s : State} (h : HandlerStarved s) : admittedSet s &&& 0xAAA#32 ≠ 0#32 := by
  obtain ⟨hdoc, hm, -, hpending⟩ := h
  intro hnone
  refine hpending ((and_eq_zero_iff _ _).mpr fun b hb hmask => ?_)
  have hbit := (and_eq_zero_iff _ _).mp hnone b hb hmask
  simp only [admittedSet, hdoc, hm, BitVec.getLsbD_or, Bool.or_eq_false_iff] at hbit
  exact hbit.1

/-- A trap in Machine mode goes to Machine. -/
theorem trapEntry_of_machine {s : State} (h : s.priv = .m) (c : Nat) (intr : Bool) (v : Word) :
    trapEntry c intr v s = (s.saveM c intr v).flushTlb :=
  trapEntry_of_not_delegated (by simp [State.delegated, h]) v

/-- Settles O16: what starves the handler is kept by the trap entry that it causes. -/
theorem documentHandlerNeverRuns : Obligations.DocumentHandlerNeverRuns := by
  intro s hs
  obtain ⟨c, hc⟩ : ∃ c, pendingInterrupt s = some c :=
    Option.ne_none_iff_exists'.mp fun hnone => hs.admitted ((pendingInterrupt_eq_none_iff s).mp hnone)
  obtain ⟨hdoc, hm, hh, hpending⟩ := hs
  refine ⟨c, _, step_interrupt hh hc, rfl, ?_⟩
  rw [trapEntry_of_machine hm]
  exact ⟨rfl, rfl, hdoc, rfl, hh, hpending⟩

end Sys2Proof.Machine
end

section
/-! PROOFS. Trap entry (60_exceptions.md R450 to R454): the target level, what it saves and changes, the handler's
address; and the return straight after it (R455). -/

namespace Sys2Proof.Machine

open Sys2Proof

/-! ## The target level (R451) -/

theorem delegated_iff {s : State} {code : Nat} {intr : Bool} : s.delegated code intr = true ↔
    s.priv ≠ .m ∧ (if intr = true then s.mideleg else s.medeleg).getLsbD code = true := by
  cases intr <;> simp [State.delegated]

theorem trapEntry_priv (s : State) (code : Nat) (intr : Bool) (value : Word) :
    (trapEntry code intr value s).priv = if s.delegated code intr then .s else .m := by
  cases h : s.delegated code intr <;> simp [trapEntry, h, State.saveM, State.saveS]

/-! ## What is saved (R450, R422) -/

/-- The cause of a trap as a number: an interrupt has bit 31 set. -/
theorem causeWord_eq {code : Nat} (h : code < 32) (intr : Bool) :
    causeWord code intr = BitVec.ofNat 32 (code + if intr then 2 ^ 31 else 0) := by
  revert code intr
  decide

theorem Priv.getLsbD_bits_zero (p : Priv) : p.bits.getLsbD 0 = decide (p ≠ .u) := by cases p <;> rfl

theorem Priv.getLsbD_bits_one (p : Priv) : p.bits.getLsbD 1 = decide (p = .m) := by cases p <;> rfl

theorem getLsbD_mstatusTrapToM (w : Word) (p : Priv) {b : Nat} (hb : b < 32) : (mstatusTrapToM w p).getLsbD b =
    if b = 7 then w.getLsbD p.level else if b = 11 then decide (p ≠ .u) else if b = 12 then decide (p = .m)
    else if b = 3 then false else w.getLsbD b := by
  rw [mstatusTrapToM, getLsbD_setBit, getLsbD_setMpp, getLsbD_setBit, p.getLsbD_bits_zero, p.getLsbD_bits_one]
  simp only [hb, and_true, mstatusIe]
  grind

theorem getLsbD_mstatusTrapToS (w : Word) (p : Priv) {b : Nat} (hb : b < 32) : (mstatusTrapToS w p).getLsbD b =
    if b = 5 then w.getLsbD p.level else if b = 8 then decide (p = .s) else if b = 1 then false else w.getLsbD b := by
  rw [mstatusTrapToS, getLsbD_setBit, getLsbD_setBit, getLsbD_setBit]
  simp only [hb, and_true, mstatusIe]
  grind

/-- Settles O17: trap entry is `saveS` or `saveM`, each with its `mstatus` bit by bit, and a flush. -/
theorem trapEntryEffect : Obligations.TrapEntry := by
  intro s code intr value hcode t toS cause
  have hcause : causeWord code intr = cause := causeWord_eq hcode intr
  refine ⟨fun hS => ?supervisor, fun hM => ?machine, trapEntry_mcycle .., ⟨trapEntry_fetchTlb .., trapEntry_readTlb ..,
    trapEntry_writeTlb ..⟩, ?frame⟩
  case supervisor =>
    simp only [t, trapEntry_of_delegated (delegated_iff.mpr hS)]
    exact ⟨rfl, rfl, hcause, rfl, rfl, rfl, rfl, fun b hb => getLsbD_mstatusTrapToS s.mstatus s.priv hb⟩
  case machine =>
    simp only [t, trapEntry_of_not_delegated (Bool.eq_false_iff.mpr (mt delegated_iff.mp hM))]
    exact ⟨rfl, rfl, hcause, rfl, rfl, rfl, rfl, fun b hb => getLsbD_mstatusTrapToM s.mstatus s.priv hb⟩
  case frame =>
    simp only [t]
    cases h : s.delegated code intr
    · rw [trapEntry_of_not_delegated h]; rfl
    · rw [trapEntry_of_delegated h]; rfl

/-! ## The handler's address (R453) -/

theorem trapEntry_pc (s : State) (code : Nat) (intr : Bool) (value : Word) : (trapEntry code intr value s).pc =
    trapVector (if (trapEntry code intr value s).priv = .m then s.mtvec else s.stvec) code intr := by
  cases h : s.delegated code intr
  · rw [trapEntry_of_not_delegated h]; rfl
  · rw [trapEntry_of_delegated h]; rfl

theorem trapVector_direct {tvec : Word} {code : Nat} {intr : Bool} (h : tvec.getLsbD 0 = false ∨ intr = false) :
    trapVector tvec code intr = tvec &&& 0xFFFFFFFC#32 := by
  rw [trapVector, if_neg]
  rcases h with h | h <;> simp only [h, Bool.false_and, Bool.and_false, Bool.false_eq_true, not_false_eq_true]

theorem trapVector_vectored {tvec : Word} (h : tvec.getLsbD 0 = true) (code : Nat) :
    trapVector tvec code true = (tvec &&& 0xFFFFFFFC#32) + BitVec.ofNat 32 (4 * code) := by
  rw [trapVector, h]
  rfl

/-- The mode bit does not reach the base. -/
theorem base_of_vectored (w : Word) :
    ((w &&& 0xFFFFFFFC#32) ||| 1#32) &&& 0xFFFFFFFC#32 = w &&& 0xFFFFFFFC#32 := by
  rw [BitVec.and_or_distrib_right, BitVec.and_assoc]
  simp

theorem getLsbD_and_tvecMask_one (v : Word) : (v &&& tvecMask).getLsbD 1 = false := by simp [tvecMask]

/-- Settles O18: the two modes of `trapVector`, the function, at the vector register of the target level. -/
theorem trapVectorModes : Obligations.TrapVector := by
  intro s code intr value v t tvec base
  have hpc : t.pc = trapVector tvec code intr := trapEntry_pc s code intr value
  have hbase : (base ||| 1#32) &&& 0xFFFFFFFC#32 = base := base_of_vectored tvec
  have hmode : (base ||| 1#32).getLsbD 0 = true := by simp
  refine ⟨fun h => hpc.trans (trapVector_direct (.inl h)), fun h => hpc.trans (trapVector_direct (.inr h)),
    fun h hi => ?vectored, ?targets, trapEntry_mem .., trapEntry_bus .., trapEntry_reservation ..,
    getLsbD_and_tvecMask_one v, getLsbD_and_tvecMask_one v⟩
  case vectored =>
    subst hi
    exact hpc.trans (trapVector_vectored h code)
  case targets => simp only [List.map_cons, List.map_nil, trapVector_vectored hmode, hbase, Nat.reduceMul]

/-! ## The return (R455; 47_system_privileged.md R352, R353) -/

theorem mretTarget_mstatusTrapToM (w : Word) (p : Priv) : mretTarget (mstatusTrapToM w p) = p := by
  have hmpp : mstatusMpp (mstatusTrapToM w p) = p.bits := by
    obtain ⟨h0, h1⟩ := mpp_bits (mstatusTrapToM w p)
    refine BitVec.eq_of_getLsbD_eq fun i hi => ?_
    match i, hi with
    | 0, _ => exact (h0.trans (getLsbD_mstatusTrapToM w p (by decide))).trans p.getLsbD_bits_zero.symm
    | 1, _ => exact (h1.trans (getLsbD_mstatusTrapToM w p (by decide))).trans p.getLsbD_bits_one.symm
  rw [mretTarget, hmpp]
  cases p <;> rfl

theorem sretTarget_mstatusTrapToS (w : Word) {p : Priv} (hp : p ≠ .m) : sretTarget (mstatusTrapToS w p) = p := by
  rw [sretTarget, mstatusSpp, getLsbD_mstatusTrapToS w p (by decide)]
  cases p with
  | u | s => rfl
  | m => exact absurd rfl hp

/-- The entry to Machine and the return from it change four bits; a lower level's enable bit goes through `MPIE`. -/
theorem getLsbD_mret_of_trapToM (w : Word) (p : Priv) {b : Nat} (hb : b < 32) (h : b = p.level ∨ b ∉ [3, 7, 11, 12]) :
    (mstatusAfterMret (mstatusTrapToM w p)).getLsbD b = w.getLsbD b := by
  have hlevel := level_cases p
  rw [getLsbD_mstatusAfterMret _ hb, mretTarget_mstatusTrapToM, getLsbD_mstatusTrapToM w p hb,
    getLsbD_mstatusTrapToM w p (by decide)]
  simp only [List.mem_cons, List.not_mem_nil, or_false, not_or] at h
  grind

theorem getLsbD_sret_of_trapToS (w : Word) {p : Priv} (hp : p ≠ .m) {b : Nat} (hb : b < 32)
    (h : b = p.level ∨ b ∉ [1, 5, 8]) : (mstatusAfterSret (mstatusTrapToS w p)).getLsbD b = w.getLsbD b := by
  have hlevel := level_cases p
  rw [getLsbD_mstatusAfterSret _ hb, sretTarget_mstatusTrapToS w hp, getLsbD_mstatusTrapToS w p hb,
    getLsbD_mstatusTrapToS w p (by decide)]
  simp only [List.mem_cons, List.not_mem_nil, or_false, not_or] at h
  grind

/-- Settles O22: where the entry went decides which return undoes it. -/
theorem returnUndoesTrap : Obligations.ReturnUndoesTrap := by
  intro s code intr value t
  have hlevel : s.priv.level < 32 := by have := level_cases s.priv; omega
  refine ⟨fun hm => ?mret, fun hs htsr => ?sret⟩
  case mret =>
    have hdel : s.delegated code intr = false := by
      by_contra hdel
      simp [t, trapEntry_priv, hdel] at hm
    have ht : t = (s.saveM code intr value).flushTlb := trapEntry_of_not_delegated hdel value
    refine ⟨_, exec_mret_of_legal hm, ?_⟩
    rw [ht]
    exact ⟨rfl, mretTarget_mstatusTrapToM .., rfl, rfl, rfl, getLsbD_mret_of_trapToM _ _ hlevel (.inl rfl),
      fun b hb h => getLsbD_mret_of_trapToM _ _ hb (.inr h)⟩
  case sret =>
    have hdel : s.delegated code intr = true := by
      by_contra hdel
      simp [t, trapEntry_priv, hdel] at hs
    obtain ⟨hp, -⟩ := delegated_iff.mp hdel
    have ht : t = (s.saveS code intr value).flushTlb := trapEntry_of_delegated hdel value
    have htsr' : t.mstatus.getLsbD 22 = false := by
      rw [ht]
      exact (getLsbD_mstatusTrapToS s.mstatus s.priv (by decide)).trans htsr
    refine ⟨_, exec_sret_of_legal (.inr ⟨hs, htsr'⟩), ?_⟩
    rw [ht]
    exact ⟨rfl, sretTarget_mstatusTrapToS _ hp, rfl, rfl, rfl, getLsbD_sret_of_trapToS _ hp hlevel (.inl rfl),
      fun b hb h => getLsbD_sret_of_trapToS _ hp hb (.inr h)⟩

end Sys2Proof.Machine
end

section
/-! PROOFS. Every instruction answers a next state (60_exceptions.md R423), and only a CSR instruction on `mip` or `sip`
changes a pending bit (R441). -/

namespace Sys2Proof.Machine

open Sys2Proof

/-! ## Answers that keep the pending bits -/

/-- The answer is a next state, with the pending bits of `s`. -/
def KeepsPending (s : State) (r : Result) : Prop := ∃ t, r = .next t ∧ t.mip = s.mip

theorem OnlyStorage.mip {s t : State} (h : OnlyStorage s t) : t.mip = s.mip := by rw [h]

section Keeps

variable {s u : State}

theorem KeepsPending.of_next (h : u.mip = s.mip) : KeepsPending s (.next u) := ⟨u, rfl, h⟩

theorem KeepsPending.of_retire (h : u.mip = s.mip) (rd : Reg) (v n : Word) : KeepsPending s (retire rd v n u) :=
  .of_next (by simpa using h)

theorem KeepsPending.of_retire_reserving (h : u.mip = s.mip) (q : Option Word) (rd : Reg) (v n : Word) :
    KeepsPending s (retire rd v n { u with reservation := q }) :=
  .of_retire (u := { u with reservation := q }) h rd v n

theorem KeepsPending.of_takeException (h : u.mip = s.mip) (e : Exc) : KeepsPending s (.next (takeException e u)) :=
  .of_next ((trapEntry_mip ..).trans h)

theorem KeepsPending.of_illegal (i : Instr) : KeepsPending s (illegal i s) := .of_takeException rfl _

theorem KeepsPending.of_conclude {α : Type} {a : Access α} {f : α → State → Result} (ha : OnlyStorage s a.state)
    (hf : ∀ v w, OnlyStorage s w → KeepsPending s (f v w)) : KeepsPending s (a.conclude f) := by
  cases a with
  | ok v w => exact hf v w ha
  | raise e w => exact .of_takeException ha.mip e

theorem KeepsPending.of_ite {p : Prop} [Decidable p] {r r' : Result} (h : KeepsPending s r) (h' : KeepsPending s r') :
    KeepsPending s (if p then r else r') := by
  split
  · exact h
  · exact h'

theorem KeepsPending.of_loadInto (n : AccessSize) (ext : Word → Word) (rd : Reg) (va ilen : Word) :
    KeepsPending s (loadInto n ext rd va ilen s) :=
  .of_conclude (memRead_only va n s) fun _ _ hw => .of_retire hw.mip ..

theorem KeepsPending.of_storeFrom (n : AccessSize) (va v ilen : Word) : KeepsPending s (storeFrom n va v ilen s) :=
  .of_conclude (memWrite_only va n v s) fun _ _ hw => .of_next hw.mip

theorem KeepsPending.of_linkAndJump (rd : Reg) (target ilen : Word) : KeepsPending s (linkAndJump rd target ilen s) :=
  .of_next (by simp)

theorem KeepsPending.of_branchIf (taken : Bool) (off ilen : Word) : KeepsPending s (branchIf taken off ilen s) :=
  .of_ite (.of_next rfl) (.of_next rfl)

theorem KeepsPending.of_amoOp (f : Word → Word → Word) (rd rs1 rs2 : Reg) : KeepsPending s (amoOp f rd rs1 rs2 s) :=
  .of_conclude (amoOp_only f rs1 rs2 s) fun _ _ hw => .of_retire hw.mip ..

theorem KeepsPending.of_execLrW (aq rl : Bool) (rd rs1 : Reg) : KeepsPending s (execLrW aq rl rd rs1 s) := by
  rw [execLrW_eq]
  refine .of_conclude (dataTarget_only ..) fun g u hu => ?_
  exact .of_conclude (hu.trans (readTarget_only ..)) fun _ _ hw => .of_retire_reserving hw.mip ..

theorem KeepsPending.of_execScW (aq rl : Bool) (rd rs1 rs2 : Reg) : KeepsPending s (execScW aq rl rd rs1 rs2 s) := by
  rw [execScW_eq]
  refine .of_conclude (dataTarget_only ..) fun g u hu => .of_ite ?_ (.of_retire_reserving hu.mip ..)
  exact .of_conclude (hu.trans (writeTarget_only ..)) fun _ _ hw => .of_retire_reserving hw.mip ..

end Keeps

/-! ## The CSR instructions and their address (46_zicsr.md R330; 30_encoding.md R175) -/

/-- `i` is one of the six CSR instructions, by its row, and its word holds the CSR address `a`. -/
def CsrEncoding (i : Instr) (a : BitVec 12) : Prop :=
  i.rowMatch.extractLsb' 0 7 = 0x73#7 ∧ i.rowMatch.extractLsb' 12 3 ≠ 0#3 ∧ (encode i).toWord.extractLsb' 20 12 = a

theorem immIOf_encI (imm : BitVec 12) (rs1 : Reg) (f3 : BitVec 3) (rd : Reg) (op : BitVec 7) :
    immIOf (encI imm rs1 f3 rd op) = imm := by
  obtain ⟨-, -, -, -, himm⟩ := encI_eq_iff.mp (rfl : encI imm rs1 f3 rd op = _)
  exact himm

theorem immIOf_encCsrI (csr : BitVec 12) (uimm : BitVec 5) (f3 : BitVec 3) (rd : Reg) :
    immIOf (encCsrI csr uimm f3 rd) = csr := by
  obtain ⟨-, -, -, -, hcsr⟩ := encCsrI_eq_iff.mp (rfl : encCsrI csr uimm f3 rd = _)
  exact hcsr

/-- An instruction answers a next state with the pending bits it found, but for a CSR instruction. -/
theorem exec_keepsPending_or_csrOp (i : Instr) (s : State) : KeepsPending s (exec i s) ∨
    ∃ a rd writes reads f, CsrEncoding i a ∧ exec i s = csrOp i a rd writes reads f s := by
  cases i with
  | lui | auipc | addi | slti | sltiu | xori | ori | andi | slli | srli | srai
  | add | sub | sll | slt | sltu | xor | srl | sra | or | and
  | mul | mulh | mulhsu | mulhu | div | divu | rem | remu
  | cAddi4spn | cAddi | cLi | cAddi16sp | cLui | cSrli | cSrai | cAndi
  | cSub | cXor | cOr | cAnd | cSlli | cMv | cAdd => exact .inl (.of_retire rfl ..)
  | fence | fenceI | cNop | cJ | cJr => exact .inl (.of_next rfl)
  | jal | cJal | jalr | cJalr => exact .inl (.of_linkAndJump ..)
  | beq | bne | blt | bge | bltu | bgeu | cBeqz | cBnez => exact .inl (.of_branchIf ..)
  | lb | lh | lw | lbu | lhu | cLw | cLwsp => exact .inl (.of_loadInto ..)
  | sb | sh | sw | cSw | cSwsp => exact .inl (.of_storeFrom ..)
  | lrW aq rl => exact .inl (.of_execLrW aq rl ..)
  | scW aq rl => exact .inl (.of_execScW aq rl ..)
  | amoswapW | amoaddW | amoxorW | amoandW | amoorW | amominW | amomaxW | amominuW | amomaxuW =>
    refine .inl ?_
    simp only [exec]
    exact .of_amoOp ..
  | ecall | ebreak | cEbreak => exact .inl (.of_takeException rfl _)
  | mret => exact .inl (.of_ite (.of_next rfl) (.of_illegal _))
  | sret | wfi | sfenceVma => exact .inl (.of_ite (.of_illegal _) (.of_next rfl))
  | csrrw rd rs1 a | csrrs rd rs1 a | csrrc rd rs1 a =>
    refine .inr ⟨a, rd, _, _, _, ⟨?_, ?_, immIOf_encI ..⟩, rfl⟩
    · simp [Instr.rowMatch]
    · simp [Instr.rowMatch]
  | csrrwi rd uimm a | csrrsi rd uimm a | csrrci rd uimm a =>
    refine .inr ⟨a, rd, _, _, _, ⟨?_, ?_, immIOf_encCsrI ..⟩, rfl⟩
    · simp [Instr.rowMatch]
    · simp [Instr.rowMatch]

/-! ## Every step answers a next state (60_exceptions.md R423) -/

theorem csrOp_answers (i : Instr) (a : BitVec 12) (rd : Reg) (writes reads : Bool) (f : Word → Word) (s : State) :
    ∃ t, csrOp i a rd writes reads f s = .next t := by
  unfold csrOp
  split
  · exact ⟨_, rfl⟩
  · exact ⟨_, rfl⟩

theorem exec_answers (i : Instr) (s : State) : ∃ t, exec i s = .next t := by
  rcases exec_keepsPending_or_csrOp i s with ⟨t, ht, -⟩ | ⟨a, rd, writes, reads, f, -, hi⟩
  · exact ⟨t, ht⟩
  · exact hi ▸ csrOp_answers i a rd writes reads f s

theorem runRaw_answers (raw : RawInstr) (s : State) : ∃ t, runRaw raw s = .next t := by
  cases h : decodeRaw raw with
  | ok i => exact runRaw_ok h ▸ exec_answers i s
  | error d => exact ⟨_, runRaw_error h⟩

theorem step_answers (s : State) : ∃ t, step s = .next t := by
  cases hh : s.halted with
  | true => exact ⟨s, step_halted hh⟩
  | false =>
    cases hp : pendingInterrupt s with
    | some c => exact ⟨_, step_interrupt hh hp⟩
    | none =>
      cases hf : fetchInstr s with
      | raise e t => exact ⟨_, step_of_raise hh hp hf⟩
      | ok raw t => exact step_of_fetch hh hp hf ▸ runRaw_answers raw t

/-- Settles O9: no branch of an instruction or of a step ends in a fault or a refusal. -/
theorem everyStepAnswersNext : Obligations.EveryStepAnswersNext := ⟨exec_answers, step_answers⟩

/-! ## Writes of the pending bits (60_exceptions.md R441; 10_state.md R52, R54) -/

/-- The two names of the pending bits, by their addresses (10_state.md R43). -/
theorem csrOf_pending {a : BitVec 12} {c : Csr} (h : csrOf a = some c) (hc : c = .mip ∨ c = .sip) :
    a ∈ [0x344#12, 0x144#12] := by
  have named : ∀ p ∈ namedCsrs, (p.2 = .mip ∨ p.2 = .sip) → BitVec.ofNat 12 p.1 ∈ [0x344#12, 0x144#12] := by decide
  have ranged : ∀ p ∈ csrRanges, ¬ (p.2.2 = .mip ∨ p.2.2 = .sip) := by decide
  rcases (csrOf_eq_some_iff a c).mp h with hmem | ⟨p, hp, -, -, rfl⟩
  · simpa using named _ hmem hc
  · exact absurd hc (ranged p hp)

theorem csrWrite_mip_of_ne {c : Csr} (hmip : c ≠ .mip) (hsip : c ≠ .sip) (v : Word) (s : State) :
    (csrWrite c v s).mip = s.mip := by
  cases c with
  | mip => exact absurd rfl hmip
  | sip => exact absurd rfl hsip
  | _ => simp [csrWrite, writeSstatus, writeMstatus, writeSatp, writeMcycleLow, writeMcycleHigh]

/-- A write through a mask inside `midelegMask` changes no bit outside it. -/
theorem getLsbD_maskedWrite_inside {m : Word} (hm : m &&& ~~~midelegMask = 0#32) (w v : Word) (b : Nat) :
    (maskedWrite m w v).getLsbD b = w.getLsbD b ∨ b ∈ [1, 5, 9] := by
  rw [getLsbD_maskedWrite]
  cases hbit : m.getLsbD b with
  | false => exact .inl rfl
  | true =>
    have hb : b < 32 := BitVec.lt_of_getLsbD hbit
    have hmask : midelegMask.getLsbD b = true := by
      by_contra hout
      simp [(mask_eq_zero_iff m midelegMask).mp hm b hb (Bool.eq_false_iff.mpr hout)] at hbit
    rw [midelegMask_bit b hb] at hmask
    exact .inr (by simpa using hmask)

/-- Of the CSR writes only those of `mip` and `sip` change pending bits, and those that software may write. -/
theorem csrWrite_pending {s : State} (hs : s.CsrInv) (c : Csr) (v : Word) (b : Nat) :
    (csrWrite c v s).mip.getLsbD b = s.mip.getLsbD b ∨ (b ∈ [1, 5, 9] ∧ (c = .mip ∨ c = .sip)) := by
  obtain ⟨-, -, hmideleg, -⟩ := (csrInv_iff s).mp hs
  by_cases hmip : c = .mip
  · subst hmip
    exact (getLsbD_maskedWrite_inside (by decide) s.mip v b).imp_right fun h => ⟨h, .inl rfl⟩
  by_cases hsip : c = .sip
  · subst hsip
    exact (getLsbD_maskedWrite_inside hmideleg s.mip v b).imp_right fun h => ⟨h, .inr rfl⟩
  · exact .inl (by rw [csrWrite_mip_of_ne hmip hsip])

theorem CsrEffect.pending {s t : State} {c : Csr} {writes : Bool} (hs : s.CsrInv) (h : CsrEffect s t c writes)
    (b : Nat) : t.mip.getLsbD b = s.mip.getLsbD b ∨ (b ∈ [1, 5, 9] ∧ (c = .mip ∨ c = .sip)) := by
  obtain ⟨u, v, hu, w, hw, ht⟩ := h
  have hread : u = { s with bus := u.bus } := by
    rcases hu with rfl | rfl
    · rfl
    · exact csrRead_only c s
  have hinv : u.CsrInv := by rw [hread]; exact hs
  have hmip : u.mip = s.mip := by rw [hread]
  have htw : t.mip = w.mip := by rw [ht]
  rw [htw, hw, ← hmip]
  cases writes with
  | false => exact .inl rfl
  | true => exact csrWrite_pending hinv c v b

theorem getLsbD_and_not (w m : Word) (b : Nat) : (w &&& ~~~m).getLsbD b = (w.getLsbD b && !m.getLsbD b) := by
  rw [BitVec.getLsbD_and, BitVec.getLsbD_not]
  by_cases hb : b < 32
  · rw [decide_eq_true hb, Bool.true_and]
  · rw [BitVec.getLsbD_of_ge w b (by omega), Bool.false_and, Bool.false_and]

/-- Settles O57: what is no CSR instruction keeps every pending bit; a CSR instruction changes them by its write. -/
theorem loweringInterrupts : Obligations.LoweringInterrupts := by
  refine ⟨fun s mask => ?lower, fun s code intr value => trapEntry_mip code intr value s, fun i s t b hs ht => ?instr⟩
  case lower =>
    exact ⟨lowerInterrupts mask s, rfl, rfl, getLsbD_and_not s.mip mask⟩
  case instr =>
    rcases exec_keepsPending_or_csrOp i s with ⟨t', ht', hmip⟩ | ⟨a, rd, writes, reads, f, ⟨hop, hf3, haddr⟩, hi⟩
    · cases ht'.symm.trans ht
      exact .inl (by rw [hmip])
    · rcases csrOp_cases (hi.symm.trans ht) with ⟨e, u, hu, rfl⟩ | ⟨c, hc, heffect⟩
      · exact .inl (by rw [takeException, trapEntry_mip, hu.mip])
      · obtain ⟨-, hof, -⟩ := csrSelect_eq_some_iff.mp hc
        exact (heffect.pending hs b).imp_right fun ⟨hb, hpending⟩ =>
          ⟨hb, hop, hf3, haddr ▸ csrOf_pending hof hpending⟩

end Sys2Proof.Machine
end

section
/-! PROOFS. The host operations (70_reset_and_hazards.md R480 to R489): calls of `step` compose, `reset()` restores the
identity translation, a snapshot restores the state. -/

namespace Sys2Proof.Machine

open Sys2Proof

/-! ## Calls of `step` (R482) -/

section Budget

variable {s s' : State}

theorem hostStep_zero (s : State) : hostStep 0 s = (0, .next s) := rfl

theorem hostStep_halted (h : s.halted = true) (n : Nat) : hostStep n s = (0, .next s) := by
  cases n with
  | zero => rfl
  | succ n => rw [hostStep, if_pos h]

theorem hostStep_succ (hh : s.halted = false) (hs : step s = .next s') (n : Nat) :
    hostStep (n + 1) s = ((hostStep n s').1 + 1, (hostStep n s').2) := by
  rw [hostStep, if_neg (Bool.eq_false_iff.mp hh), hs]

end Budget

/-- A call leaves a state, from which a second call goes on; it makes fewer iterations than its budget only where it
leaves the core halted. -/
theorem hostStep_add (a b : Nat) (s : State) : ∃ t, (hostStep a s).2 = .next t ∧
    hostStep (a + b) s = ((hostStep a s).1 + (hostStep b t).1, (hostStep b t).2) ∧ (hostStep a s).1 ≤ a ∧
    ((hostStep a s).1 < a → t.halted = true) := by
  induction a generalizing s with
  | zero => exact ⟨s, rfl, by simp [hostStep_zero], Nat.le_refl 0, fun h => absurd h (Nat.lt_irrefl 0)⟩
  | succ a ih =>
    cases hh : s.halted with
    | true =>
      simp only [hostStep_halted hh, Nat.zero_add]
      exact ⟨s, rfl, by rw [hostStep_halted hh], Nat.zero_le _, fun _ => hh⟩
    | false =>
      obtain ⟨s', hs⟩ := step_answers s
      obtain ⟨t, ht, hadd, hle, hhalt⟩ := ih s'
      rw [Nat.add_right_comm, hostStep_succ hh hs, hostStep_succ hh hs, hadd]
      exact ⟨t, ht, by simp [Nat.add_right_comm], Nat.succ_le_succ hle, fun h => hhalt (Nat.lt_of_succ_lt_succ h)⟩

/-- Settles O60, by induction on the first budget. -/
theorem stepBudgetsCompose : Obligations.StepBudgetsCompose := by
  intro a b s
  obtain ⟨t, ht, hadd, hle, hhalt⟩ := hostStep_add a b s
  exact ⟨t, ht, hadd, hle, hhalt, fun hh => hostStep_halted hh a, hostStep_zero s⟩

/-! ## `reset()` (R484, R490; 10_state.md R90) -/

theorem getLsbD_hostReset_mstatus (s : State) {b : Nat} (hb : b < 32) :
    (hostReset s).mstatus.getLsbD b = if b = 3 ∨ b = 17 then false else s.mstatus.getLsbD b := by
  rw [hostReset, getLsbD_setBit, getLsbD_setBit]
  grind

/-- After `reset()` every access is one of Machine mode: `MPRV` is clear. -/
theorem effectivePriv_hostReset (s : State) (k : AccessKind) : (hostReset s).effectivePriv k = .m := by
  cases k with
  | fetch => rfl
  | read | write => rw [effectivePriv_data (by decide), getLsbD_hostReset_mstatus s (by decide)]; rfl

/-- Settles O58: `hostReset`, its `mstatus` bit by bit, and the identity translation of Machine mode. -/
theorem resetOperation : Obligations.ResetOperation := fun s =>
  ⟨hostReset s, rfl, rfl, rfl, rfl, rfl, rfl, ⟨rfl, rfl, rfl⟩,
    fun va k => translate_bare (.inl (effectivePriv_hostReset s k)) va, fun _ hb => getLsbD_hostReset_mstatus s hb, rfl⟩

/-! ## Snapshots (R485 to R489) -/

/-- The invariant is the precondition of `set_state` on a state's own snapshot. -/
theorem wf_getState {s : State} (h : s.Inv) : (getState s).wf = true := by
  rw [Snapshot.wf, Bool.and_eq_true]
  exact ⟨beq_iff_eq.mpr h.zeroReg, h.csrs⟩

theorem setState_of_wf {p : Snapshot} (h : p.wf = true) (s : State) :
    setState p s = .next (loadSnapshot p s) := if_pos h

theorem setState_of_not_wf {p : Snapshot} (h : p.wf = false) (s : State) :
    setState p s = .refused .illFormedSnapshot := by
  rw [setState, h]
  rfl

/-- Settles O59: `loadSnapshot` puts back what `getState` took, field by field. -/
theorem snapshotRoundTrip : Obligations.SnapshotRoundTrip :=
  ⟨fun s hs => setState_of_wf (wf_getState hs) s, fun p s =>
    ⟨fun hp => ⟨loadSnapshot p s, setState_of_wf hp s, rfl, ⟨rfl, rfl, rfl⟩, rfl, rfl, rfl⟩,
      fun hp => setState_of_not_wf hp s⟩⟩

end Sys2Proof.Machine
end

section
/-! PROOFS. The decoder on the words of the spec's own examples (30_encoding.md, 40_integer_computational.md,
48_compressed.md). -/

namespace Sys2Proof

/-- Settles O5: each word is decoded by evaluation. -/
theorem specWordsDecode : Obligations.SpecWordsDecode := by
  unfold Obligations.SpecWordsDecode
  decide

end Sys2Proof
end
